-- ==== Sys2Proof/Word.lean ====
section
/-! DEFINITION. The word type of the block and its plainest names (00_scope.md R10, R13; 20_memory.md R70). -/

namespace Sys2Proof

/-- A 32-bit port word: a binary32 encoding, a command word or a register value (R10, R70). -/
abbrev Word := BitVec 32

/-- One byte lane of a byte-addressed bus adapter (20_memory.md R75). -/
abbrev Byte := BitVec 8

/-- A 16-bit host port word address (20_memory.md R70). -/
abbrev WordAddr := BitVec 16

/-- A byte address of a byte-addressed bus adapter: byte `4·a + k` of word `a` (20_memory.md R75). -/
abbrev ByteAddr := BitVec 18

end Sys2Proof
end

