-- ==== Sys2Proof/Syntax.lean ====
section
/-! DEFINITION. The eleven commands (30_encoding.md R105), one constructor per row of the opcode table. -/

namespace Sys2Proof

/-- A command with its operand fields as unsigned numbers (30_encoding.md R100 to R105, R112). -/
inductive Instr where
  /-- `NOP` (44_system.md R250). -/
  | nop
  /-- `DCT_FWD` (40_transform.md R140). -/
  | dctFwd
  /-- `DCT_INV` (40_transform.md R141). -/
  | dctInv
  /-- `MDCT ch, len` (41_overlap_add.md R170). -/
  | mdct (ch len : Nat)
  /-- `IMDCT ch, len` (41_overlap_add.md R171). -/
  | imdct (ch len : Nat)
  /-- `CRUNCH` (42_distortion.md R190). -/
  | crunch
  /-- `CRUSH` (42_distortion.md R191). -/
  | crush
  /-- `DISTORT` (42_distortion.md R192). -/
  | distort
  /-- `PROC_BLOCK ch, len` (43_channel_pipeline.md R230). -/
  | procBlock (ch len : Nat)
  /-- `PROC_ALL count, len` (43_channel_pipeline.md R234). -/
  | procAll (count len : Nat)
  /-- `RESET` (44_system.md R252). -/
  | reset
deriving DecidableEq, Repr

end Sys2Proof
end

