-- ==== Sys2Proof/WellFormed.lean ====
section
/-! DEFINITION. Which terms of `Instr` a command word can hold: "An assembler rejects `ch` or `count` above 15 and `len`
above 65,535" (30_encoding.md R112). A value that fits its field and fails the command's own check is well formed. -/

namespace Sys2Proof

/-- The `CH`/`CHCOUNT` field is 4 bits wide (R100). -/
def fitsCh (ch : Nat) : Bool := decide (ch ≤ 15)

/-- The `LEN` field is 16 bits wide (R100). -/
def fitsLen (len : Nat) : Bool := decide (len ≤ 65535)

/-- Every operand fits its field. -/
def Instr.wellFormed : Instr → Bool
  | .nop => true
  | .dctFwd => true
  | .dctInv => true
  | .mdct ch len => fitsCh ch && fitsLen len
  | .imdct ch len => fitsCh ch && fitsLen len
  | .crunch => true
  | .crush => true
  | .distort => true
  | .procBlock ch len => fitsCh ch && fitsLen len
  | .procAll count len => fitsCh count && fitsLen len
  | .reset => true

end Sys2Proof
end

