-- ==== Sys2Proof/Decode.lean ====
section
/-! DEFINITION. The decoder, total over all 2^32 words (30_encoding.md R108), the opcode table with its match and mask
columns (R106), and the encoder (R101 to R103, R112). -/

namespace Sys2Proof

/-- Why a word is illegal (30_encoding.md R107). -/
inductive Illegal where
  /-- `OPC` is in `0x0A`–`0x0E` or `0x10`–`0xFF`. -/
  | unassignedOpcode
  /-- A format-Z opcode with any of bits 31:8 set. -/
  | operandBitsInFormatZ
  /-- A format-CL or format-KL opcode with `RSV` ≠ 0. -/
  | reservedFieldSet
deriving DecidableEq, Repr

/-- `OPC = w[7:0]` (R104). -/
def opcField (w : Word) : Nat := (w.extractLsb' 0 8).toNat

/-- `CH = zext_32(w[11:8])`, the channel index or the channel count (R104). -/
def chField (w : Word) : Nat := (w.extractLsb' 8 4).toNat

/-- `RSV = w[15:12]` (R100). -/
def rsvField (w : Word) : Nat := (w.extractLsb' 12 4).toNat

/-- `LEN = zext_32(w[31:16])` (R104). -/
def lenField (w : Word) : Nat := (w.extractLsb' 16 16).toNat

/-- Format Z: legal only when bits 31:8 are all 0 (R101). -/
def decodeZ (w : Word) (i : Instr) : Except Illegal Instr :=
  if w.extractLsb' 8 24 = 0 then .ok i else .error .operandBitsInFormatZ

/-- Formats CL and KL: well formed only when `RSV` = 0 (R102, R103). -/
def decodeCL (w : Word) (mk : Nat → Nat → Instr) : Except Illegal Instr :=
  if rsvField w = 0 then .ok (mk (chField w) (lenField w)) else .error .reservedFieldSet

/-- The decoder: the command a word selects, or why it is illegal (R104 to R109). -/
def decode (w : Word) : Except Illegal Instr :=
  match opcField w with
  | 0x00 => decodeZ w .nop
  | 0x01 => decodeZ w .dctFwd
  | 0x02 => decodeZ w .dctInv
  | 0x03 => decodeCL w .mdct
  | 0x04 => decodeCL w .imdct
  | 0x05 => decodeZ w .crunch
  | 0x06 => decodeZ w .crush
  | 0x07 => decodeZ w .distort
  | 0x08 => decodeCL w .procBlock
  | 0x09 => decodeCL w .procAll
  | 0x0F => decodeZ w .reset
  | _ => .error .unassignedOpcode

/-- The instruction the decoder reads from an opcode-table word whose low `nbits` bits are `w` and whose other bits
are 0. -/
def decodeTableWord (nbits w : Nat) : Option Instr :=
  match decode (BitVec.ofNat 32 (w % 2 ^ nbits)) with
  | .ok i => some i
  | .error _ => none

/-- The three formats of R101 to R103. -/
inductive Format where
  | z
  | cl
  | kl
deriving DecidableEq, Repr

/-- One row of the opcode map (R105, R106). -/
structure OpcodeRow where
  mnemonic : String
  format : Format
  matchBits : Word
  mask : Word
deriving DecidableEq, Repr

/-- The rows of R106, in the table's order. -/
def opcodeTable : List OpcodeRow :=
  [⟨"NOP", .z, 0x00000000, 0xFFFFFFFF⟩,
   ⟨"DCT_FWD", .z, 0x00000001, 0xFFFFFFFF⟩,
   ⟨"DCT_INV", .z, 0x00000002, 0xFFFFFFFF⟩,
   ⟨"MDCT", .cl, 0x00000003, 0x0000F0FF⟩,
   ⟨"IMDCT", .cl, 0x00000004, 0x0000F0FF⟩,
   ⟨"CRUNCH", .z, 0x00000005, 0xFFFFFFFF⟩,
   ⟨"CRUSH", .z, 0x00000006, 0xFFFFFFFF⟩,
   ⟨"DISTORT", .z, 0x00000007, 0xFFFFFFFF⟩,
   ⟨"PROC_BLOCK", .cl, 0x00000008, 0x0000F0FF⟩,
   ⟨"PROC_ALL", .kl, 0x00000009, 0x0000F0FF⟩,
   ⟨"RESET", .z, 0x0000000F, 0xFFFFFFFF⟩]

/-- "A word w selects a command when `(w & mask) == match`" (R106). -/
def OpcodeRow.selects (r : OpcodeRow) (w : Word) : Bool := w &&& r.mask == r.matchBits

/-- The row's mnemonic for each command (R105). -/
def Instr.mnemonic : Instr → String
  | .nop => "NOP"
  | .dctFwd => "DCT_FWD"
  | .dctInv => "DCT_INV"
  | .mdct _ _ => "MDCT"
  | .imdct _ _ => "IMDCT"
  | .crunch => "CRUNCH"
  | .crush => "CRUSH"
  | .distort => "DISTORT"
  | .procBlock _ _ => "PROC_BLOCK"
  | .procAll _ _ => "PROC_ALL"
  | .reset => "RESET"

/-- The word of formats CL and KL: `(len << 16) | (ch << 8) | OPC` (R112). -/
def encodeCL (opc ch len : Nat) : Word :=
  (BitVec.ofNat 32 len <<< 16) ||| (BitVec.ofNat 32 ch <<< 8) ||| BitVec.ofNat 32 opc

/-- The command word of an instruction (R112). -/
def encode : Instr → Word
  | .nop => 0x00000000
  | .dctFwd => 0x00000001
  | .dctInv => 0x00000002
  | .mdct ch len => encodeCL 0x03 ch len
  | .imdct ch len => encodeCL 0x04 ch len
  | .crunch => 0x00000005
  | .crush => 0x00000006
  | .distort => 0x00000007
  | .procBlock ch len => encodeCL 0x08 ch len
  | .procAll count len => encodeCL 0x09 count len
  | .reset => 0x0000000F

end Sys2Proof
end

