-- ==== Sys2Proof/Config.lean ====
section
/-! DEFINITION. What a build of the block fixes (00_scope.md R8) and the values the spec leaves open.

`Config` holds the implementation parameters, all of them arguments of the model and plain data.  Every free value is an
opaque constant: no proof can see what it is, so a theorem about it holds for every choice. -/

namespace Sys2Proof

/-- Which pair `FWD_M`, `INV_M` the block is built with (40_transform.md R133, R134). -/
inductive TransformKind where
  /-- `REF_CR`, the correctly rounded reference of R133. -/
  | refCr
  /-- Any other pair, each function given by a list of inputs with their outputs; an input that is not listed is its own
  output.  There are finitely many lists of `M` words, so every pair of functions on them has this form (log entry 5). -/
  | table (fwd inv : List (List Word × List Word))
deriving DecidableEq, Repr

/-- The two directions of the transform engine (40_transform.md R133). -/
inductive TransformDir where
  | forward
  | inverse
deriving DecidableEq, Repr

/-- The four control curves of the distortion stage (42_distortion.md R182, R185, R186). -/
inductive Curve where
  /-- `B`, the Crunch clamp bound. -/
  | b
  /-- `G`, the Crunch compensation gain. -/
  | g
  /-- `Q`, the Crush step count. -/
  | q
  /-- `GZ`, the Crush compensation gain. -/
  | gz
deriving DecidableEq, Repr

/-- The four control curves on `(0, 1]`, each as a list of pieces `(hi, v)` with rising limits `hi`: the value at `x` is the
`v` of the first piece with `x ≤ hi` (`Machine.curveValue`).  There are finitely many binary32 values in `(0, 1]`, so every
curve of R182, R185 and R186 has this form (log entry 3). -/
structure Curves where
  b : List (Word × Word)
  g : List (Word × Word)
  q : List (Word × Word)
  gz : List (Word × Word)
deriving DecidableEq, Repr

/-- The implementation parameters of R8, one value of each for the block's lifetime. -/
structure Config where
  /-- `N`, the block length in samples. -/
  n : Nat
  /-- `C`, the number of channel processors. -/
  c : Nat
  /-- `W`, the window table of `M = 2N` binary32 values (41_overlap_add.md R151). -/
  w : List Word
  /-- `TRANSFORM` (40_transform.md R133). -/
  transform : TransformKind
  /-- `B`, `G`, `Q`, `GZ` inside `(0, 1]` (42_distortion.md R182, R185, R186). -/
  curves : Curves
  /-- `CRUSH_COMP_EN` (42_distortion.md R185). -/
  crushCompEn : Bool
  /-- `TZ` (42_distortion.md R185). -/
  tz : Word
  /-- `REP`, the representative element of `CRUNCH` and `CRUSH` (10_state.md R39). -/
  rep : Nat
  /-- `NAN_OUT`, the pattern of a NaN an arithmetic operation produces (R8, R10). -/
  nanOut : Word
deriving DecidableEq, Repr

/-- `M = 2N`, the transform length (R8). -/
def Config.m (cfg : Config) : Nat := 2 * cfg.n

/-- FREE VALUE (log entry 3). The curves of the block `State.reset` is: R8 gives them no default ("none; open").
`Machine.openCurve` reads it within the rules of 42_distortion.md R182, R185 and R186. -/
opaque Config.freeCurve : Curve → List (Word × Word)

/-- FREE VALUE (log entry 4). What a curve evaluation returns at a control value outside `(0, 1]`: a draw, one per
evaluation (60_exceptions.md R269), numbered by `State.draws`. -/
opaque Config.curveDraw : Curve → Word → Nat → Word

/-- FREE VALUE (log entry 6). Whether element `k` of a `REF_CR` result that is a nonzero real of magnitude at most
`2^-150` rounds to `-0.0` (true) or `+0.0`: both are nearest, and `rnd32` (00_scope.md R14) fixes the sign only of
an exact zero. -/
opaque Config.underflowSign : TransformDir → List Word → Nat → Bool

/-- FREE VALUE (log entry 7). What the register or array element at a word address holds after block reset where
10_state.md R51 says "unspecified". -/
opaque Config.resetWord : Nat → Word

end Sys2Proof
end

