-- ==== Sys2Proof/Machine/Binary32.lean ====
section
/-! DEFINITION. IEEE 754 binary32 arithmetic as 00_scope.md R10, R11 and R14 fix it: round to nearest, ties to even, one
rounding per operation, subnormals kept, no flags, a NaN result is the pattern `NAN_OUT`.

Every finite binary32 value is an integer multiple of `2^-149`; `F32.units` is that integer.  An operation is computed
exactly on these integers and narrowed once, by `F32.roundMag`. -/

namespace Sys2Proof

/-- `+0.0`. -/
def F32.posZero : Word := 0x00000000#32

/-- `-0.0`. -/
def F32.negZero : Word := 0x80000000#32

/-- `1.0`. -/
def F32.one : Word := 0x3F800000#32

/-- Bit 31, the sign (R10). -/
def F32.sign (w : Word) : Bool := w.toNat.testBit 31

/-- Bits 30:0, the magnitude code: it orders the magnitudes of all values that are not NaN. -/
def F32.mag (w : Word) : Nat := w.toNat % 2 ^ 31

/-- Bits 30:23, the biased exponent (R10). -/
def F32.expo (w : Word) : Nat := F32.mag w / 2 ^ 23

/-- Bits 22:0, the fraction (R10). -/
def F32.frac (w : Word) : Nat := w.toNat % 2 ^ 23

/-- The magnitude code of infinity. -/
def F32.infMag : Nat := 0x7F800000

def F32.isNaN (w : Word) : Bool := decide (F32.infMag < F32.mag w)

def F32.isInf (w : Word) : Bool := F32.mag w == F32.infMag

def F32.isFinite (w : Word) : Bool := decide (F32.mag w < F32.infMag)

def F32.isZero (w : Word) : Bool := F32.mag w == 0

/-- A quiet NaN pattern: exponent all ones, fraction bit 22 set (R8, `NAN_OUT`). -/
def F32.isQuietNaN (w : Word) : Bool := F32.expo w == 255 && decide (2 ^ 22 ≤ F32.frac w)

/-- The word with sign `neg` and magnitude code `mag`. -/
def F32.pack (neg : Bool) (mag : Nat) : Word :=
  BitVec.ofNat 32 ((if neg then 2 ^ 31 else 0) + mag)

/-- The magnitude a finite code denotes, in units of `2^-149`. -/
def F32.codeUnits (code : Nat) : Nat :=
  if code < 2 ^ 23 then code else (2 ^ 23 + code % 2 ^ 23) * 2 ^ (code / 2 ^ 23 - 1)

/-- The real number a finite word denotes, in units of `2^-149`. -/
def F32.units (w : Word) : Int :=
  if F32.sign w then -(F32.codeUnits (F32.mag w) : Int) else (F32.codeUnits (F32.mag w) : Int)

/-- The magnitude code nearest `num / den` units, ties to the even code; infinity when the magnitude overflows
(R10, R14 `rnd32`). -/
def F32.roundMag (num den : Nat) : Nat :=
  let n := num / den
  let q := if n < 2 ^ 24 then 0 else Nat.log2 n - 23
  let d := den * 2 ^ q
  let k := num / d
  let r := num % d
  let k' := if 2 * r < d ∨ (2 * r = d ∧ k % 2 = 0) then k else k + 1
  min F32.infMag (q * 2 ^ 23 + k')

/-- The position of a non-NaN value in the order of the reals and infinities; both zeros give 0. -/
def F32.key (w : Word) : Int :=
  if F32.sign w then -(F32.mag w : Int) else (F32.mag w : Int)

/-- IEEE equality: false for NaN, true for `+0.0` and `-0.0`. -/
def F32.eq (a b : Word) : Bool := !F32.isNaN a && !F32.isNaN b && F32.key a == F32.key b

/-- IEEE less-than: false when an operand is NaN. -/
def F32.lt (a b : Word) : Bool := !F32.isNaN a && !F32.isNaN b && decide (F32.key a < F32.key b)

/-- IEEE less-or-equal: false when an operand is NaN. -/
def F32.le (a b : Word) : Bool := !F32.isNaN a && !F32.isNaN b && decide (F32.key a ≤ F32.key b)

/-- `-x`: the sign bit inverted, an exact operation (42_distortion.md R180). -/
def F32.neg (w : Word) : Word := w ^^^ 0x80000000#32

/-- `a + b` (R10); `nan` is `NAN_OUT`. -/
def F32.add (nan a b : Word) : Word :=
  if F32.isNaN a || F32.isNaN b then nan
  else if F32.isInf a then (if F32.isInf b && F32.sign a != F32.sign b then nan else a)
  else if F32.isInf b then b
  else
    let z := F32.units a + F32.units b
    if z = 0 then (if F32.sign a && F32.sign b then F32.negZero else F32.posZero)
    else F32.pack (decide (z < 0)) (F32.roundMag z.natAbs 1)

/-- `a - b` (R10). -/
def F32.sub (nan a b : Word) : Word := F32.add nan a (F32.neg b)

/-- `a * b` (R10). -/
def F32.mul (nan a b : Word) : Word :=
  let s := F32.sign a != F32.sign b
  if F32.isNaN a || F32.isNaN b then nan
  else if F32.isInf a || F32.isInf b then
    (if F32.isZero a || F32.isZero b then nan else F32.pack s F32.infMag)
  else F32.pack s (F32.roundMag (F32.codeUnits (F32.mag a) * F32.codeUnits (F32.mag b)) (2 ^ 149))

/-- `a / b` (R10). -/
def F32.div (nan a b : Word) : Word :=
  let s := F32.sign a != F32.sign b
  if F32.isNaN a || F32.isNaN b then nan
  else if F32.isInf a then (if F32.isInf b then nan else F32.pack s F32.infMag)
  else if F32.isInf b then F32.pack s 0
  else if F32.isZero b then (if F32.isZero a then nan else F32.pack s F32.infMag)
  else F32.pack s (F32.roundMag (F32.codeUnits (F32.mag a) * 2 ^ 149) (F32.codeUnits (F32.mag b)))

/-- `round_half_away` (R14): the nearest integer, ties away from zero, with the operand's sign; the operand itself when
its magnitude is at least `2^23` or it is not finite. -/
def F32.roundHalfAway (t : Word) : Word :=
  if F32.mag t < 0x4B000000 then
    F32.pack (F32.sign t) (F32.roundMag ((2 * F32.codeUnits (F32.mag t) + 2 ^ 149) / 2 ^ 150 * 2 ^ 149) 1)
  else t

/-- `0 < x ≤ 1`, the range in which the curves' properties hold (42_distortion.md R182, R186). -/
def F32.inUnit (x : Word) : Bool := F32.lt F32.posZero x && F32.le x F32.one

end Sys2Proof
end

