-- ==== Sys2Proof/Machine/Curves.lean ====
section
/-! DEFINITION. The control curves of the distortion stage as build parameters: their values inside `(0, 1]` and the rules a
legal curve meets (42_distortion.md R182, R185, R186). -/

namespace Sys2Proof.Machine

/-- The pieces of a curve. -/
def curvePieces (cs : Curves) : Curve → List (Word × Word)
  | .b => cs.b
  | .g => cs.g
  | .q => cs.q
  | .gz => cs.gz

/-- The value of a list of pieces at `x`: that of the first piece with `x ≤ hi`.  A list that conforms has one for every
`x` in `(0, 1]`. -/
def curveValue : List (Word × Word) → Word → Word
  | [], _ => F32.one
  | (hi, v) :: rest, x => if F32.le x hi then v else curveValue rest x

/-- The curve the block is built with, at a control value inside `(0, 1]`. -/
def curveIn (cfg : Config) (k : Curve) (x : Word) : Word := curveValue (curvePieces cfg.curves k) x

/-- `Q_MIN = Q(1.0)` (R186, item 4). -/
def qMin (cfg : Config) : Word := curveIn cfg .q F32.one

/-- The limits on a curve's value: finite, `G` at least 1 (R182, item 2), the others positive (R182 and R186, item 1, and
R185). -/
def curveConforms : Curve → Word → Bool
  | .b, v => F32.isFinite v && F32.lt F32.posZero v
  | .g, v => F32.isFinite v && F32.le F32.one v
  | .q, v => F32.isFinite v && F32.lt F32.posZero v
  | .gz, v => F32.isFinite v && F32.lt F32.posZero v

/-- Whether `v` at a control value and `v'` at a larger one are in the curve's order: `B` and `Q` non-increasing, `G`
non-decreasing (R182, items 3 and 4, R186, item 2); R185 sets no order on `GZ`. -/
def curveOrder : Curve → Word → Word → Bool
  | .b, v, v' => F32.le v' v
  | .g, v, v' => F32.le v v'
  | .q, v, v' => F32.le v' v
  | .gz, _, _ => true

/-- A legal list of pieces: limits inside `(0, 1]`, rising, the last one 1; values within the limits and in the order of
R182, R185 and R186.  R182, item 5 and R186, item 3 add nothing (log entry 3). -/
def piecesConform (k : Curve) (ps : List (Word × Word)) : Bool :=
  ps.all (fun p => F32.inUnit p.1 && curveConforms k p.2)
    && decide (ps.Pairwise fun p p' => F32.lt p.1 p'.1 = true ∧ curveOrder k p.2 p'.2 = true)
    && (ps.getLast?.map Prod.fst == some F32.one)

/-- The curves are legal (00_scope.md R8). -/
def curvesConform (cs : Curves) : Bool :=
  piecesConform .b cs.b && piecesConform .g cs.g && piecesConform .q cs.q && piecesConform .gz cs.gz

/-- A legal curve about which nothing else is known: the free value, or, where that is not legal, the constant 1.  Every
legal list of pieces is the reading of some free value (log entry 3). -/
def openCurve (k : Curve) : List (Word × Word) :=
  if piecesConform k (Config.freeCurve k) then Config.freeCurve k else [(F32.one, F32.one)]

/-- The curves of a block of which the spec says no more than R182, R185 and R186. -/
def openCurves : Curves := ⟨openCurve .b, openCurve .g, openCurve .q, openCurve .gz⟩

end Sys2Proof.Machine
end

