-- ==== Sys2Proof/Machine/Window.lean ====
section
/-! DEFINITION. The default window table `W_DOC` (41_overlap_add.md R150) and the default configuration (00_scope.md R8).

The sine is evaluated in fixed point with 128 fraction bits from its Taylor series; the error is below `64·2^-128`
(`Window.sinFix_error`), and for every legal `M` no element of `W_DOC` but the exact zero lies that close to a rounding
boundary (log entry 9). -/

namespace Sys2Proof

/-- `π` rounded to 128 fraction bits. -/
def Window.pi128 : Nat := 1069028584064966747859680373161870783301

/-- The alternating tail `t_k - t_{k+1} + t_{k+2} - …` of the sine series, `fuel` terms, each in units of `2^-128`;
`x2` is the square of the angle in units of `2^-256`. -/
def Window.sinTail (x2 : Nat) : (fuel k t : Nat) → Int
  | 0, _, _ => 0
  | fuel + 1, k, t => (t : Int) - Window.sinTail x2 fuel (k + 1) (t * x2 / 2 ^ 256 / ((2 * k + 2) * (2 * k + 3)))

/-- `sin(π·i / d)` in units of `2^-128`, for `2·i < d`. -/
def Window.sinFix (i d : Nat) : Nat :=
  let x := Window.pi128 * i / d
  (Window.sinTail (x * x) 24 0 x).toNat

/-- `W_DOC[i] = rnd32(sin(π·i / (2M+1))^2)` (R150). -/
def Window.wDocElem (m i : Nat) : Word :=
  let s := Window.sinFix i (2 * m + 1)
  F32.pack false (F32.roundMag (s * s * 2 ^ 149) (2 ^ 256))

/-- The table `W_DOC` for transform length `m` (R150). -/
def Window.wDoc (m : Nat) : List Word := (List.range m).map (Window.wDocElem m)

/-- The configuration with R8's default for every parameter but `N`, `C` and the curves, which have none: `REF_CR`, `W_DOC`,
the Crush compensation off with threshold 0.85, `REP = N/2` and `NAN_OUT = 0x7FC00000`. -/
def Config.standard (n c : Nat) (curves : Curves) : Config where
  n := n
  c := c
  w := Window.wDoc (2 * n)
  transform := .refCr
  curves := curves
  crushCompEn := false
  tz := 0x3F59999A#32
  rep := n / 2
  nanOut := 0x7FC00000#32

/-- The default configuration of R8: `N = 64`, `C = 2`, open curves. -/
def Config.reference : Config := Config.standard 64 2 Machine.openCurves

end Sys2Proof
end

