-- ==== Sys2Proof/Machine/State.lean ====
section
/-! DEFINITION. The state of the block (10_state.md), the reasons a step can stop, and the state after block reset
(10_state.md R51, 70_reset_and_hazards.md R290).

Everything the block holds is here as plain data.  Three fields are the model's own and say so: `pending` and `replies`
are the host's side of the port, and `draws` numbers the free values a run has used. -/

namespace Sys2Proof.Machine

/-- The status codes of 60_exceptions.md R261; codes 6 to 15 are never produced. -/
inductive StatusCode where
  /-- 0, the command completed. -/
  | normal
  /-- 1, `CHCOUNT = 0` (`PROC_ALL`). -/
  | errNoChannels
  /-- 2, `0 < CHCOUNT < C` (`PROC_ALL`). -/
  | errFewerChannels
  /-- 3, `LEN ≠ N` (`MDCT`, `IMDCT`, `PROC_BLOCK`, `PROC_ALL`). -/
  | errBlockSize
  /-- 4, `CH ≥ C` (`MDCT`, `IMDCT`, `PROC_BLOCK`). -/
  | errBadChannel
  /-- 5, the word is illegal (any word written to `CMD`). -/
  | errIllegalCmd
deriving DecidableEq, Repr

/-- The Parameter Frame: five arrays of `N` elements, one set for all channels (10_state.md R38). -/
structure Frame where
  drive : List Word
  crunch : List Word
  crush : List Word
  mix : List Word
  gain : List Word
deriving DecidableEq, Repr

/-- What channel processor `c` owns: the block `IO[c]` (10_state.md R41) and the Channel State `HIST[c]`, `TAIL[c]`,
`DRY[c]` (R42 to R45), each of `N` elements. -/
structure Channel where
  io : List Word
  hist : List Word
  tail : List Word
  dry : List Word
deriving DecidableEq, Repr

/-- One whole-word access at the host port (20_memory.md R76, R77). -/
inductive PortOp where
  /-- `MemRead(a, 4)`. -/
  | read (a : WordAddr)
  /-- `MemWrite(a, 4, v)`. -/
  | write (a : WordAddr) (v : Word)
deriving DecidableEq, Repr

/-- What the host presents: a word access at the port, or an access through a byte-addressed bus adapter
(20_memory.md R75). -/
inductive Access where
  | port (op : PortOp)
  /-- A read of `nbytes` bytes at byte address `b` through the adapter. -/
  | adapterRead (b : ByteAddr) (nbytes : Nat)
  /-- A write of `bytes`, the first at byte address `b`, through the adapter. -/
  | adapterWrite (b : ByteAddr) (bytes : List Byte)
deriving DecidableEq, Repr

/-- What the port returns to a read. -/
inductive Reply where
  /-- The word, to a port read (20_memory.md R76). -/
  | word (v : Word)
  /-- The bytes, in address order, to a read through the byte adapter (R75). -/
  | bytes (l : List Byte)
deriving DecidableEq, Repr

/-- The state of the block, its build parameters, and the host's side of the port. -/
structure State where
  /-- The build parameters (00_scope.md R8); no step changes them. -/
  cfg : Config
  /-- `CMD` (10_state.md R32). -/
  cmd : Word
  /-- `STATUS.CODE` (R33). -/
  code : StatusCode
  /-- `STATUS.STICKY` (R33). -/
  sticky : Bool
  /-- `CRUNCH_VAL` (R36). -/
  crunchVal : Word
  /-- `CRUSH_VAL` (R37). -/
  crushVal : Word
  /-- `DRIVE`, `CRUNCH`, `CRUSH`, `MIX`, `GAIN` (R38). -/
  frame : Frame
  /-- `VEC`, `M` elements (R40). -/
  vec : List Word
  /-- `IO[c]`, `HIST[c]`, `TAIL[c]`, `DRY[c]` for every channel `c` (R41 to R45). -/
  channels : List Channel
  /-- The model's own: the host accesses not yet performed, the next one first (20_memory.md R80, R81). -/
  pending : List Access
  /-- The model's own: what has been returned to the host's reads, oldest first (20_memory.md R75, R76). -/
  replies : List Reply
  /-- The model's own: how many numbered free values the run has used (60_exceptions.md R269). -/
  draws : Nat
deriving DecidableEq, Repr

/-- The block never faults: every command completes, and no access faults (60_exceptions.md R280, 20_memory.md R86).
The type has no constructor. -/
inductive Fault where
deriving DecidableEq, Repr

/-- The reasons a step is refused. -/
inductive Refusal where
  /-- Raised by an arm of `exec` for a command without a meaning; no arm raises it.  Safe. -/
  | notModelled (mnemonic : String)
  /-- Raised by `step` for an access through the byte adapter that is not exactly one whole, 4-byte-aligned word:
  "The block defines no meaning for a narrower or misaligned access. A model refuses it" (20_memory.md R75).  Safe. -/
  | partialWordAccess
deriving DecidableEq, Repr

/-- The words at the `len` word addresses from `base` on after block reset, where R51 says "unspecified": free values
(log entry 7). -/
def unspecified (base len : Nat) : List Word := (List.range len).map fun i => Config.resetWord (base + i)

/-- `len` elements of `+0.0`. -/
def zeros (len : Nat) : List Word := List.replicate len F32.posZero

/-- Channel `c` after block reset (R51). -/
def Channel.reset (cfg : Config) (c : Nat) : Channel where
  io := unspecified (0x8000 + 0x1000 * c) cfg.n
  hist := zeros cfg.n
  tail := zeros cfg.n
  dry := zeros cfg.n

/-- The block built with configuration `cfg`, right after block reset (R51, R290), with no host access pending. -/
def State.resetOf (cfg : Config) : State where
  cfg := cfg
  cmd := 0#32
  code := .normal
  sticky := false
  crunchVal := Config.resetWord 3
  crushVal := Config.resetWord 4
  frame :=
    { drive := unspecified 0x1000 cfg.n
      crunch := unspecified 0x2000 cfg.n
      crush := unspecified 0x3000 cfg.n
      mix := unspecified 0x4000 cfg.n
      gain := unspecified 0x5000 cfg.n }
  vec := unspecified 0x6000 cfg.m
  channels := (List.range cfg.c).map (Channel.reset cfg)
  pending := []
  replies := []
  draws := 0

/-- The default block (`N = 64`, `C = 2`, 00_scope.md R8) right after block reset. -/
def State.reset : State := State.resetOf Config.reference

end Sys2Proof.Machine
end

