-- ==== Sys2Proof/Machine/Flags.lean ====
section
/-! DEFINITION. The flags of the block are `STATUS.CODE` and `STATUS.STICKY` and nothing else (10_state.md R50). -/

namespace Sys2Proof.Machine

/-- The number of a status code (60_exceptions.md R261). -/
def StatusCode.toNat : StatusCode → Nat
  | .normal => 0
  | .errNoChannels => 1
  | .errFewerChannels => 2
  | .errBlockSize => 3
  | .errBadChannel => 4
  | .errIllegalCmd => 5

/-- The word a read of `STATUS` returns: `CODE` in bits 3:0, `STICKY` in bit 8, the reserved bits 0 (10_state.md R33). -/
def statusWord (s : State) : Word :=
  BitVec.ofNat 32 ((if s.sticky then 2 ^ 8 else 0) + s.code.toNat)

/-- A write of `v` to `STATUS`: bit 8 = 1 clears `STICKY`, every other bit is ignored (R35). -/
def writeStatus (v : Word) (s : State) : State :=
  if v.toNat.testBit 8 then { s with sticky := false } else s

/-- `STATUS.CODE <- NORMAL`, the last line of every command that completes; `STICKY` is unchanged (R34). -/
def complete (s : State) : State := { s with code := .normal }

end Sys2Proof.Machine
end

