-- ==== Sys2Proof/Machine/Operands.lean ====
section
/-! DEFINITION. The operands of the commands: channels, the representative control values, and the checks of the
operand fields (60_exceptions.md R263). -/

namespace Sys2Proof.Machine

/-- The channel a state without channel `c` would have; no command of a state that meets `State.wf` reads it. -/
def Channel.absent : Channel := ⟨[], [], [], []⟩

/-- Channel `c` (10_state.md R42). -/
def channelAt (s : State) (c : Nat) : Channel := s.channels.getD c Channel.absent

/-- Replace channel `c`. -/
def setChannel (c : Nat) (ch : Channel) (s : State) : State :=
  { s with channels := s.channels.set c ch }

/-- The representative crunch value `cr = CRUNCH[REP]` (43_channel_pipeline.md R221). -/
def Frame.cr (cfg : Config) (f : Frame) : Word := f.crunch.getD cfg.rep F32.posZero

/-- The representative crush value `cs = CRUSH[REP]` (43_channel_pipeline.md R221). -/
def Frame.cs (cfg : Config) (f : Frame) : Word := f.crush.getD cfg.rep F32.posZero

/-- The checks of `MDCT`, `IMDCT` and `PROC_BLOCK` after the word is legal, in order: `CH < C`, `LEN = N`
(60_exceptions.md R263). -/
def blockError (cfg : Config) (ch len : Nat) : Option StatusCode :=
  if ¬ ch < cfg.c then some .errBadChannel
  else if len ≠ cfg.n then some .errBlockSize
  else none

/-- The checks of `PROC_ALL` after the word is legal, in order: `CHCOUNT ≠ 0`, `CHCOUNT ≥ C`, `LEN = N`
(60_exceptions.md R263). -/
def callError (cfg : Config) (count len : Nat) : Option StatusCode :=
  if count = 0 then some .errNoChannels
  else if count < cfg.c then some .errFewerChannels
  else if len ≠ cfg.n then some .errBlockSize
  else none

end Sys2Proof.Machine
end

