-- ==== Sys2Proof/Machine/Ops.lean ====
section
/-! DEFINITION. The named operations over the host port space and the registers (20_memory.md), and ending a command with
an error (60_exceptions.md R264). -/

namespace Sys2Proof.Machine

/-- `raise E`: `STATUS.CODE <- E`, `STATUS.STICKY <- 1`, the command ends (60_exceptions.md R264).  Nothing is saved and
there is no return from it (R270). -/
def raise (e : StatusCode) (s : State) : State := { s with code := e, sticky := true }

/-- Run `body` when the operand check passed, otherwise end the command with the check's error (R263 to R265). -/
def checked (check : Option StatusCode) (body : State → State) (s : State) : State :=
  match check with
  | some e => raise e s
  | none => complete (body s)

/-- The five arrays of the Parameter Frame. -/
inductive FrameArray where
  | drive
  | crunch
  | crush
  | mix
  | gain
deriving DecidableEq, Repr

/-- An array of the Parameter Frame. -/
def Frame.get (f : Frame) : FrameArray → List Word
  | .drive => f.drive
  | .crunch => f.crunch
  | .crush => f.crush
  | .mix => f.mix
  | .gain => f.gain

/-- Replace an array of the Parameter Frame. -/
def Frame.put (f : Frame) : FrameArray → List Word → Frame
  | .drive, l => { f with drive := l }
  | .crunch, l => { f with crunch := l }
  | .crush, l => { f with crush := l }
  | .mix, l => { f with mix := l }
  | .gain, l => { f with gain := l }

/-- What a word address selects (20_memory.md R72). -/
inductive Target where
  | cfg
  | cmd
  | status
  | crunchVal
  | crushVal
  | frame (k : FrameArray) (i : Nat)
  | vec (j : Nat)
  | io (c i : Nat)
  /-- A reserved or unmapped address (R73). -/
  | unmapped
deriving DecidableEq, Repr

/-- `element` when the offset is inside the array's valid range, else unmapped (R72). -/
def Target.within (off len : Nat) (element : Target) : Target :=
  if off < len then element else .unmapped

/-- The address map: `region = a[15:12]`, `offset = a[11:0]` (R72). -/
def locate (cfg : Config) (a : WordAddr) : Target :=
  let off := a.toNat % 2 ^ 12
  match a.toNat / 2 ^ 12 with
  | 0 =>
    match off with
    | 0 => .cfg
    | 1 => .cmd
    | 2 => .status
    | 3 => .crunchVal
    | 4 => .crushVal
    | _ => .unmapped
  | 1 => .within off cfg.n (.frame .drive off)
  | 2 => .within off cfg.n (.frame .crunch off)
  | 3 => .within off cfg.n (.frame .crush off)
  | 4 => .within off cfg.n (.frame .mix off)
  | 5 => .within off cfg.n (.frame .gain off)
  | 6 => .within off cfg.m (.vec off)
  | 8 => .within off cfg.n (.io 0 off)
  | 9 => if cfg.c = 2 then .within off cfg.n (.io 1 off) else .unmapped
  | _ => .unmapped

/-- The word address of `CMD` (R72). -/
def cmdAddr : WordAddr := 0x0001#16

/-- `CFG = {12'b0, C[3:0], N[15:0]}` (10_state.md R31, R51). -/
def cfgWord (cfg : Config) : Word := BitVec.ofNat 32 (cfg.c % 2 ^ 4 * 2 ^ 16 + cfg.n % 2 ^ 16)

/-- `MemRead(a, 4)`: the register or element at `a`, 0 at a reserved or unmapped address (20_memory.md R73, R76). -/
def portRead (s : State) (a : WordAddr) : Word :=
  match locate s.cfg a with
  | .cfg => cfgWord s.cfg
  | .cmd => s.cmd
  | .status => statusWord s
  | .crunchVal => s.crunchVal
  | .crushVal => s.crushVal
  | .frame k i => (s.frame.get k).getD i 0#32
  | .vec j => s.vec.getD j 0#32
  | .io c i => (channelAt s c).io.getD i 0#32
  | .unmapped => 0#32

/-- The storing part of `MemWrite(a, 4, v)`: `v` goes into the register or element unchanged (R74); `STATUS` is
write-one-to-clear; `CFG`, reserved and unmapped addresses ignore the write (20_memory.md R73, R77).  At `CMD` this is
the latching of the word; running it is `hostWrite`. -/
def portStore (a : WordAddr) (v : Word) (s : State) : State :=
  match locate s.cfg a with
  | .cfg => s
  | .cmd => { s with cmd := v }
  | .status => writeStatus v s
  | .crunchVal => { s with crunchVal := v }
  | .crushVal => { s with crushVal := v }
  | .frame k i => { s with frame := s.frame.put k ((s.frame.get k).set i v) }
  | .vec j => { s with vec := s.vec.set j v }
  | .io c i =>
    let ch := channelAt s c
    setChannel c { ch with io := ch.io.set i v } s
  | .unmapped => s

/-- A host read: the port returns the word, and no state of the block changes (R76, R79). -/
def hostRead (a : WordAddr) (s : State) : State :=
  { s with replies := s.replies ++ [.word (portRead s a)] }

/-- Take the next host access from the port (20_memory.md R81): the access, and the state in which it is performed. -/
def takeAccess (s : State) : Option (Access × State) :=
  match s.pending with
  | [] => none
  | x :: rest => some (x, { s with pending := rest })

/-- The word of four byte lanes, lane `k` in bits `8k+7 : 8k` (20_memory.md R75). -/
def lanes (b0 b1 b2 b3 : Byte) : Word := b3 ++ b2 ++ b1 ++ b0

/-- The word a list of four bytes, in address order, stands for (R75). -/
def ofLanes (bytes : List Byte) : Word :=
  lanes (bytes.getD 0 0) (bytes.getD 1 0) (bytes.getD 2 0) (bytes.getD 3 0)

/-- The four bytes of a word in address order: byte `k` is bits `8k+7 : 8k` (R75). -/
def toLanes (v : Word) : List Byte :=
  [v.extractLsb' 0 8, v.extractLsb' 8 8, v.extractLsb' 16 8, v.extractLsb' 24 8]

/-- The word address an adapter access of `nbytes` bytes at byte address `b` presents to the port: only a whole word at
byte address `4·a` has one (R75); that a burst of several words has none is the model's choice (log entry 15). -/
def adapterWord (b : ByteAddr) (nbytes : Nat) : Option WordAddr :=
  if b.toNat % 4 = 0 ∧ nbytes = 4 then some (BitVec.ofNat 16 (b.toNat / 4)) else none

/-- A read through the adapter: the host receives the word's byte lanes, and no state of the block changes (R75, R79). -/
def adapterReply (a : WordAddr) (s : State) : State :=
  { s with replies := s.replies ++ [.bytes (toLanes (portRead s a))] }

end Sys2Proof.Machine
end

