-- ==== Sys2Proof/Machine/Distortion.lean ====
section
/-! DEFINITION. The coefficient distortion stage (42_distortion.md) and the commands `CRUNCH`, `CRUSH`, `DISTORT`. -/

namespace Sys2Proof.Machine

/-- The value of a curve at a control value: the curve the block is built with inside `(0, 1]`; outside, the free draw
numbered `d` (R182, R186, 60_exceptions.md R269). -/
def curveAt (cfg : Config) (k : Curve) (x : Word) (d : Nat) : Word :=
  if F32.inUnit x then curveIn cfg k x else Config.curveDraw k x d

/-- The draw counter after a stage ran with control `x`: one number is used when the stage evaluates its curves outside
`(0, 1]`, none when it is the identity or stays inside. -/
def stageDraws (x : Word) (d : Nat) : Nat :=
  if F32.eq x F32.posZero || F32.inUnit x then d else d + 1

/-- `clamp(c, lo, hi)`: two IEEE comparisons, below first; the selected operand is returned unchanged (R181). -/
def clamp (c lo hi : Word) : Word :=
  if F32.lt c lo then lo else if F32.lt hi c then hi else c

/-- The active part of `Crunch` for bound `b` and gain `g` (R180). -/
def crunchWith (nan b g : Word) (xs : List Word) : List Word :=
  xs.map fun x => F32.mul nan (clamp x (F32.neg b) b) g

/-- `Crunch(X, cr)`, the identity at `cr = ±0.0` (R180). -/
def crunchStage (cfg : Config) (cr : Word) (d : Nat) (xs : List Word) : List Word :=
  if F32.eq cr F32.posZero then xs
  else crunchWith cfg.nanOut (curveAt cfg .b cr d) (curveAt cfg .g cr d) xs

/-- `fl(round_half_away(fl(x * q)) / q)`, one coefficient of `Crush` (R184). -/
def quantize (nan q x : Word) : Word := F32.div nan (F32.roundHalfAway (F32.mul nan x q)) q

/-- `Crush(X, cs)`, the identity at `cs = ±0.0`; the compensation gain is applied when it is enabled and `cs > TZ`
(R184, R185). -/
def crushStage (cfg : Config) (cs : Word) (d : Nat) (xs : List Word) : List Word :=
  if F32.eq cs F32.posZero then xs
  else
    let ys := xs.map (quantize cfg.nanOut (curveAt cfg .q cs d))
    if cfg.crushCompEn && F32.lt cfg.tz cs then
      ys.map fun y => F32.mul cfg.nanOut y (curveAt cfg .gz cs d)
    else ys

/-- `Distort(X, cr, cs) = Crush(Crunch(X, cr), cs)` (R188). -/
def distortStage (cfg : Config) (cr cs : Word) (d : Nat) (xs : List Word) : List Word :=
  crushStage cfg cs (stageDraws cr d) (crunchStage cfg cr d xs)

/-- The draw counter after both stages. -/
def distortDraws (cr cs : Word) (d : Nat) : Nat := stageDraws cs (stageDraws cr d)

/-- `CRUNCH`: soft-clip `VEC` with `CRUNCH_VAL` (R190). -/
def execCrunch (s : State) : Host.Outcome State Fault Refusal :=
  .next (complete
    { s with
      vec := crunchStage s.cfg s.crunchVal s.draws s.vec
      draws := stageDraws s.crunchVal s.draws })

/-- `CRUSH`: quantize `VEC` with `CRUSH_VAL` (R191). -/
def execCrush (s : State) : Host.Outcome State Fault Refusal :=
  .next (complete
    { s with
      vec := crushStage s.cfg s.crushVal s.draws s.vec
      draws := stageDraws s.crushVal s.draws })

/-- `DISTORT`: both stages, Crunch then Crush, on `VEC` (R192). -/
def execDistort (s : State) : Host.Outcome State Fault Refusal :=
  .next (complete
    { s with
      vec := distortStage s.cfg s.crunchVal s.crushVal s.draws s.vec
      draws := distortDraws s.crunchVal s.crushVal s.draws })

end Sys2Proof.Machine
end

