-- ==== Sys2Proof/Machine/Cosine.lean ====
section
/-! DEFINITION. Exact arithmetic with the cosines of the transform engine (40_transform.md R130, R131).

`M = 2^m`, so every `cos(π·j / (2M))` lies in the field obtained from the rationals by adjoining
`α_1 = √2, α_2 = √(2 + α_1), …, α_m`, where `α_i = 2·cos(π / 2^(i+1))`.  `Tower m` holds the integral combinations
`a + b·α_m`, and `Tower.sgn` decides the sign of one exactly, by squaring.  `Cosine.table` is a certified enclosure of
the same cosines in fixed point, which decides almost every rounding without the exact sign. -/

namespace Sys2Proof

/-- An element of level `m`: an integer, or `a + b·α_m` with `a` and `b` of level `m - 1`. -/
def Tower : Nat → Type
  | 0 => Int
  | m + 1 => Tower m × Tower m

def Tower.neg : (m : Nat) → Tower m → Tower m
  | 0, a => Int.neg a
  | m + 1, (a, b) => (Tower.neg m a, Tower.neg m b)

def Tower.add : (m : Nat) → Tower m → Tower m → Tower m
  | 0, a, b => Int.add a b
  | m + 1, (a, b), (c, d) => (Tower.add m a c, Tower.add m b d)

/-- The product with `α_{m+1}^2 = 2 + α_m` (`α_0 = 0`). -/
def Tower.mulAlphaSq : (m : Nat) → Tower m → Tower m
  | 0, a => Int.mul 2 a
  | m + 1, (u, v) =>
    (Tower.add m (Tower.add m u u) (Tower.mulAlphaSq m v), Tower.add m u (Tower.add m v v))

def Tower.mul : (m : Nat) → Tower m → Tower m → Tower m
  | 0, a, b => Int.mul a b
  | m + 1, (a, b), (c, d) =>
    (Tower.add m (Tower.mul m a c) (Tower.mulAlphaSq m (Tower.mul m b d)),
     Tower.add m (Tower.mul m a d) (Tower.mul m b c))

/-- The sign (-1, 0 or 1) of the real number an element denotes: where `a` and `b` have opposite signs, the sign of
`a + b·α` is that of `a` times that of `a² - b²·α²`. -/
def Tower.sgn : (m : Nat) → Tower m → Int
  | 0, a => Int.sign a
  | m + 1, (a, b) =>
    let sa := Tower.sgn m a
    let sb := Tower.sgn m b
    if sa = 0 then sb
    else if sb = 0 ∨ sb = sa then sa
    else sa * Tower.sgn m (Tower.add m (Tower.mul m a a) (Tower.neg m (Tower.mulAlphaSq m (Tower.mul m b b))))

/-- The elements at even positions. -/
def Cosine.evens : List Int → List Int
  | [] => []
  | [a] => [a]
  | a :: _ :: as => a :: Cosine.evens as

/-- The elements at odd positions. -/
def Cosine.odds : List Int → List Int
  | [] => []
  | [_] => []
  | _ :: b :: as => b :: Cosine.odds as

/-- Entry `i` is `o_i - o_{i+1} + o_{i+2} - …`. -/
def Cosine.altSuffix : List Int → List Int
  | [] => []
  | o :: os => (o - (Cosine.altSuffix os).headD 0) :: Cosine.altSuffix os

/-- The element `c_0 + Σ_{j ≥ 1} c_j·2cos(jθ)`, `θ = π / 2^(m+1)`, of a list of `2^m` coefficients: the even positions
are a combination of multiples of `2θ`, and `2cos((2i+1)θ) = α_m·(2cos(2iθ) - 2cos(2(i-1)θ) + … ± 1)`. -/
def Cosine.toTower : (m : Nat) → List Int → Tower m
  | 0, cs => cs.headD 0
  | m + 1, cs => (Cosine.toTower m (Cosine.evens cs), Cosine.toTower m (Cosine.altSuffix (Cosine.odds cs)))

/-- Add `x·cos(π·j / (2M))` to the combination `Σ_{i < M} c_i·cos(π·i / (2M))`: the cosine is even, has period `4M`, is
0 at `j = M` and changes sign under `j ↦ 2M - j`. -/
def Cosine.addTerm (m j : Nat) (x : Int) (cs : List Int) : List Int :=
  let r := j % (4 * m)
  let r := if 2 * m < r then 4 * m - r else r
  if r < m then cs.modify r (· + x)
  else if r = m then cs
  else cs.modify (2 * m - r) (· - x)

/-- Fraction bits of the enclosures. -/
def Cosine.precision : Nat := 128

/-- The value 1 in units of `2^-precision`. -/
def Cosine.one : Nat := 2 ^ Cosine.precision

/-- Newton's iteration for the square root of `n`; from a start that is not below the root it stays at or above the
root's floor. -/
def Cosine.newton (n : Nat) : (fuel x : Nat) → Nat
  | 0, x => x
  | fuel + 1, x => Cosine.newton n fuel ((x + n / x) / 2)

/-- An upper bound of `√n`. -/
def Cosine.sqrtHi (n : Nat) : Nat := Cosine.newton n 10 (2 ^ (Nat.log2 n / 2 + 1)) + 1

/-- A lower bound of `√n`. -/
def Cosine.sqrtLo (n : Nat) : Nat := n / Cosine.sqrtHi n

/-- The enclosure of `cos θ = √((1 + cos 2θ) / 2)` from one of `1 + cos 2θ`. -/
def Cosine.halfAngle (e : Nat × Nat) : Nat × Nat :=
  (Cosine.sqrtLo (e.1 * (Cosine.one / 2)), Cosine.sqrtHi (e.2 * (Cosine.one / 2)))

/-- The enclosure of `1 + cos(jθ)`, `θ = π / 2^(m+1)`, `j < 2^(m+1)`, from a table of the first `2^m` cosines. -/
def Cosine.onePlus (m : Nat) (t : List (Nat × Nat)) (j : Nat) : Nat × Nat :=
  if j < 2 ^ m then
    let e := t.getD j (0, 0)
    (Cosine.one + e.1, Cosine.one + e.2)
  else if j = 2 ^ m then (Cosine.one, Cosine.one)
  else
    let e := t.getD (2 ^ (m + 1) - j) (0, 0)
    (Cosine.one - e.2, Cosine.one - e.1)

/-- Two lists of one length, element by element in turn. -/
def Cosine.interleave : List (Nat × Nat) → List (Nat × Nat) → List (Nat × Nat)
  | [], bs => bs
  | a :: as, bs => match bs with
    | [] => a :: as
    | b :: bs => a :: b :: Cosine.interleave as bs

/-- Enclosures `(lo, hi)` of `cos(jθ)`, `θ = π / 2^(m+1)`, `j < 2^m`, in units of `2^-precision`. -/
def Cosine.table : Nat → List (Nat × Nat)
  | 0 => [(Cosine.one, Cosine.one)]
  | m + 1 =>
    let t := Cosine.table m
    Cosine.interleave t ((List.range (2 ^ m)).map fun i => Cosine.halfAngle (Cosine.onePlus m t (2 * i + 1)))

/-- An enclosure of `Σ c_j·cos(jθ)`, in units of `2^-precision` times the coefficients' unit. -/
def Cosine.enclose : List (Nat × Nat) → List Int → Int × Int
  | e :: es, c :: cs =>
    let r := Cosine.enclose es cs
    if 0 ≤ c then (r.1 + c * e.1, r.2 + c * e.2) else (r.1 + c * e.2, r.2 + c * e.1)
  | _, _ => (0, 0)

/-- The sign of `2·Σ c_j·cos(jθ) - r`, decided exactly. -/
def Cosine.cmpTwice (m : Nat) (cs : List Int) (r : Int) : Int :=
  Tower.sgn m (Cosine.toTower m (cs.modify 0 fun c => 2 * c - r))

/-- The greatest magnitude code `lo ≤ b < lo + 2^bits` with `below b`, where `below` holds of `lo` and is downward
closed. -/
def Cosine.search (below : Nat → Bool) : (bits lo : Nat) → Nat
  | 0, lo => lo
  | bits + 1, lo =>
    if below (lo + 2 ^ bits) then Cosine.search below bits (lo + 2 ^ bits) else Cosine.search below bits lo

/-- The magnitude code nearest `Σ c_j·cos(jθ) / den` units, ties to even, of a combination that is not negative, by
exact comparison with binary32 values and the midpoints between them. -/
def Cosine.exactMag (m den : Nat) (cs : List Int) : Nat :=
  let b := Cosine.search (fun b => decide (0 ≤ Cosine.cmpTwice m cs (2 * den * F32.codeUnits b))) 31 0
  let s := Cosine.cmpTwice m cs (den * (F32.codeUnits b + F32.codeUnits (b + 1)))
  min F32.infMag (if s < 0 ∨ (s = 0 ∧ b % 2 = 0) then b else b + 1)

/-- Sign and magnitude code of `rnd32(Σ c_j·cos(jθ) / den)` (00_scope.md R14), `none` for an exact zero: from the
enclosure when both its ends round alike, else by exact comparison.  `t` is `Cosine.table m`. -/
def Cosine.rnd (t : List (Nat × Nat)) (m den : Nat) (cs : List Int) : Option (Bool × Nat) :=
  let e := Cosine.enclose t cs
  let d := den * Cosine.one
  if e.1 = 0 ∧ e.2 = 0 then none
  else if 0 < e.1 ∧ F32.roundMag e.1.natAbs d = F32.roundMag e.2.natAbs d then
    some (false, F32.roundMag e.1.natAbs d)
  else if e.2 < 0 ∧ F32.roundMag e.1.natAbs d = F32.roundMag e.2.natAbs d then
    some (true, F32.roundMag e.1.natAbs d)
  else if Cosine.cmpTwice m cs 0 = 0 then none
  else if 0 < Cosine.cmpTwice m cs 0 then some (false, Cosine.exactMag m den cs)
  else some (true, Cosine.exactMag m den (cs.map fun c => -c))

end Sys2Proof
end

