-- ==== Sys2Proof/Machine/Transform.lean ====
section
/-! DEFINITION. The transform engine (40_transform.md): `FWD_M`, `INV_M` and the commands `DCT_FWD`, `DCT_INV`. -/

namespace Sys2Proof.Machine

/-- The coefficients `c_j`, `j < M`, with `Σ_n x_n·cos(π·k·(2n+1) / (2M)) = Σ_j c_j·cos(π·j / (2M))` (R130). -/
def fwdCoeffs (m k : Nat) (xs : List Int) : List Int :=
  xs.zipIdx.foldl (fun cs xn => Cosine.addTerm m (k * (2 * xn.2 + 1)) xn.1 cs) (List.replicate m 0)

/-- The coefficients of `M·xexact[n] = X_0 + 2·Σ_{k≥1} X_k·cos(π·k·(2n+1) / (2M))` (R131). -/
def invCoeffs (m n : Nat) (xs : List Int) : List Int :=
  xs.zipIdx.foldl
    (fun cs xk => Cosine.addTerm m (xk.2 * (2 * n + 1)) (if xk.2 = 0 then xk.1 else 2 * xk.1) cs)
    (List.replicate m 0)

/-- `rnd32` of the exact combination: `+0.0` for an exact zero; where a nonzero combination rounds to magnitude 0 the
sign is the free value `negZero` (00_scope.md R14, log entry 6). -/
def rnd32Combination (t : List (Nat × Nat)) (lg den : Nat) (negZero : Bool) (cs : List Int) : Word :=
  match Cosine.rnd t lg den cs with
  | none => F32.posZero
  | some (neg, mag) => F32.pack (if mag = 0 then negZero else neg) mag

/-- `REF_CR` (R133): every element is the exact sum rounded once; every element is `NAN_OUT` when some input is not
finite. -/
def refCr (cfg : Config) (dir : TransformDir) (xs : List Word) : List Word :=
  if xs.all F32.isFinite then
    let lg := Nat.log2 cfg.m
    let t := Cosine.table lg
    let us := xs.map F32.units
    (List.range cfg.m).map fun k =>
      match dir with
      | .forward => rnd32Combination t lg 1 (Config.underflowSign dir xs k) (fwdCoeffs cfg.m k us)
      | .inverse => rnd32Combination t lg cfg.m (Config.underflowSign dir xs k) (invCoeffs cfg.m k us)
  else List.replicate cfg.m cfg.nanOut

/-- The output listed for an input, the input itself when it is not listed (log entry 5). -/
def listedOutput : List (List Word × List Word) → List Word → List Word
  | [], xs => xs
  | (x, y) :: rest, xs => if x = xs then y else listedOutput rest xs

/-- A transform given by a list of inputs with their outputs: `M` elements, a function of the input alone (R134,
property 1). -/
def tableTransform (m : Nat) (t : List (List Word × List Word)) (xs : List Word) : List Word :=
  (List.range m).map fun k => (listedOutput t xs).getD k F32.posZero

/-- A list of inputs with their outputs maps zeros to zeros (R134, property 3). -/
def keepsZeros (t : List (List Word × List Word)) : Bool :=
  t.all fun p => !p.1.all F32.isZero || p.2.all F32.isZero

/-- The configured transform, `FWD_M` or `INV_M` (R133, R134). -/
def transform (cfg : Config) (dir : TransformDir) (xs : List Word) : List Word :=
  match cfg.transform with
  | .refCr => refCr cfg dir xs
  | .table fwd inv =>
    match dir with
    | .forward => tableTransform cfg.m fwd xs
    | .inverse => tableTransform cfg.m inv xs

/-- `FWD_M` (R133). -/
def fwdM (cfg : Config) (xs : List Word) : List Word := transform cfg .forward xs

/-- `INV_M` (R133). -/
def invM (cfg : Config) (xs : List Word) : List Word := transform cfg .inverse xs

/-- `DCT_FWD`: forward transform of `VEC`, in place (R140). -/
def execDctFwd (s : State) : Host.Outcome State Fault Refusal :=
  .next (complete { s with vec := fwdM s.cfg s.vec })

/-- `DCT_INV`: inverse transform of `VEC`, in place (R141). -/
def execDctInv (s : State) : Host.Outcome State Fault Refusal :=
  .next (complete { s with vec := invM s.cfg s.vec })

end Sys2Proof.Machine
end

