-- ==== Sys2Proof/Machine/OverlapAdd.lean ====
section
/-! DEFINITION. The windowed overlap-add wrapper (41_overlap_add.md): `OLA_FWD`, `OLA_INV` and the commands `MDCT`,
`IMDCT`. -/

namespace Sys2Proof.Machine

/-- What `OLA_FWD(c, blk)` returns: `FWD_M(HIST[c] ++ blk)`; no window is applied (R152, R156). -/
def olaFwd (cfg : Config) (hist blk : List Word) : List Word := fwdM cfg (hist ++ blk)

/-- `wv[j] = fl(y[j] * W[j])` with `y = INV_M(X)` (R158). -/
def windowed (cfg : Config) (xs : List Word) : List Word :=
  List.zipWith (F32.mul cfg.nanOut) (invM cfg xs) cfg.w

/-- What `OLA_INV(c, X)` returns: `out[i] = fl(wv[i] + TAIL[c][i])` (R158). -/
def olaInv (cfg : Config) (tail xs : List Word) : List Word :=
  List.zipWith (F32.add cfg.nanOut) ((windowed cfg xs).take cfg.n) tail

/-- What `OLA_INV(c, X)` leaves in `TAIL[c]`: `fl(wv[i+N] * W[i+N])` (R158).  The old tail has no part in it
(10_state.md R44); that this stands over 43_channel_pipeline.md R224's "stays NaN until a reset" is log entry 16 (DEDUCED). -/
def olaTail (cfg : Config) (xs : List Word) : List Word :=
  List.zipWith (F32.mul cfg.nanOut) ((windowed cfg xs).drop cfg.n) (cfg.w.drop cfg.n)

/-- The effect of `MDCT` once its checks passed: `VEC` gets the Coefficient Vector and `HIST[ch]` the block (R170). -/
def mdctBody (ch : Nat) (s : State) : State :=
  let k := channelAt s ch
  setChannel ch { k with hist := k.io } { s with vec := olaFwd s.cfg k.hist k.io }

/-- The effect of `IMDCT` once its checks passed: `IO[ch]` gets the block, `TAIL[ch]` the new tail, and `VEC` is left
unchanged (R171). -/
def imdctBody (ch : Nat) (s : State) : State :=
  let k := channelAt s ch
  setChannel ch { k with io := olaInv s.cfg k.tail s.vec, tail := olaTail s.cfg s.vec } s

/-- `MDCT ch, len` (R170). -/
def execMdct (ch len : Nat) (s : State) : Host.Outcome State Fault Refusal :=
  .next (checked (blockError s.cfg ch len) (mdctBody ch) s)

/-- `IMDCT ch, len` (R171). -/
def execImdct (ch len : Nat) (s : State) : Host.Outcome State Fault Refusal :=
  .next (checked (blockError s.cfg ch len) (imdctBody ch) s)

end Sys2Proof.Machine
end

