-- ==== Sys2Proof/Machine/Pipeline.lean ====
section
/-! DEFINITION. The channel processor pipeline (43_channel_pipeline.md): `ChannelCycle` and the commands `PROC_BLOCK`,
`PROC_ALL`. -/

namespace Sys2Proof.Machine

/-- Step 2: `d[i] = fl(x[i] * DRIVE[i])` (R226). -/
def driven (cfg : Config) (f : Frame) (x : List Word) : List Word :=
  List.zipWith (F32.mul cfg.nanOut) x f.drive

/-- Step 6: `m[i] = fl(fl(wet[i] * MIX[i]) + fl(prev[i] * fl(1.0 - MIX[i])))` (R225, R226). -/
def crossfade (cfg : Config) (f : Frame) (wet prev : List Word) : List Word :=
  List.zipWith (F32.add cfg.nanOut)
    (List.zipWith (F32.mul cfg.nanOut) wet f.mix)
    (List.zipWith (fun p mx => F32.mul cfg.nanOut p (F32.sub cfg.nanOut F32.one mx)) prev f.mix)

/-- Step 7: `fl(m[i] * GAIN[i])` (R226). -/
def gained (cfg : Config) (f : Frame) (m : List Word) : List Word :=
  List.zipWith (F32.mul cfg.nanOut) m f.gain

/-- The Coefficient Vector of a cycle after step 4 (R226). -/
def cycleCoeffs (cfg : Config) (f : Frame) (d : Nat) (ch : Channel) : List Word :=
  distortStage cfg (f.cr cfg) (f.cs cfg) d (olaFwd cfg ch.hist (driven cfg f ch.io))

/-- `ChannelCycle` as a function of what the channel holds, the Parameter Frame and the configuration (R226, R232); `d`
numbers the free values. -/
def cycle (cfg : Config) (f : Frame) (d : Nat) (ch : Channel) : Channel where
  io := gained cfg f (crossfade cfg f (olaInv cfg ch.tail (cycleCoeffs cfg f d ch)) ch.dry)
  hist := driven cfg f ch.io
  tail := olaTail cfg (cycleCoeffs cfg f d ch)
  dry := ch.io

/-- `ChannelCycle(c)` (R226). -/
def channelCycle (c : Nat) (s : State) : State :=
  setChannel c (cycle s.cfg s.frame s.draws (channelAt s c))
    { s with draws := distortDraws (s.frame.cr s.cfg) (s.frame.cs s.cfg) s.draws }

/-- One cycle on every channel, channel 0 first (R234, R235). -/
def allCycles (s : State) : State := (List.range s.cfg.c).foldl (fun t c => channelCycle c t) s

/-- `PROC_BLOCK ch, len` (R230). -/
def execProcBlock (ch len : Nat) (s : State) : Host.Outcome State Fault Refusal :=
  .next (checked (blockError s.cfg ch len) (channelCycle ch) s)

/-- `PROC_ALL count, len` (R234). -/
def execProcAll (count len : Nat) (s : State) : Host.Outcome State Fault Refusal :=
  .next (checked (callError s.cfg count len) allCycles s)

end Sys2Proof.Machine
end

