-- ==== Sys2Proof/Machine/System.lean ====
section
/-! DEFINITION. The system commands `NOP` and `RESET` (44_system.md). -/

namespace Sys2Proof.Machine

/-- `NOP`: only `STATUS.CODE <- NORMAL` (R250). -/
def execNop (s : State) : Host.Outcome State Fault Refusal := .next (complete s)

/-- Channel State at its construction value, `IO` kept (R252). -/
def clearChannel (cfg : Config) (ch : Channel) : Channel :=
  { ch with hist := zeros cfg.n, tail := zeros cfg.n, dry := zeros cfg.n }

/-- `RESET`: every channel's `HIST`, `TAIL` and `DRY` become `+0.0`, `STICKY` and `CODE` become 0 (R252). -/
def execReset (s : State) : Host.Outcome State Fault Refusal :=
  .next (complete { s with channels := s.channels.map (clearChannel s.cfg), sticky := false })

end Sys2Proof.Machine
end

