-- ==== Sys2Proof/Machine/Dispatch.lean ====
section
/-! DEFINITION. One arm per command: `exec i s` runs command `i`, whose word `CMD` already holds, in state `s`. -/

namespace Sys2Proof.Machine

def exec (i : Instr) (s : State) : Host.Outcome State Fault Refusal :=
  match i with
  | .nop => Sys2Proof.Machine.execNop s
  | .dctFwd => Sys2Proof.Machine.execDctFwd s
  | .dctInv => Sys2Proof.Machine.execDctInv s
  | .mdct ch len => Sys2Proof.Machine.execMdct ch len s
  | .imdct ch len => Sys2Proof.Machine.execImdct ch len s
  | .crunch => Sys2Proof.Machine.execCrunch s
  | .crush => Sys2Proof.Machine.execCrush s
  | .distort => Sys2Proof.Machine.execDistort s
  | .procBlock ch len => Sys2Proof.Machine.execProcBlock ch len s
  | .procAll count len => Sys2Proof.Machine.execProcAll count len s
  | .reset => Sys2Proof.Machine.execReset s

end Sys2Proof.Machine
end

