-- ==== Sys2Proof/Machine/Port.lean ====
section
/-! DEFINITION. What the block does with one host port access (20_memory.md R76 to R80). -/

namespace Sys2Proof.Machine

/-- Run the command word `w`; an illegal word ends with `ERR_ILLEGAL_CMD` and changes nothing else (30_encoding.md
R107, 60_exceptions.md R262). -/
def runCommand (w : Word) (s : State) : Host.Outcome State Fault Refusal :=
  match decode w with
  | .ok i => exec i s
  | .error _ => .next (raise .errIllegalCmd s)

/-- A host write: store, and at `CMD` then run the word as a command, atomically (10_state.md R32, 20_memory.md R77,
R80). -/
def hostWrite (a : WordAddr) (v : Word) (s : State) : Host.Outcome State Fault Refusal :=
  if a = cmdAddr then runCommand v (portStore a v s) else .next (portStore a v s)

/-- One port access. -/
def perform (op : PortOp) (s : State) : Host.Outcome State Fault Refusal :=
  match op with
  | .read a => .next (hostRead a s)
  | .write a v => hostWrite a v s

/-- One host access: at the port, or one whole aligned word through the adapter; any other adapter access is refused
(20_memory.md R75). -/
def performAccess (x : Access) (s : State) : Host.Outcome State Fault Refusal :=
  match x with
  | .port op => perform op s
  | .adapterRead b nbytes =>
    match adapterWord b nbytes with
    | some a => .next (adapterReply a s)
    | none => .refused .partialWordAccess
  | .adapterWrite b bytes =>
    match adapterWord b bytes.length with
    | some a => hostWrite a (ofLanes bytes) s
    | none => .refused .partialWordAccess

/-- Put a port write of a command word before the host's other accesses. -/
def offerCommand (w : Word) (s : State) : State :=
  { s with pending := .port (.write cmdAddr w) :: s.pending }

end Sys2Proof.Machine
end

