-- ==== Sys2Proof/Machine/Step.lean ====
section
/-! DEFINITION. One step: the block performs the host's next port access, running a command when the access writes `CMD`
(00_scope.md R17, R18, 20_memory.md R80, R81).  There is no program counter and no fetch (10_state.md R30); with no
access pending the block is idle and keeps its state (60_exceptions.md R278). -/

namespace Sys2Proof.Machine

/-- One step of the block. -/
def step (s : State) : Host.Outcome State Fault Refusal :=
  match takeAccess s with
  | some (x, t) => performAccess x t
  | none => .next s

/-- The state in which the host's next access writes the command word `w` to `CMD` (log entry 2). -/
def State.withFetchWord (s : State) (nbits w : Nat) : State :=
  offerCommand (BitVec.ofNat 32 (w % 2 ^ nbits)) s

end Sys2Proof.Machine
end

