-- ==== Sys2Proof/Safety.lean ====
section
/-! DEFINITION. The vocabulary of the claims: which configurations and states are legal, what the caller's contract is, and
what "correctly rounded" means over the reals.  Nothing here takes part in a step. -/

namespace Sys2Proof

/-- A transform that maps zeros to zeros (40_transform.md R134, property 3; `REF_CR` does by R135). -/
def TransformKind.keepsZeros : TransformKind → Bool
  | .refCr => true
  | .table fwd inv => Machine.keepsZeros fwd && Machine.keepsZeros inv

/-- A legal configuration (00_scope.md R8): `N` a power of two from 2 to 2048, `C` 1 or 2, `W` of `M` values, `REP < N`,
`TZ` in `[0, 1]`, `NAN_OUT` a quiet NaN, curves that meet 42_distortion.md R182, R185 and R186, and a transform that meets
40_transform.md R134, properties 1 and 3.  Property 2, the round trip, quantifies over every finite list and is
`Machine.RoundTrips`. -/
def Config.wf (cfg : Config) : Bool :=
  decide (cfg.n ∈ [2, 4, 8, 16, 32, 64, 128, 256, 512, 1024, 2048])
    && (cfg.c == 1 || cfg.c == 2)
    && cfg.w.length == cfg.m
    && decide (cfg.rep < cfg.n)
    && F32.le F32.posZero cfg.tz && F32.le cfg.tz F32.one
    && F32.isQuietNaN cfg.nanOut
    && Machine.curvesConform cfg.curves
    && cfg.transform.keepsZeros

/-- The rational number a finite word denotes (00_scope.md R10). -/
def F32.toRat (w : Word) : ℚ := F32.units w / 2 ^ 149

/-- `w` is `rnd32(r)` (00_scope.md R14): `+0.0` when `r = 0`; infinity of `r`'s sign when the magnitude overflows; otherwise
a finite value nearest `r`, the even one of two equally near.  Where a nonzero `r` is nearest to zero, either zero
is accepted. -/
def IsRnd32 (r : ℝ) (w : Word) : Prop :=
  if r = 0 then w = F32.posZero
  else if (2 : ℝ) ^ 128 - 2 ^ 103 ≤ r then w = F32.pack false F32.infMag
  else if r ≤ -((2 : ℝ) ^ 128 - 2 ^ 103) then w = F32.pack true F32.infMag
  else F32.isFinite w = true ∧ ∀ v : Word, F32.isFinite v = true →
    F32.toRat v = F32.toRat w
      ∨ |r - (F32.toRat w : ℝ)| < |r - (F32.toRat v : ℝ)|
      ∨ (|r - (F32.toRat w : ℝ)| = |r - (F32.toRat v : ℝ)| ∧ F32.mag w % 2 = 0)

/-- A list of zeros, of either sign (40_transform.md R134, property 3). -/
def AllZero (l : List Word) : Prop := ∀ w ∈ l, F32.isZero w = true

/-- A list of finite values. -/
def AllFinite (l : List Word) : Prop := ∀ w ∈ l, F32.isFinite w = true

/-- Element `i` of an array. -/
def elem (l : List Word) (i : Nat) : Word := l.getD i F32.posZero

/-- `w` is element `k` of `FWD_M` of `l` under `REF_CR`: the sum of 40_transform.md R130, exact, rounded once (R133). -/
def IsForwardElement (m : Nat) (l : List Word) (k : Nat) (w : Word) : Prop :=
  IsRnd32 (∑ n ∈ Finset.range m,
    ((F32.toRat (elem l n) : ℚ) : ℝ) * Real.cos (Real.pi * k * (2 * n + 1) / (2 * m))) w

/-- `w` is element `n` of `INV_M` of `l` under `REF_CR`: the sum of 40_transform.md R131, exact, rounded once (R133). -/
def IsInverseElement (m : Nat) (l : List Word) (n : Nat) (w : Word) : Prop :=
  IsRnd32 (1 / m * ((F32.toRat (elem l 0) : ℚ) : ℝ)
    + 2 / m * ∑ k ∈ Finset.Ico 1 m,
        ((F32.toRat (elem l k) : ℚ) : ℝ) * Real.cos (Real.pi * k * (2 * n + 1) / (2 * m))) w

/-- `max_n abs(x[n])` of a list of finite values. -/
def maxAbs (l : List Word) : ℚ := (l.map fun w => |F32.toRat w|).foldr max 0

namespace Machine

/-- Property 2 of 40_transform.md R134: for every list of `M` finite values the round trip is within `1e-5` of the largest
magnitude. -/
def RoundTrips (cfg : Config) : Prop :=
  ∀ xs : List Word, xs.length = cfg.m → AllFinite xs → ∀ i < cfg.m,
    F32.isFinite (elem (invM cfg (fwdM cfg xs)) i) = true
      ∧ |F32.toRat (elem (invM cfg (fwdM cfg xs)) i) - F32.toRat (elem xs i)| ≤ 1 / 100000 * maxAbs xs

/-- A configuration whose every parameter is legal (00_scope.md R8): `Config.wf`, and a transform other than `REF_CR` meets
all of 40_transform.md R134.  `REF_CR` is legal by name (R8, R133); that it round trips is not claimed (R135, log
entry 5). -/
def Legal (cfg : Config) : Prop := cfg.wf = true ∧ (cfg.transform ≠ .refCr → RoundTrips cfg)

/-- Every array of the Parameter Frame has `N` elements (10_state.md R38). -/
def Frame.wf (cfg : Config) (f : Frame) : Bool :=
  f.drive.length == cfg.n && f.crunch.length == cfg.n && f.crush.length == cfg.n
    && f.mix.length == cfg.n && f.gain.length == cfg.n

/-- Every array of a channel has `N` elements (10_state.md R41, R43 to R45). -/
def Channel.wf (cfg : Config) (ch : Channel) : Bool :=
  ch.io.length == cfg.n && ch.hist.length == cfg.n && ch.tail.length == cfg.n && ch.dry.length == cfg.n

/-- The shape the spec gives the state: a legal configuration, `VEC` of `M` elements, every other array of `N`, `C`
channels (00_scope.md R8, 10_state.md R38 to R45). -/
def State.wf (s : State) : Bool :=
  s.cfg.wf && Frame.wf s.cfg s.frame && s.vec.length == s.cfg.m && s.channels.length == s.cfg.c
    && s.channels.all (Channel.wf s.cfg)

/-- A control value for which a stage uses no free draw: `±0.0`, or inside `(0, 1]`. -/
def controlInContract (x : Word) : Bool := F32.eq x F32.posZero || F32.inUnit x

/-- The caller's contract on a Parameter Frame (43_channel_pipeline.md R222): `CRUNCH[REP]`, `CRUSH[REP]` and every
`MIX[i]` in `[0, 1]`, every `DRIVE[i]` and `GAIN[i]` finite and not negative. -/
def frameInContract (cfg : Config) (f : Frame) : Bool :=
  controlInContract (f.cr cfg) && controlInContract (f.cs cfg)
    && f.mix.all (fun x => F32.le F32.posZero x && F32.le x F32.one)
    && f.drive.all (fun x => F32.isFinite x && F32.le F32.posZero x)
    && f.gain.all (fun x => F32.isFinite x && F32.le F32.posZero x)

/-- The word address of an element of the Parameter Frame, `VEC` or an `IO` block (20_memory.md R72). -/
def arrayAddr (cfg : Config) (a : WordAddr) : Bool :=
  let region := a.toNat / 4096
  let offset := a.toNat % 4096
  (decide (region ∈ [1, 2, 3, 4, 5, 8]) && decide (offset < cfg.n))
    || (region == 6 && decide (offset < 2 * cfg.n))
    || (region == 9 && cfg.c == 2 && decide (offset < cfg.n))

/-- The commands that write `VEC` (10_state.md R49). -/
def writesVec : Instr → Bool
  | .nop => false
  | .dctFwd => true
  | .dctInv => true
  | .mdct _ _ => true
  | .imdct _ _ => false
  | .crunch => true
  | .crush => true
  | .distort => true
  | .procBlock _ _ => false
  | .procAll _ _ => false
  | .reset => false

/-- Whether a command writes `IO[c]` (10_state.md R49). -/
def writesIo (c : Nat) : Instr → Bool
  | .nop => false
  | .dctFwd => false
  | .dctInv => false
  | .mdct _ _ => false
  | .imdct ch _ => ch == c
  | .crunch => false
  | .crush => false
  | .distort => false
  | .procBlock ch _ => ch == c
  | .procAll _ _ => true
  | .reset => false

/-- Whether a command writes `HIST[c]` (10_state.md R49). -/
def writesHist (c : Nat) : Instr → Bool
  | .nop => false
  | .dctFwd => false
  | .dctInv => false
  | .mdct ch _ => ch == c
  | .imdct _ _ => false
  | .crunch => false
  | .crush => false
  | .distort => false
  | .procBlock ch _ => ch == c
  | .procAll _ _ => true
  | .reset => true

/-- Whether a command writes `TAIL[c]` (10_state.md R49). -/
def writesTail (c : Nat) : Instr → Bool
  | .nop => false
  | .dctFwd => false
  | .dctInv => false
  | .mdct _ _ => false
  | .imdct ch _ => ch == c
  | .crunch => false
  | .crush => false
  | .distort => false
  | .procBlock ch _ => ch == c
  | .procAll _ _ => true
  | .reset => true

/-- Whether a command writes `DRY[c]` (10_state.md R49). -/
def writesDry (c : Nat) : Instr → Bool
  | .nop => false
  | .dctFwd => false
  | .dctInv => false
  | .mdct _ _ => false
  | .imdct _ _ => false
  | .crunch => false
  | .crush => false
  | .distort => false
  | .procBlock ch _ => ch == c
  | .procAll _ _ => true
  | .reset => true

/-- The Channel State arrays of a channel, without `IO` (10_state.md R42). -/
def Channel.hidden (ch : Channel) : List Word × List Word × List Word := (ch.hist, ch.tail, ch.dry)

end Machine

end Sys2Proof
end

