-- ==== Sys2Proof/Certificates/Slice0/Obligations.lean ====
section
/-! DEFINITION. The statements for the provers.  Each docstring names the rule of spec/ the statement formalises, or says that
it rests on a choice of the model. -/

open Sys2Proof Sys2Proof.Machine

/-! ### Encoding (30_encoding.md) -/

/-- R101 to R103, R112: the decoder reads back every well-formed instruction, with every operand at every value its field
admits. -/
def Obligations.DecodeOfEncode : Prop :=
  ∀ i : Instr, i.wellFormed = true → decode (encode i) = .ok i

/-- R108, R109: a legal word stands for exactly one command, and the encoder gives that word back. -/
def Obligations.EncodeOfDecode : Prop :=
  ∀ (w : Word) (i : Instr), decode w = .ok i → encode i = w ∧ i.wellFormed = true

/-- R106: a word selects a row of the opcode map, by its mask and match, exactly when it decodes to the row's command, and
no word selects two rows. -/
def Obligations.OpcodeRowsSelectCommands : Prop :=
  (∀ (w : Word), ∀ r ∈ opcodeTable, (w &&& r.mask = r.matchBits ↔ ∃ i, decode w = .ok i ∧ i.mnemonic = r.mnemonic))
    ∧ opcodeTable.Pairwise (fun r r' => ∀ w : Word, ¬ (w &&& r.mask = r.matchBits ∧ w &&& r'.mask = r'.matchBits))

/-- R107: a word is illegal exactly when it matches no row of R106, which are the three kinds listed, and writing one stores
it in `CMD`, ends with `ERR_ILLEGAL_CMD` and changes no other state. -/
def Obligations.IllegalWordsOnlyReport : Prop :=
  ∀ (w : Word) (s : State),
    ((∃ e, decode w = .error e) ↔ ∀ r ∈ opcodeTable, w &&& r.mask ≠ r.matchBits)
    ∧ ((∃ e, decode w = .error e) ↔
      ((0x0A ≤ w.toNat % 256 ∧ w.toNat % 256 ≤ 0x0E) ∨ 0x10 ≤ w.toNat % 256
        ∨ (w.toNat % 256 ∈ [0, 1, 2, 5, 6, 7, 15] ∧ w.toNat / 256 ≠ 0)
        ∨ (w.toNat % 256 ∈ [3, 4, 8, 9] ∧ w.toNat / 4096 % 16 ≠ 0)))
    ∧ ((∃ e, decode w = .error e) →
        perform (.write 0x0001#16 w) s = .next { s with cmd := w, code := .errIllegalCmd, sticky := true })

/-- R115: the encoding examples at the default configuration. -/
def Obligations.EncodingExamples : Prop :=
  decode 0x00400008#32 = .ok (.procBlock 0 64) ∧ decode 0x00400108#32 = .ok (.procBlock 1 64)
    ∧ decode 0x00400209#32 = .ok (.procAll 2 64) ∧ decode 0x00400003#32 = .ok (.mdct 0 64)
    ∧ decode 0x00400104#32 = .ok (.imdct 1 64) ∧ decode 0x0000000F#32 = .ok .reset
    ∧ (∃ e, decode 0x0000000A#32 = .error e) ∧ (∃ e, decode 0x00000105#32 = .error e)
    ∧ (∃ e, decode 0x00401008#32 = .error e)

/-! ### Steps and the host port (00_scope.md R18, 20_memory.md) -/

/-- R18: when the host's next access writes a word that decodes to `i`, the step is `exec i`, with the word in `CMD` and the
access taken off the port; the same of the state `withFetchWord` makes. -/
def Obligations.StepRunsDecodedCommand : Prop :=
  (∀ (s : State) (w : Word) (i : Instr) (rest : List Access),
      s.pending = .port (.write 0x0001#16 w) :: rest → decode w = .ok i →
      step s = exec i { s with pending := rest, cmd := w })
    ∧ (∀ (s : State) (w : Nat) (i : Instr), decodeTableWord 32 w = some i →
      step (s.withFetchWord 32 w) = exec i { s with cmd := BitVec.ofNat 32 w })

/-- R81: accesses take effect in the order the host issues them: a step performs the first pending one, of whatever kind, in
the state the steps before it left; a port access is performed as such. -/
def Obligations.StepPerformsNextAccess : Prop :=
  (∀ (s : State) (x : Access) (rest : List Access), s.pending = x :: rest →
      step s = performAccess x { s with pending := rest })
    ∧ ∀ (s : State) (op : PortOp), performAccess (.port op) s = perform op s

/-- R278: the block is idle between commands and keeps its state. -/
def Obligations.IdleStepKeepsState : Prop :=
  ∀ s : State, s.pending = [] → step s = .next s

/-- R280, R86: no step faults, and the only refusal is of an adapter access that is not one whole aligned word. -/
def Obligations.OnlyPartialWordsAreRefused : Prop :=
  ∀ s : State, (∃ t, step s = .next t)
    ∨ (step s = .refused .partialWordAccess
        ∧ ((∃ b n rest, s.pending = .adapterRead b n :: rest ∧ ¬ (b.toNat % 4 = 0 ∧ n = 4))
          ∨ (∃ b bytes rest, s.pending = .adapterWrite b bytes :: rest ∧ ¬ (b.toNat % 4 = 0 ∧ bytes.length = 4))))

/-- R72, R74. A host write to an array address stores the 32 bits unchanged, a read returns the 32 bits stored, every other
address reads as before, and no Channel State changes. Which register or element an address holds is R72's table, row by
row: a read returns that one, and a write replaces that one and changes nothing else; `CFG` ignores a write, one to `CMD`
runs the command, one to `STATUS` clears `STICKY` by bit 8. The array addresses are those of the table's rows and no
others; every address after the registers that is none of them reads 0 and ignores writes. -/
def Obligations.ArrayWordStoredUnchanged : Prop :=
  ∀ s : State, s.wf = true →
    (∀ (a : WordAddr) (v : Word), arrayAddr s.cfg a = true →
      ∃ t, perform (.write a v) s = .next t
        ∧ perform (.read a) t = .next { t with replies := t.replies ++ [.word v] }
        ∧ (∀ b : WordAddr, b ≠ a → portRead t b = portRead s b)
        ∧ (∀ c, (channelAt t c).hidden = (channelAt s c).hidden)
        ∧ t = { s with frame := t.frame, vec := t.vec, channels := t.channels })
    ∧ (portRead s 0x0000#16 = cfgWord s.cfg ∧ portRead s 0x0001#16 = s.cmd ∧ portRead s 0x0002#16 = statusWord s
      ∧ portRead s 0x0003#16 = s.crunchVal ∧ portRead s 0x0004#16 = s.crushVal)
    ∧ (∀ v : Word, perform (.write 0x0000#16 v) s = .next s
      ∧ (∀ i, decode v = .ok i → perform (.write 0x0001#16 v) s = exec i { s with cmd := v })
      ∧ perform (.write 0x0002#16 v) s = .next { s with sticky := s.sticky && !v.getLsbD 8 }
      ∧ perform (.write 0x0003#16 v) s = .next { s with crunchVal := v }
      ∧ perform (.write 0x0004#16 v) s = .next { s with crushVal := v })
    ∧ (∀ i < s.cfg.n,
      portRead s (BitVec.ofNat 16 (0x1000 + i)) = elem s.frame.drive i
        ∧ portRead s (BitVec.ofNat 16 (0x2000 + i)) = elem s.frame.crunch i
        ∧ portRead s (BitVec.ofNat 16 (0x3000 + i)) = elem s.frame.crush i
        ∧ portRead s (BitVec.ofNat 16 (0x4000 + i)) = elem s.frame.mix i
        ∧ portRead s (BitVec.ofNat 16 (0x5000 + i)) = elem s.frame.gain i
        ∧ portRead s (BitVec.ofNat 16 (0x8000 + i)) = elem (channelAt s 0).io i
        ∧ (s.cfg.c = 2 → portRead s (BitVec.ofNat 16 (0x9000 + i)) = elem (channelAt s 1).io i))
    ∧ (∀ j < s.cfg.m, portRead s (BitVec.ofNat 16 (0x6000 + j)) = elem s.vec j)
    ∧ (∀ i < s.cfg.n, ∀ v : Word,
      perform (.write (BitVec.ofNat 16 (0x1000 + i)) v) s
          = .next { s with frame := { s.frame with drive := s.frame.drive.set i v } }
        ∧ perform (.write (BitVec.ofNat 16 (0x2000 + i)) v) s
          = .next { s with frame := { s.frame with crunch := s.frame.crunch.set i v } }
        ∧ perform (.write (BitVec.ofNat 16 (0x3000 + i)) v) s
          = .next { s with frame := { s.frame with crush := s.frame.crush.set i v } }
        ∧ perform (.write (BitVec.ofNat 16 (0x4000 + i)) v) s
          = .next { s with frame := { s.frame with mix := s.frame.mix.set i v } }
        ∧ perform (.write (BitVec.ofNat 16 (0x5000 + i)) v) s
          = .next { s with frame := { s.frame with gain := s.frame.gain.set i v } }
        ∧ perform (.write (BitVec.ofNat 16 (0x8000 + i)) v) s
          = .next (setChannel 0 { channelAt s 0 with io := (channelAt s 0).io.set i v } s)
        ∧ (s.cfg.c = 2 → perform (.write (BitVec.ofNat 16 (0x9000 + i)) v) s
          = .next (setChannel 1 { channelAt s 1 with io := (channelAt s 1).io.set i v } s)))
    ∧ (∀ j < s.cfg.m, ∀ v : Word,
      perform (.write (BitVec.ofNat 16 (0x6000 + j)) v) s = .next { s with vec := s.vec.set j v })
    ∧ (∀ a : WordAddr, arrayAddr s.cfg a = true ↔
      (∃ i < s.cfg.n, a.toNat ∈ [0x1000 + i, 0x2000 + i, 0x3000 + i, 0x4000 + i, 0x5000 + i, 0x8000 + i])
        ∨ (∃ j < s.cfg.m, a.toNat = 0x6000 + j)
        ∨ (s.cfg.c = 2 ∧ ∃ i < s.cfg.n, a.toNat = 0x9000 + i))
    ∧ (∀ (a : WordAddr) (v : Word), 5 ≤ a.toNat → arrayAddr s.cfg a = false →
      portRead s a = 0#32 ∧ perform (.write a v) s = .next s)

/-- R36, R37: a read of `CRUNCH_VAL` or `CRUSH_VAL` returns the last value written: the write stores it and changes nothing
else, the read returns what is stored, and no other access, a command included, changes it. -/
def Obligations.ControlRegistersHoldLastWrite : Prop :=
  (∀ (s : State) (v : Word),
      perform (.write 0x0003#16 v) s = .next { s with crunchVal := v }
        ∧ perform (.write 0x0004#16 v) s = .next { s with crushVal := v }
        ∧ perform (.read 0x0003#16) s = .next { s with replies := s.replies ++ [.word s.crunchVal] }
        ∧ perform (.read 0x0004#16) s = .next { s with replies := s.replies ++ [.word s.crushVal] })
    ∧ (∀ (op : PortOp) (s t : State), perform op s = .next t →
        ((∀ v, op ≠ .write 0x0003#16 v) → t.crunchVal = s.crunchVal)
          ∧ ((∀ v, op ≠ .write 0x0004#16 v) → t.crushVal = s.crushVal))

/-- R73: a reserved or unmapped word address reads 0 and ignores writes, and neither changes any state or runs a
command. -/
def Obligations.UnmappedReadsZeroIgnoresWrites : Prop :=
  ∀ (s : State) (a : WordAddr) (v : Word), arrayAddr s.cfg a = false → 5 ≤ a.toNat →
    perform (.read a) s = .next { s with replies := s.replies ++ [.word 0#32] }
      ∧ perform (.write a v) s = .next s

/-- R31: `CFG` reads N in bits 15:0, C in bits 19:16 and 0 above, ignores writes, and reads `0x00020040` by default. -/
def Obligations.ConfigRegisterReadsParameters : Prop :=
  (∀ (s : State) (v : Word), s.wf = true →
      ((portRead s 0x0000#16).extractLsb' 0 16).toNat = s.cfg.n
        ∧ ((portRead s 0x0000#16).extractLsb' 16 4).toNat = s.cfg.c
        ∧ (portRead s 0x0000#16).extractLsb' 20 12 = 0
        ∧ perform (.write 0x0000#16 v) s = .next s)
    ∧ portRead State.reset 0x0000#16 = 0x00020040#32

/-- R33, R261: the fields a read of `STATUS` shows: `CODE` in bits 3:0, with the numbers of R261, `STICKY` in bit 8, 0 in
the reserved bits. -/
def Obligations.StatusRegisterFields : Prop :=
  ∀ s : State,
    ((portRead s 0x0002#16).extractLsb' 0 4).toNat
        = (match s.code with
          | .normal => 0
          | .errNoChannels => 1
          | .errFewerChannels => 2
          | .errBlockSize => 3
          | .errBadChannel => 4
          | .errIllegalCmd => 5)
      ∧ (portRead s 0x0002#16).extractLsb' 4 4 = 0
      ∧ (portRead s 0x0002#16).getLsbD 8 = s.sticky
      ∧ (portRead s 0x0002#16).extractLsb' 9 23 = 0

/-- R35: writing `STATUS` with bit 8 set clears `STICKY`, with bit 8 clear leaves it, and ignores every other bit; `RESET`
and block reset also clear `STICKY`. -/
def Obligations.StatusWriteOneClearsSticky : Prop :=
  (∀ (s : State) (v : Word),
      perform (.write 0x0002#16 v) s = .next { s with sticky := s.sticky && !v.getLsbD 8 })
    ∧ (∀ s t : State, exec .reset s = .next t → t.sticky = false)
    ∧ (∀ cfg : Config, (State.resetOf cfg).sticky = false)

/-- R32: a write to `CMD` stores the word and then runs the command it encodes, in one step; a read returns the last word
written, which may be illegal, or 0 if none has been written since reset, and changes nothing. -/
def Obligations.CommandRegisterStoresThenRuns : Prop :=
  (∀ (s : State) (w : Word),
      (∀ i, decode w = .ok i → perform (.write 0x0001#16 w) s = exec i { s with cmd := w })
        ∧ (∃ t, perform (.write 0x0001#16 w) s = .next t ∧ t.cmd = w))
    ∧ (∀ s : State, perform (.read 0x0001#16) s = .next { s with replies := s.replies ++ [.word s.cmd] })
    ∧ (∀ (op : PortOp) (s t : State), (∀ w, op ≠ .write 0x0001#16 w) → perform op s = .next t → t.cmd = s.cmd)
    ∧ (∀ cfg : Config, (State.resetOf cfg).cmd = 0#32)

/-- R79: a host read changes no state of the block at any address, and repeating a write to any address but `CMD` leaves the
state one write leaves. -/
def Obligations.ReadsArePureWritesIdempotent : Prop :=
  (∀ (s : State) (a : WordAddr), perform (.read a) s = .next { s with replies := s.replies ++ [.word (portRead s a)] })
    ∧ (∀ (s t : State) (a : WordAddr) (v : Word), a ≠ 0x0001#16 →
        perform (.write a v) s = .next t → perform (.write a v) t = .next t)

/-- R75: the byte adapter uses byte address `4·a` for word `a` with little-endian lanes, in writes and in what a read returns,
presents only whole aligned words, and every narrower or misaligned access is refused. That the refusal takes in every
other length as well, longer bursts and empty accesses, is the model's choice (log entry 15). -/
def Obligations.ByteAdapterPresentsWholeWords : Prop :=
  (∀ (s : State) (a : WordAddr) (v : Word) (bytes : List Byte), bytes.length = 4 →
      (∀ k < 4, bytes.getD k 0 = v.extractLsb' (8 * k) 8) →
      performAccess (.adapterWrite (BitVec.ofNat 18 (4 * a.toNat)) bytes) s = perform (.write a v) s)
    ∧ (∀ (s : State) (a : WordAddr), ∃ bytes : List Byte, bytes.length = 4
      ∧ (∀ k < 4, bytes.getD k 0 = (portRead s a).extractLsb' (8 * k) 8)
      ∧ performAccess (.adapterRead (BitVec.ofNat 18 (4 * a.toNat)) 4) s
        = .next { s with replies := s.replies ++ [.bytes bytes] })
    ∧ (∀ (s : State) (b : ByteAddr) (bytes : List Byte), ¬ (b.toNat % 4 = 0 ∧ bytes.length = 4) →
      performAccess (.adapterWrite b bytes) s = .refused .partialWordAccess)
    ∧ (∀ (s : State) (b : ByteAddr) (n : Nat), ¬ (b.toNat % 4 = 0 ∧ n = 4) →
      performAccess (.adapterRead b n) s = .refused .partialWordAccess)

/-- R42, R71: the host port neither writes nor reads Channel State: no access but a `CMD` write changes it, and what a read
returns does not depend on it. -/
def Obligations.ChannelStateHiddenFromPort : Prop :=
  (∀ (s t : State) (op : PortOp), (∀ v, op ≠ .write 0x0001#16 v) → perform op s = .next t →
      ∀ c, (channelAt t c).hidden = (channelAt s c).hidden)
    ∧ (∀ (s : State) (chs : List Channel) (a : WordAddr), chs.map Channel.io = s.channels.map Channel.io →
      portRead { s with channels := chs } a = portRead s a)

/-! ### Errors (60_exceptions.md) -/

/-- R266: a command that ends with an error, an illegal word included, writes exactly `CMD` and `STATUS`. -/
def Obligations.ErrorWritesOnlyStatus : Prop :=
  (∀ (w : Word) (s t : State), perform (.write 0x0001#16 w) s = .next t → t.code ≠ .normal →
      t = { s with cmd := w, code := t.code, sticky := true })
    ∧ (∀ (i : Instr) (s t : State), exec i s = .next t → t.code ≠ .normal →
      t = { s with code := t.code, sticky := true })

/-- R263: the checks of every command, in their order, from the word written to `CMD`. -/
def Obligations.ChecksRunInOrder : Prop :=
  ∀ (w : Word) (s : State), ∃ t, perform (.write 0x0001#16 w) s = .next t ∧
    let opc := w.toNat % 256
    let ch := w.toNat / 256 % 16
    let rsv := w.toNat / 4096 % 16
    let len := w.toNat / 65536
    t.code =
      if opc ∈ [0, 1, 2, 5, 6, 7, 15] then
        (if w.toNat / 256 ≠ 0 then .errIllegalCmd else .normal)
      else if opc ∈ [3, 4, 8] then
        (if rsv ≠ 0 then .errIllegalCmd else if ¬ ch < s.cfg.c then .errBadChannel
          else if len ≠ s.cfg.n then .errBlockSize else .normal)
      else if opc = 9 then
        (if rsv ≠ 0 then .errIllegalCmd else if ch = 0 then .errNoChannels
          else if ch < s.cfg.c then .errFewerChannels else if len ≠ s.cfg.n then .errBlockSize else .normal)
      else .errIllegalCmd

/-- R34 with R252: every command but `RESET` leaves `STICKY` set if it was set, and sets it when it ends with an error;
`RESET` clears it. -/
def Obligations.StickyRecordsErrors : Prop :=
  ∀ (i : Instr) (s : State), ∃ t, exec i s = .next t
    ∧ t.sticky = (if i = .reset then false else s.sticky || decide (t.code ≠ .normal))

/-- R267: issuing a failed word again gives the same error and changes nothing. -/
def Obligations.FailedCommandFailsAgain : Prop :=
  ∀ (w : Word) (s t : State), perform (.write 0x0001#16 w) s = .next t → t.code ≠ .normal →
    perform (.write 0x0001#16 w) t = .next t

/-! ### Binary32 arithmetic (00_scope.md R10, R14) -/

/-- R10: the product of finite values is correctly rounded, and its sign is the exclusive or of the signs, also for a zero
result. -/
def Obligations.ProductCorrectlyRounded : Prop :=
  ∀ nan a b : Word, F32.isFinite a = true → F32.isFinite b = true →
    (F32.toRat a * F32.toRat b ≠ 0 → IsRnd32 ((F32.toRat a * F32.toRat b : ℚ) : ℝ) (F32.mul nan a b))
      ∧ (F32.toRat a * F32.toRat b = 0 → F32.isZero (F32.mul nan a b) = true)
      ∧ F32.sign (F32.mul nan a b) = (F32.sign a != F32.sign b)

/-- R10: the sum and the difference of finite values are correctly rounded; an exact zero is `-0.0` only when both addends
are negative. -/
def Obligations.SumCorrectlyRounded : Prop :=
  ∀ nan a b : Word, F32.isFinite a = true → F32.isFinite b = true →
    (F32.toRat a + F32.toRat b ≠ 0 → IsRnd32 ((F32.toRat a + F32.toRat b : ℚ) : ℝ) (F32.add nan a b))
      ∧ (F32.toRat a + F32.toRat b = 0 →
          F32.add nan a b = if F32.sign a && F32.sign b then F32.negZero else F32.posZero)
      ∧ (F32.toRat a - F32.toRat b ≠ 0 → IsRnd32 ((F32.toRat a - F32.toRat b : ℚ) : ℝ) (F32.sub nan a b))
      ∧ (F32.toRat a - F32.toRat b = 0 →
          F32.sub nan a b = if F32.sign a && !F32.sign b then F32.negZero else F32.posZero)

/-- R10: the quotient of finite values is correctly rounded, and its sign is the exclusive or of the signs. -/
def Obligations.QuotientCorrectlyRounded : Prop :=
  ∀ nan a b : Word, F32.isFinite a = true → F32.isFinite b = true → F32.isZero b = false →
    (F32.toRat a / F32.toRat b ≠ 0 → IsRnd32 ((F32.toRat a / F32.toRat b : ℚ) : ℝ) (F32.div nan a b))
      ∧ (F32.toRat a / F32.toRat b = 0 → F32.isZero (F32.div nan a b) = true)
      ∧ F32.sign (F32.div nan a b) = (F32.sign a != F32.sign b)

/-- R10: the operations on infinities, zeros and NaNs; every NaN result is the pattern `NAN_OUT`. Which results are NaNs,
infinities and zeros, and their signs, are IEEE 754's (log entry 10). -/
def Obligations.ArithmeticSpecialValues : Prop :=
  ∀ nan a b : Word,
    (F32.isNaN a = true ∨ F32.isNaN b = true →
        F32.add nan a b = nan ∧ F32.sub nan a b = nan ∧ F32.mul nan a b = nan ∧ F32.div nan a b = nan)
    ∧ (F32.isInf a = true → F32.isInf b = true →
        F32.add nan a b = (if F32.sign a = F32.sign b then a else nan)
          ∧ F32.sub nan a b = (if F32.sign a = F32.sign b then nan else a)
          ∧ F32.div nan a b = nan
          ∧ F32.mul nan a b = F32.pack (F32.sign a != F32.sign b) F32.infMag)
    ∧ (F32.isInf a = true → F32.isFinite b = true →
        F32.add nan a b = a ∧ F32.add nan b a = a
          ∧ F32.sub nan a b = a ∧ F32.sub nan b a = F32.neg a
          ∧ F32.mul nan a b = (if F32.isZero b then nan else F32.pack (F32.sign a != F32.sign b) F32.infMag)
          ∧ F32.mul nan b a = (if F32.isZero b then nan else F32.pack (F32.sign a != F32.sign b) F32.infMag)
          ∧ F32.div nan a b = F32.pack (F32.sign a != F32.sign b) F32.infMag
          ∧ F32.div nan b a = F32.pack (F32.sign a != F32.sign b) 0)
    ∧ (F32.isFinite a = true → F32.isZero b = true →
        F32.div nan a b = (if F32.isZero a then nan else F32.pack (F32.sign a != F32.sign b) F32.infMag))

/-- R14: `round_half_away` gives the nearest integer, ties away from zero, with the operand's sign, when the magnitude is below
`2^23`, and the operand unchanged otherwise. -/
def Obligations.RoundHalfAwayNearest : Prop :=
  ∀ t : Word,
    (F32.isFinite t = true → |F32.toRat t| < 2 ^ 23 →
      ∃ n : ℤ, F32.toRat (F32.roundHalfAway t) = n ∧ |F32.toRat t - n| ≤ 1 / 2
        ∧ (|F32.toRat t - n| = 1 / 2 → |F32.toRat t| < |(n : ℚ)|)
        ∧ F32.sign (F32.roundHalfAway t) = F32.sign t)
    ∧ (F32.isFinite t = false ∨ 2 ^ 23 ≤ |F32.toRat t| → F32.roundHalfAway t = t)

/-! ### Transform engine (40_transform.md) -/

/-- R133, R140: under `REF_CR` with finite input, `DCT_FWD` leaves in every element of `VEC` the exact type-II sum rounded
once, and changes nothing else but `CODE`. -/
def Obligations.ForwardTransformCorrectlyRounded : Prop :=
  ∀ s : State, s.wf = true → s.cfg.transform = .refCr → AllFinite s.vec →
    ∃ t, exec .dctFwd s = .next t ∧ t = { s with vec := t.vec, code := .normal } ∧ t.vec.length = s.cfg.m
      ∧ ∀ k < s.cfg.m, IsForwardElement s.cfg.m s.vec k (elem t.vec k)

/-- R133, R141: under `REF_CR` with finite input, `DCT_INV` leaves in every element of `VEC` the exact type-III sum rounded
once, and changes nothing else but `CODE`. -/
def Obligations.InverseTransformCorrectlyRounded : Prop :=
  ∀ s : State, s.wf = true → s.cfg.transform = .refCr → AllFinite s.vec →
    ∃ t, exec .dctInv s = .next t ∧ t = { s with vec := t.vec, code := .normal } ∧ t.vec.length = s.cfg.m
      ∧ ∀ n < s.cfg.m, IsInverseElement s.cfg.m s.vec n (elem t.vec n)

/-- R133, R224: under `REF_CR`, when some input element of a transform is an infinity or a NaN, every output element is
`NAN_OUT`; so a cycle whose history or driven block holds one leaves `NAN_OUT` in all of `IO` and `TAIL`, the driven block
in `HIST` and the undriven one in `DRY`, whatever the control values. A block of NaNs keeps `IO` and `TAIL` all NaN, so while
the host does not rewrite `IO` they stay NaN, cycle after cycle, and `RESET` ends it. That R224's "stays NaN until a reset"
means such runs, and that `TAIL` is R158's in every state, is the model's reading (log entry 16). -/
def Obligations.NonFiniteInputGivesNanOut : Prop :=
  (∀ s : State, s.cfg.transform = .refCr → (∃ w ∈ s.vec, F32.isFinite w = false) →
      exec .dctFwd s = .next { s with vec := List.replicate s.cfg.m s.cfg.nanOut, code := .normal }
        ∧ exec .dctInv s = .next { s with vec := List.replicate s.cfg.m s.cfg.nanOut, code := .normal })
    ∧ (∀ (s : State) (ch : Nat), s.wf = true → s.cfg.transform = .refCr → ch < s.cfg.c →
      (∃ i < s.cfg.n, F32.isFinite (elem (channelAt s ch).hist i) = false
        ∨ F32.isFinite (F32.mul s.cfg.nanOut (elem (channelAt s ch).io i) (elem s.frame.drive i)) = false) →
      ∃ t, exec (.procBlock ch s.cfg.n) s = .next t ∧ t.code = .normal
        ∧ (channelAt t ch).io = List.replicate s.cfg.n s.cfg.nanOut
        ∧ (channelAt t ch).tail = List.replicate s.cfg.n s.cfg.nanOut
        ∧ (channelAt t ch).dry = (channelAt s ch).io
        ∧ (channelAt t ch).hist.length = s.cfg.n
        ∧ ∀ i < s.cfg.n, elem (channelAt t ch).hist i
            = F32.mul s.cfg.nanOut (elem (channelAt s ch).io i) (elem s.frame.drive i))
    ∧ (∀ (s : State) (ch : Nat), s.wf = true → s.cfg.transform = .refCr → ch < s.cfg.c →
      (∀ i < s.cfg.n, F32.isNaN (elem (channelAt s ch).io i) = true) →
      ∃ t u, exec (.procBlock ch s.cfg.n) s = .next t ∧ exec .reset t = .next u
        ∧ (∀ i < s.cfg.n, F32.isNaN (elem (channelAt t ch).io i) = true ∧ F32.isNaN (elem (channelAt t ch).tail i) = true)
        ∧ (channelAt u ch).tail = List.replicate s.cfg.n F32.posZero)

/-- R134 property 3, R135: every transform maps zeros of either sign to zeros; `REF_CR` gives `+0.0` (R14). -/
def Obligations.ZeroVectorTransformsToZero : Prop :=
  ∀ s : State, s.wf = true → AllZero s.vec →
    ∃ t u, exec .dctFwd s = .next t ∧ exec .dctInv s = .next u
      ∧ t = { s with vec := t.vec, code := .normal } ∧ u = { s with vec := u.vec, code := .normal }
      ∧ t.vec.length = s.cfg.m ∧ u.vec.length = s.cfg.m ∧ AllZero t.vec ∧ AllZero u.vec
      ∧ (s.cfg.transform = .refCr →
          t.vec = List.replicate s.cfg.m F32.posZero ∧ u.vec = List.replicate s.cfg.m F32.posZero)

/-- R136, R134 properties 1 and 2: for every configured transform the commands complete, and the result is a list of `M`
elements that depends on the configuration and `VEC` alone; with a legal transform other than `REF_CR`, `DCT_FWD` then
`DCT_INV` brings a finite `VEC` back within `1e-5` of its largest magnitude. -/
def Obligations.TransformReadsOnlyVector : Prop :=
  (∀ s s' : State, s.cfg = s'.cfg → s.vec = s'.vec →
      (∃ v, v.length = s.cfg.m ∧ exec .dctFwd s = .next { s with vec := v, code := .normal }
          ∧ exec .dctFwd s' = .next { s' with vec := v, code := .normal })
        ∧ (∃ v, v.length = s.cfg.m ∧ exec .dctInv s = .next { s with vec := v, code := .normal }
          ∧ exec .dctInv s' = .next { s' with vec := v, code := .normal }))
    ∧ ∀ s : State, s.wf = true → Legal s.cfg → s.cfg.transform ≠ .refCr → AllFinite s.vec →
      ∃ t u, exec .dctFwd s = .next t ∧ exec .dctInv t = .next u ∧ u.vec.length = s.vec.length
        ∧ ∀ i < s.vec.length, F32.isFinite (elem u.vec i) = true
          ∧ |F32.toRat (elem u.vec i) - F32.toRat (elem s.vec i)| ≤ 1 / 100000 * maxAbs s.vec

/-! ### Overlap-add wrapper (41_overlap_add.md) -/

/-- R150: for every legal block length the default window is `sin(π·i / (2M+1))²` rounded once. -/
def Obligations.DefaultWindowCorrectlyRounded : Prop :=
  ∀ n ∈ [2, 4, 8, 16, 32, 64, 128, 256, 512, 1024, 2048], ∀ curves : Curves,
    (Config.standard n 2 curves).w.length = 2 * n
      ∧ ∀ i < 2 * n, IsRnd32 (Real.sin (Real.pi * i / (2 * (2 * n) + 1)) ^ 2) (elem (Config.standard n 2 curves).w i)

/-- R156, R170: `MDCT` with legal operands leaves `FWD_M(HIST ++ IO)` in `VEC` and the block in `HIST`, and changes nothing
else but `CODE`. -/
def Obligations.MdctTransformsHistoryAndBlock : Prop :=
  ∀ (s : State) (ch len : Nat), s.wf = true → ch < s.cfg.c → len = s.cfg.n →
    ∃ t, exec (.mdct ch len) s = .next t
      ∧ t.vec = fwdM s.cfg ((channelAt s ch).hist ++ (channelAt s ch).io)
      ∧ channelAt t ch = { channelAt s ch with hist := (channelAt s ch).io }
      ∧ (∀ c, c ≠ ch → channelAt t c = channelAt s c)
      ∧ t.channels.length = s.channels.length
      ∧ t = { s with vec := t.vec, channels := t.channels, code := .normal }

/-- R158, R171: `IMDCT` with legal operands leaves `fl(fl(y[i]·W[i]) + TAIL[i])` in `IO`, `fl(fl(y[i+N]·W[i+N])·W[i+N])` in
`TAIL`, with `y = INV_M(VEC)`, and changes nothing else but `CODE`. -/
def Obligations.ImdctWindowsAndOverlaps : Prop :=
  ∀ (s : State) (ch len : Nat), s.wf = true → ch < s.cfg.c → len = s.cfg.n →
    ∃ t, exec (.imdct ch len) s = .next t
      ∧ (channelAt t ch).io.length = s.cfg.n ∧ (channelAt t ch).tail.length = s.cfg.n
      ∧ (∀ i < s.cfg.n,
          elem (channelAt t ch).io i
            = F32.add s.cfg.nanOut (F32.mul s.cfg.nanOut (elem (invM s.cfg s.vec) i) (elem s.cfg.w i))
                (elem (channelAt s ch).tail i)
          ∧ elem (channelAt t ch).tail i
            = F32.mul s.cfg.nanOut
                (F32.mul s.cfg.nanOut (elem (invM s.cfg s.vec) (i + s.cfg.n)) (elem s.cfg.w (i + s.cfg.n)))
                (elem s.cfg.w (i + s.cfg.n)))
      ∧ (channelAt t ch).hist = (channelAt s ch).hist ∧ (channelAt t ch).dry = (channelAt s ch).dry
      ∧ (∀ c, c ≠ ch → channelAt t c = channelAt s c)
      ∧ t.channels.length = s.channels.length
      ∧ t = { s with channels := t.channels, code := .normal }

/-! ### Distortion stage (42_distortion.md) -/

/-- R180, R190: `CRUNCH` is the identity at `±0.0`; otherwise there are a bound `b` and a gain `g`, the configured curves'
values when the control lies in `(0, 1]`, by which every coefficient is clamped and scaled. Outside `(0, 1]` nothing is
said of `b` and `g` (free values, log entry 4). The draw counter is the model's own (log entry 4). -/
def Obligations.CrunchClampsAndScales : Prop :=
  ∀ s : State,
    (F32.eq s.crunchVal F32.posZero = true → exec .crunch s = .next { s with code := .normal })
    ∧ (F32.eq s.crunchVal F32.posZero = false → ∃ b g : Word,
        (F32.inUnit s.crunchVal = true → b = curveIn s.cfg .b s.crunchVal ∧ g = curveIn s.cfg .g s.crunchVal)
        ∧ exec .crunch s = .next
            { s with
              vec := s.vec.map (fun x => F32.mul s.cfg.nanOut
                (if F32.lt x (F32.neg b) then F32.neg b else if F32.lt b x then b else x) g)
              code := .normal
              draws := if F32.inUnit s.crunchVal then s.draws else s.draws + 1 })

/-- R183: with a control in `(0, 1]` the bound is finite and positive and the gain finite and at least 1, every coefficient
that is not NaN is clamped into `[-B, B]`, its result has magnitude at most `fl(B·G)`, and a coefficient already inside is
only scaled; at `±0.0` nothing changes. -/
def Obligations.CrunchBoundsCoefficients : Prop :=
  ∀ s : State, s.wf = true →
    (F32.eq s.crunchVal F32.posZero = true → exec .crunch s = .next { s with code := .normal })
    ∧ (F32.inUnit s.crunchVal = true →
        ∃ t, exec .crunch s = .next t ∧ t.vec.length = s.vec.length
          ∧ let b := curveIn s.cfg .b s.crunchVal
            let g := curveIn s.cfg .g s.crunchVal
            (F32.isFinite b = true ∧ F32.lt F32.posZero b = true) ∧ (F32.isFinite g = true ∧ F32.le F32.one g = true)
              ∧ ∀ j < s.vec.length, F32.isNaN (elem s.vec j) = false →
                let x := elem s.vec j
                let c := clamp x (F32.neg b) b
                elem t.vec j = F32.mul s.cfg.nanOut c g
                  ∧ F32.le (F32.neg b) c = true ∧ F32.le c b = true
                  ∧ F32.le (elem t.vec j &&& 0x7FFFFFFF#32) (F32.mul s.cfg.nanOut b g) = true
                  ∧ (F32.le (F32.neg b) x = true → F32.le x b = true → elem t.vec j = F32.mul s.cfg.nanOut x g))

/-- R182, R186, R185: the curves of every legal build: inside `(0, 1]` their values are finite, `B`, `Q` and `GZ` positive and
`G` at least 1; `B` and `Q` do not rise and `G` does not fall; `Q_MIN = Q(1.0)` is the least value of `Q`; and `B`, `G`, `Q`
are each the binary32 rounding of a continuous real function. That `GZ` is positive below `TZ` too, where nothing reads it, is
the model's choice (log entry 3). -/
def Obligations.CurvesKeepTheirRules : Prop :=
  ∀ cfg : Config, cfg.wf = true →
    (∀ x, F32.inUnit x = true →
      (F32.isFinite (curveIn cfg .b x) = true ∧ F32.lt F32.posZero (curveIn cfg .b x) = true)
        ∧ (F32.isFinite (curveIn cfg .g x) = true ∧ F32.le F32.one (curveIn cfg .g x) = true)
        ∧ (F32.isFinite (curveIn cfg .q x) = true ∧ F32.lt F32.posZero (curveIn cfg .q x) = true)
        ∧ (F32.isFinite (curveIn cfg .gz x) = true ∧ F32.lt F32.posZero (curveIn cfg .gz x) = true))
    ∧ (∀ x y, F32.inUnit x = true → F32.inUnit y = true → F32.le x y = true →
      F32.le (curveIn cfg .b y) (curveIn cfg .b x) = true
        ∧ F32.le (curveIn cfg .g x) (curveIn cfg .g y) = true
        ∧ F32.le (curveIn cfg .q y) (curveIn cfg .q x) = true)
    ∧ (∀ x, F32.inUnit x = true → F32.le (qMin cfg) (curveIn cfg .q x) = true)
    ∧ ∀ k ∈ [Curve.b, Curve.g, Curve.q], ∃ f : ℝ → ℝ, ContinuousOn f (Set.Ioc 0 1)
      ∧ ∀ x, F32.inUnit x = true → IsRnd32 (f ((F32.toRat x : ℚ) : ℝ)) (curveIn cfg k x)

/-- R181: the clamp returns one of its operands' bit patterns: a NaN coefficient and any coefficient under a NaN bound are
returned unchanged, a coefficient below the lower bound becomes it, and a zero inside the bounds keeps its sign. -/
def Obligations.ClampReturnsAnOperand : Prop :=
  ∀ c b : Word,
    (clamp c (F32.neg b) b = c ∨ clamp c (F32.neg b) b = F32.neg b ∨ clamp c (F32.neg b) b = b)
      ∧ (F32.isNaN c = true → clamp c (F32.neg b) b = c)
      ∧ (F32.isNaN b = true → clamp c (F32.neg b) b = c)
      ∧ (F32.lt c (F32.neg b) = true → clamp c (F32.neg b) b = F32.neg b)
      ∧ (F32.le F32.posZero b = true → F32.isZero c = true → clamp c (F32.neg b) b = c)

/-- R184, R191: `CRUSH` is the identity at `±0.0`; otherwise there are a step count `q` and a gain `gz`, the configured
curves' values when the control lies in `(0, 1]`, by which every coefficient is quantized and, when the compensation is
enabled and the control exceeds `TZ`, scaled. Outside `(0, 1]` nothing is said of them (free values, log entry 4). The draw
counter is the model's own (log entry 4). -/
def Obligations.CrushQuantizes : Prop :=
  ∀ s : State,
    (F32.eq s.crushVal F32.posZero = true → exec .crush s = .next { s with code := .normal })
    ∧ (F32.eq s.crushVal F32.posZero = false → ∃ q gz : Word,
        (F32.inUnit s.crushVal = true → q = curveIn s.cfg .q s.crushVal ∧ gz = curveIn s.cfg .gz s.crushVal)
        ∧ exec .crush s = .next
            { s with
              vec := s.vec.map (fun x =>
                let y := F32.div s.cfg.nanOut (F32.roundHalfAway (F32.mul s.cfg.nanOut x q)) q
                if s.cfg.crushCompEn = true ∧ F32.lt s.cfg.tz s.crushVal = true
                then F32.mul s.cfg.nanOut y gz else y)
              code := .normal
              draws := if F32.inUnit s.crushVal then s.draws else s.draws + 1 })

/-- R187: `CRUSH` is the identity at `±0.0`; with a control in `(0, 1]` and no compensation the step count is finite and
positive, and every result is `fl(round_half_away(fl(x·q)) / q)`: a quantization level `fl(n / q)` with `|n| ≤ 2^23`, or,
where the product is at least `2^23` in magnitude, infinite or NaN, the product divided back; products below one half
collapse to a zero with the coefficient's sign and infinite ones stay infinite. With a control of 1 the step count is
`Q_MIN`, which no control in `(0, 1]` undercuts: the grid is the coarsest. -/
def Obligations.CrushLevelsOfTheGrid : Prop :=
  ∀ s : State, s.wf = true →
    (F32.eq s.crushVal F32.posZero = true → exec .crush s = .next { s with code := .normal })
    ∧ (F32.inUnit s.crushVal = true → s.cfg.crushCompEn = false →
        ∃ t, exec .crush s = .next t ∧ t.vec.length = s.vec.length
          ∧ F32.isFinite (curveIn s.cfg .q s.crushVal) = true
          ∧ F32.lt F32.posZero (curveIn s.cfg .q s.crushVal) = true
          ∧ F32.le (qMin s.cfg) (curveIn s.cfg .q s.crushVal) = true
          ∧ (s.crushVal = F32.one → curveIn s.cfg .q s.crushVal = qMin s.cfg)
          ∧ ∀ j < s.vec.length,
            let q := curveIn s.cfg .q s.crushVal
            let x := elem s.vec j
            let p := F32.mul s.cfg.nanOut x q
            let y := elem t.vec j
            y = F32.div s.cfg.nanOut (F32.roundHalfAway p) q
              ∧ (F32.isFinite p = true → |F32.toRat p| < 2 ^ 23 →
                ∃ n : ℤ, |n| ≤ 2 ^ 23 ∧ F32.toRat (F32.roundHalfAway p) = n
                  ∧ (n ≠ 0 → IsRnd32 (((n : ℚ) / F32.toRat q : ℚ) : ℝ) y))
              ∧ (F32.isFinite p = false ∨ 2 ^ 23 ≤ |F32.toRat p| → y = F32.div s.cfg.nanOut p q)
              ∧ (F32.isFinite p = true → |F32.toRat p| < 1 / 2 → y = F32.pack (F32.sign x) 0)
              ∧ (F32.isInf p = true → y = F32.pack (F32.sign x) F32.infMag))

/-- R188, R192: `DISTORT` equals `CRUNCH` followed by `CRUSH` with the same register values. -/
def Obligations.DistortIsCrunchThenCrush : Prop :=
  ∀ s : State, ∃ t u, exec .crunch s = .next t ∧ exec .crush t = .next u ∧ exec .distort s = .next u

/-! ### Channel processor pipeline (43_channel_pipeline.md) -/

/-- R225, R226, R230: `PROC_BLOCK` with legal operands runs the seven steps of the cycle, sample by sample, leaves the driven
block in `HIST` and the undriven one in `DRY`, and changes nothing of another channel, of `VEC` or of the frame. -/
def Obligations.ProcBlockRunsTheCycle : Prop :=
  ∀ (s : State) (ch len : Nat), s.wf = true → ch < s.cfg.c → len = s.cfg.n →
    ∃ t d, exec (.procBlock ch len) s = .next t
      ∧ d.length = s.cfg.n
      ∧ (∀ i < s.cfg.n, elem d i = F32.mul s.cfg.nanOut (elem (channelAt s ch).io i) (elem s.frame.drive i))
      ∧ (channelAt t ch).hist = d
      ∧ (channelAt t ch).dry = (channelAt s ch).io
      ∧ (channelAt t ch).io.length = s.cfg.n ∧ (channelAt t ch).tail.length = s.cfg.n
      ∧ (let nan := s.cfg.nanOut
         let y := invM s.cfg (distortStage s.cfg (elem s.frame.crunch s.cfg.rep) (elem s.frame.crush s.cfg.rep) s.draws
           (fwdM s.cfg ((channelAt s ch).hist ++ d)))
         ∀ i < s.cfg.n,
          (let wet := F32.add nan (F32.mul nan (elem y i) (elem s.cfg.w i)) (elem (channelAt s ch).tail i)
           elem (channelAt t ch).io i
            = F32.mul nan
                (F32.add nan (F32.mul nan wet (elem s.frame.mix i))
                  (F32.mul nan (elem (channelAt s ch).dry i) (F32.sub nan F32.one (elem s.frame.mix i))))
                (elem s.frame.gain i))
          ∧ elem (channelAt t ch).tail i
            = F32.mul nan (F32.mul nan (elem y (i + s.cfg.n)) (elem s.cfg.w (i + s.cfg.n)))
                (elem s.cfg.w (i + s.cfg.n)))
      ∧ (∀ c, c ≠ ch → channelAt t c = channelAt s c)
      ∧ t.channels.length = s.channels.length
      ∧ t = { s with channels := t.channels, code := .normal, draws := t.draws }

/-- R234, R236: `PROC_ALL` with at least `C` channels presented runs one cycle on every channel of the block, channel 0 first,
and no other. -/
def Obligations.ProcAllRunsEveryChannel : Prop :=
  ∀ (s : State) (count len : Nat), s.wf = true → s.cfg.c ≤ count → len = s.cfg.n →
    (s.cfg.c = 1 → ∃ t, exec (.procBlock 0 len) s = .next t ∧ exec (.procAll count len) s = .next t)
      ∧ (s.cfg.c = 2 → ∃ t u, exec (.procBlock 0 len) s = .next t ∧ exec (.procBlock 1 len) t = .next u
          ∧ exec (.procAll count len) s = .next u)

/-- R235: with control values in the contract the order of the channels is not observable. -/
def Obligations.ChannelOrderUnobservable : Prop :=
  ∀ (s : State) (count len : Nat), s.wf = true → s.cfg.c = 2 → 2 ≤ count → len = s.cfg.n →
    controlInContract (elem s.frame.crunch s.cfg.rep) = true →
    controlInContract (elem s.frame.crush s.cfg.rep) = true →
    ∃ t u, exec (.procBlock 1 len) s = .next t ∧ exec (.procBlock 0 len) t = .next u
      ∧ exec (.procAll count len) s = .next u

/-- R232: a cycle's result is a function of the channel's arrays, the Parameter Frame and the configuration: two states that
agree on these, whatever else they hold, leave the same channel. Stated for control values in the contract, since outside
it the curves are free draws (log entry 4). -/
def Obligations.CycleReadsOnlyItsInputs : Prop :=
  ∀ (s s' t t' : State) (ch len : Nat), s.wf = true → s'.wf = true → s.cfg = s'.cfg → s.frame = s'.frame →
    channelAt s ch = channelAt s' ch →
    controlInContract (elem s.frame.crunch s.cfg.rep) = true →
    controlInContract (elem s.frame.crush s.cfg.rep) = true →
    exec (.procBlock ch len) s = .next t → exec (.procBlock ch len) s' = .next t' →
    channelAt t ch = channelAt t' ch

/-- R39: of `CRUNCH` and `CRUSH` only element `REP` is read by any command. -/
def Obligations.OnlyRepresentativeElementsRead : Prop :=
  ∀ (i : Instr) (s t : State) (cr cs : List Word), elem cr s.cfg.rep = elem s.frame.crunch s.cfg.rep →
    elem cs s.cfg.rep = elem s.frame.crush s.cfg.rep → exec i s = .next t →
    exec i { s with frame := { s.frame with crunch := cr, crush := cs } }
      = .next { t with frame := { t.frame with crunch := cr, crush := cs } }

/-- R229: where the mix is 0 and the wet sample finite, the output is the previous block's sample times the gain, whatever the
transform, the window and the curves; a zero sample gives a zero of either sign times the gain. -/
def Obligations.DryOnlyOutputIsDelayedInput : Prop :=
  ∀ (s t : State) (ch i : Nat), s.wf = true → ch < s.cfg.c → i < s.cfg.n →
    exec (.procBlock ch s.cfg.n) s = .next t →
    F32.isZero (elem s.frame.mix i) = true →
    F32.isFinite (elem (olaInv s.cfg (channelAt s ch).tail (cycleCoeffs s.cfg s.frame s.draws (channelAt s ch))) i)
      = true →
    F32.isNaN (elem (channelAt s ch).dry i) = false →
    ∃ v, F32.eq v (elem (channelAt s ch).dry i) = true
      ∧ (F32.isZero (elem (channelAt s ch).dry i) = false → v = elem (channelAt s ch).dry i)
      ∧ elem (channelAt t ch).io i = F32.mul s.cfg.nanOut v (elem s.frame.gain i)

/-- R231: while a channel's block and Channel State are all zeros, the frame meets the contract and the window is finite, a
cycle outputs zeros and leaves Channel State all zeros, whatever the transform and the curves. -/
def Obligations.ZeroInputStaysSilent : Prop :=
  ∀ (s : State) (ch : Nat), s.wf = true → ch < s.cfg.c →
    AllZero (channelAt s ch).io → AllZero (channelAt s ch).hist → AllZero (channelAt s ch).tail →
    AllZero (channelAt s ch).dry →
    frameInContract s.cfg s.frame = true → AllFinite s.cfg.w →
    ∃ t, exec (.procBlock ch s.cfg.n) s = .next t ∧ t.code = .normal
      ∧ AllZero (channelAt t ch).io ∧ AllZero (channelAt t ch).hist ∧ AllZero (channelAt t ch).tail
      ∧ AllZero (channelAt t ch).dry

/-- R301: driving the block in the host and running `MDCT`, `DISTORT`, `IMDCT` leaves `HIST`, `TAIL` and the wet block of the
channel as one `PROC_BLOCK` computes them; the host's crossfade and gain of that wet block give `PROC_BLOCK`'s output,
and `DRY` is not updated. -/
def Obligations.CycleComposedFromPieces : Prop :=
  ∀ (s : State) (ch : Nat) (d : List Word), s.wf = true → ch < s.cfg.c → d.length = s.cfg.n →
    (∀ i < s.cfg.n, elem d i = F32.mul s.cfg.nanOut (elem (channelAt s ch).io i) (elem s.frame.drive i)) →
    ∃ t1 t2 t3 u,
      exec (.mdct ch s.cfg.n) (setChannel ch { channelAt s ch with io := d } s) = .next t1
      ∧ exec .distort
          { t1 with
            crunchVal := elem s.frame.crunch s.cfg.rep
            crushVal := elem s.frame.crush s.cfg.rep } = .next t2
      ∧ exec (.imdct ch s.cfg.n) t2 = .next t3
      ∧ exec (.procBlock ch s.cfg.n) s = .next u
      ∧ (channelAt t3 ch).hist = (channelAt u ch).hist
      ∧ (channelAt t3 ch).tail = (channelAt u ch).tail
      ∧ (channelAt t3 ch).dry = (channelAt s ch).dry
      ∧ ∀ i < s.cfg.n, elem (channelAt u ch).io i
          = F32.mul s.cfg.nanOut
              (F32.add s.cfg.nanOut (F32.mul s.cfg.nanOut (elem (channelAt t3 ch).io i) (elem s.frame.mix i))
                (F32.mul s.cfg.nanOut (elem (channelAt s ch).dry i)
                  (F32.sub s.cfg.nanOut F32.one (elem s.frame.mix i))))
              (elem s.frame.gain i)

/-! ### System commands (44_system.md) -/

/-- R250: `NOP` sets `CODE` to `NORMAL` and changes nothing else but `CMD`, which holds 0; the opcode with any other bit set is
illegal. -/
def Obligations.NopOnlyClearsCode : Prop :=
  ∀ (s : State) (w : Word),
    exec .nop s = .next { s with code := .normal }
      ∧ perform (.write 0x0001#16 0x00000000#32) s = .next { s with cmd := 0#32, code := .normal }
      ∧ (w.toNat % 256 = 0 → w.toNat / 256 ≠ 0 →
          perform (.write 0x0001#16 w) s = .next { s with cmd := w, code := .errIllegalCmd, sticky := true })

/-- R252, R292: `RESET` gives every channel's `HIST`, `TAIL` and `DRY`, and `STATUS`, the values block reset gives them, and
leaves `CRUNCH_VAL`, `CRUSH_VAL`, the frame, `VEC` and `IO` as they are. -/
def Obligations.ResetRestoresConstructionState : Prop :=
  ∀ s : State, s.wf = true →
    ∃ t, exec .reset s = .next t
      ∧ (∀ c < s.cfg.c,
          (channelAt t c).hist = List.replicate s.cfg.n F32.posZero
            ∧ (channelAt t c).tail = List.replicate s.cfg.n F32.posZero
            ∧ (channelAt t c).dry = List.replicate s.cfg.n F32.posZero
            ∧ (channelAt t c).io = (channelAt s c).io
            ∧ (channelAt t c).hidden = (channelAt (State.resetOf s.cfg) c).hidden)
      ∧ portRead t 0x0002#16 = 0#32 ∧ portRead (State.resetOf s.cfg) 0x0002#16 = 0#32
      ∧ t.channels.length = s.channels.length
      ∧ t = { s with channels := t.channels, code := .normal, sticky := false }

/-! ### Whole-machine rules -/

/-- R280: a hang is impossible; every command completes, in every state. -/
def Obligations.EveryCommandCompletes : Prop :=
  ∀ (i : Instr) (s : State), ∃ t, exec i s = .next t

/-- R49: which command writes which piece of state; nothing else changes. -/
def Obligations.CommandsWriteOnlyTheirState : Prop :=
  ∀ (i : Instr) (s t : State), exec i s = .next t →
    t.cfg = s.cfg ∧ t.cmd = s.cmd ∧ t.crunchVal = s.crunchVal ∧ t.crushVal = s.crushVal ∧ t.frame = s.frame
      ∧ t.pending = s.pending ∧ t.replies = s.replies ∧ t.channels.length = s.channels.length
      ∧ (writesVec i = false → t.vec = s.vec)
      ∧ ∀ c, (writesIo c i = false → (channelAt t c).io = (channelAt s c).io)
          ∧ (writesHist c i = false → (channelAt t c).hist = (channelAt s c).hist)
          ∧ (writesTail c i = false → (channelAt t c).tail = (channelAt s c).tail)
          ∧ (writesDry c i = false → (channelAt t c).dry = (channelAt s c).dry)

/-- R49, seen at the host port: after a command every word address reads as before, except `STATUS`, `VEC` when the command
writes it, and `IO[c]` when the command writes it. -/
def Obligations.CommandsKeepUnwrittenWords : Prop :=
  ∀ (i : Instr) (s t : State) (a : WordAddr), exec i s = .next t → a ≠ 0x0002#16 →
    (a.toNat / 4096 = 6 → writesVec i = false) →
    (a.toNat / 4096 = 8 → writesIo 0 i = false) →
    (a.toNat / 4096 = 9 → writesIo 1 i = false) →
    portRead t a = portRead s a

/-- R9: N, C and the other build parameters are never changed by a step. -/
def Obligations.ConfigurationNeverChanges : Prop :=
  ∀ s t : State, step s = .next t → t.cfg = s.cfg

/-- R8, R38 to R45: every step keeps the shape of the state: the legal configuration and the length of every array. -/
def Obligations.StepKeepsWellFormed : Prop :=
  ∀ s t : State, s.wf = true → step s = .next t → t.wf = true

/-- The state after block reset is well formed, for every legal configuration. -/
def Obligations.BlockResetWellFormed : Prop :=
  State.reset.wf = true ∧ ∀ cfg : Config, cfg.wf = true → (State.resetOf cfg).wf = true

/-- R51, R290: after block reset `CMD` and `STATUS` are 0 and every `HIST`, `TAIL` and `DRY` is `+0.0`; nothing is said of the
values R51 leaves unspecified (log entry 7). -/
def Obligations.BlockResetValues : Prop :=
  ∀ (cfg : Config) (c : Nat), c < cfg.c →
    portRead (State.resetOf cfg) 0x0001#16 = 0#32 ∧ portRead (State.resetOf cfg) 0x0002#16 = 0#32
      ∧ portRead (State.resetOf cfg) 0x0000#16 = cfgWord cfg
      ∧ (channelAt (State.resetOf cfg) c).hist = List.replicate cfg.n F32.posZero
      ∧ (channelAt (State.resetOf cfg) c).tail = List.replicate cfg.n F32.posZero
      ∧ (channelAt (State.resetOf cfg) c).dry = List.replicate cfg.n F32.posZero
end

