-- ==== Sys2Proof/Laws/Binary32.lean ====
section
/-! SUPPORT. What the rounding of `Machine/Binary32.lean` does: codes are ordered like the values they denote, and
`F32.roundMag` gives the code nearest an exact quotient. -/

namespace Sys2Proof

/-- The value of a code whose binade is `q` and whose significand is `k`. -/
theorem F32.codeUnits_binade {q k : Nat} (hk : k ≤ 2 ^ 24) (h : q = 0 ∨ 2 ^ 23 ≤ k) :
    F32.codeUnits (q * 2 ^ 23 + k) = k * 2 ^ q := by
  unfold F32.codeUnits
  rcases Nat.lt_or_ge (q * 2 ^ 23 + k) (2 ^ 23) with hlt | hge
  · rw [if_pos hlt]
    have : q = 0 := by omega
    subst this; simp
  · rw [if_neg (by omega)]
    rcases Nat.lt_or_ge k (2 ^ 23) with h1 | h1
    · omega
    · rcases Nat.lt_or_ge k (2 ^ 24) with h2 | h2
      · have hm : (q * 2 ^ 23 + k) % 2 ^ 23 = k - 2 ^ 23 := by omega
        have hd : (q * 2 ^ 23 + k) / 2 ^ 23 - 1 = q := by omega
        rw [hm, hd, Nat.add_sub_cancel' h1]
      · have hk' : k = 2 ^ 24 := by omega
        have hm : (q * 2 ^ 23 + k) % 2 ^ 23 = 0 := by omega
        have hd : (q * 2 ^ 23 + k) / 2 ^ 23 - 1 = q + 1 := by omega
        rw [hm, hd, hk', pow_succ]; ring

/-- Every code has a binade and a significand, and the next code has the next significand. -/
theorem F32.code_split (c : Nat) :
    ∃ q k, c = q * 2 ^ 23 + k ∧ k < 2 ^ 24 ∧ (q = 0 ∨ 2 ^ 23 ≤ k) := by
  rcases Nat.lt_or_ge c (2 ^ 23) with h | h
  · exact ⟨0, c, by omega, by omega, Or.inl rfl⟩
  · exact ⟨c / 2 ^ 23 - 1, 2 ^ 23 + c % 2 ^ 23, by omega, by omega, Or.inr (by omega)⟩

theorem F32.codeUnits_lt_succ (c : Nat) : F32.codeUnits c < F32.codeUnits (c + 1) := by
  obtain ⟨q, k, rfl, hk, h⟩ := F32.code_split c
  rw [F32.codeUnits_binade (by omega) h, Nat.add_assoc, F32.codeUnits_binade (by omega) (by omega)]
  exact Nat.mul_lt_mul_of_pos_right (by omega) (by positivity)

theorem F32.codeUnits_strictMono : StrictMono F32.codeUnits := strictMono_nat_of_lt_succ F32.codeUnits_lt_succ

theorem F32.codeUnits_inj {a b : Nat} : F32.codeUnits a = F32.codeUnits b ↔ a = b :=
  F32.codeUnits_strictMono.injective.eq_iff

@[simp] theorem F32.codeUnits_zero : F32.codeUnits 0 = 0 := rfl

/-- `c` is the code nearest the real `x ≥ 0` (in units of `2^-149`), ties to even, infinity on overflow. -/
def F32.RoundsTo (x : ℝ) (c : Nat) : Prop :=
  ∃ b, (F32.codeUnits b : ℝ) ≤ x ∧ x < F32.codeUnits (b + 1)
    ∧ c = min F32.infMag
        (if 2 * x < F32.codeUnits b + F32.codeUnits (b + 1)
            ∨ (2 * x = F32.codeUnits b + F32.codeUnits (b + 1) ∧ b % 2 = 0) then b else b + 1)

theorem F32.RoundsTo.mono {x y : ℝ} {c d : Nat} (hx : F32.RoundsTo x c) (hy : F32.RoundsTo y d) (h : x ≤ y) :
    c ≤ d := by
  obtain ⟨b, hb1, hb2, rfl⟩ := hx
  obtain ⟨e, he1, he2, rfl⟩ := hy
  have hbe : b < e + 1 := by
    have : (F32.codeUnits b : ℝ) < F32.codeUnits (e + 1) := lt_of_le_of_lt (hb1.trans h) he2
    exact F32.codeUnits_strictMono.lt_iff_lt.mp (by exact_mod_cast this)
  refine min_le_min_left _ ?_
  rcases Nat.lt_or_ge b e with hlt | hge
  · split <;> split <;> omega
  · have : b = e := by omega
    subst this
    split <;> split
    · exact le_rfl
    · omega
    · rename_i h1 h2
      exfalso; apply h1
      rcases h2 with h2 | ⟨h2, h3⟩
      · exact Or.inl (by linarith)
      · rcases lt_or_eq_of_le h with h4 | h4
        · exact Or.inl (by linarith)
        · exact Or.inr ⟨by linarith, h3⟩
    · exact le_rfl

theorem F32.RoundsTo.unique {x : ℝ} {c d : Nat} (hx : F32.RoundsTo x c) (hy : F32.RoundsTo x d) : c = d :=
  le_antisymm (hx.mono hy le_rfl) (hy.mono hx le_rfl)

theorem F32.le_codeUnits (c : Nat) : c ≤ F32.codeUnits c := F32.codeUnits_strictMono.le_apply

/-- Every real that is not negative lies between two consecutive codes. -/
theorem F32.exists_code {x : ℝ} (hx : 0 ≤ x) :
    ∃ b, (F32.codeUnits b : ℝ) ≤ x ∧ x < F32.codeUnits (b + 1) := by
  have hy : ∃ b, x < (F32.codeUnits (b + 1) : ℝ) := by
    refine ⟨⌊x⌋₊, (Nat.lt_floor_add_one x).trans_le ?_⟩
    exact_mod_cast F32.le_codeUnits (⌊x⌋₊ + 1)
  classical
  refine ⟨Nat.find hy, ?_, Nat.find_spec hy⟩
  rcases h : Nat.find hy with _ | n
  · simpa using hx
  · exact not_lt.mp (Nat.find_min hy (m := n) (by omega))

theorem F32.exists_roundsTo {x : ℝ} (hx : 0 ≤ x) : ∃ c, F32.RoundsTo x c := by
  obtain ⟨b, h1, h2⟩ := F32.exists_code hx
  exact ⟨_, b, h1, h2, rfl⟩

/-- Between two reals that round alike every real rounds alike. -/
theorem F32.RoundsTo.between {x y z : ℝ} {c : Nat} (hx : F32.RoundsTo x c) (hz : F32.RoundsTo z c)
    (hxy : x ≤ y) (hyz : y ≤ z) (hx0 : 0 ≤ x) : F32.RoundsTo y c := by
  obtain ⟨d, hy⟩ := F32.exists_roundsTo (hx0.trans hxy)
  rwa [le_antisymm (hy.mono hz hyz) (hx.mono hy hxy)] at hy

/-- `F32.roundMag num den` is the code nearest `num / den`. -/
theorem F32.roundMag_roundsTo (num den : Nat) (hden : 0 < den) :
    F32.RoundsTo ((num : ℝ) / den) (F32.roundMag num den) := by
  set n := num / den with hn
  set q := if n < 2 ^ 24 then 0 else Nat.log2 n - 23 with hq
  set d := den * 2 ^ q with hd
  have hd0 : 0 < d := by positivity
  set k := num / d with hk
  have hkn : k = n / 2 ^ q := by rw [hk, hd, hn, Nat.div_div_eq_div_mul]
  have hk24 : k < 2 ^ 24 ∧ (q = 0 ∨ 2 ^ 23 ≤ k) := by
    rcases Nat.lt_or_ge n (2 ^ 24) with h | h
    · have : q = 0 := by rw [hq, if_pos h]
      rw [hkn, this]; simp; omega
    · have hq' : q = Nat.log2 n - 23 := by rw [hq, if_neg (by omega)]
      have h0 : n ≠ 0 := by omega
      have h1 : 2 ^ Nat.log2 n ≤ n := Nat.log2_self_le h0
      have h2 : n < 2 ^ (Nat.log2 n + 1) := Nat.lt_log2_self
      have h3 : 24 ≤ Nat.log2 n := by
        by_contra hc
        have : n < 2 ^ 24 := lt_of_lt_of_le h2 (Nat.pow_le_pow_right (by omega) (by omega))
        omega
      have e1 : 2 ^ Nat.log2 n = 2 ^ 23 * 2 ^ q := by rw [← pow_add]; congr 1; omega
      have e2 : 2 ^ (Nat.log2 n + 1) = 2 ^ 24 * 2 ^ q := by rw [← pow_add]; congr 1; omega
      rw [hkn]
      refine ⟨(Nat.div_lt_iff_lt_mul (by positivity)).mpr (by omega), Or.inr ?_⟩
      exact (Nat.le_div_iff_mul_le (by positivity)).mpr (by omega)
  obtain ⟨hk1, hk2⟩ := hk24
  have u0 : F32.codeUnits (q * 2 ^ 23 + k) = k * 2 ^ q := F32.codeUnits_binade (by omega) hk2
  have u1 : F32.codeUnits (q * 2 ^ 23 + k + 1) = (k + 1) * 2 ^ q := by
    rw [Nat.add_assoc]; exact F32.codeUnits_binade (by omega) (by omega)
  have hdiv : d * k + num % d = num := Nat.div_add_mod num d
  have hmod : num % d < d := Nat.mod_lt _ hd0
  have hdR : (0 : ℝ) < den := by exact_mod_cast hden
  have hR : (num : ℝ) = den * 2 ^ q * k + (num % d : ℕ) := by
    rw [← hdiv]; push_cast [hd]; rw [Nat.mul_add_mod, Nat.mod_mod]
  have hmR : ((num % d : ℕ) : ℝ) < den * 2 ^ q := by
    have : ((num % d : ℕ) : ℝ) < (d : ℕ) := by exact_mod_cast hmod
    simpa [hd] using this
  have hm0 : (0 : ℝ) ≤ ((num % d : ℕ) : ℝ) := by positivity
  refine ⟨q * 2 ^ 23 + k, ?_, ?_, ?_⟩
  · rw [u0, le_div_iff₀ hdR]; push_cast
    have : (k : ℝ) * 2 ^ q * den = den * 2 ^ q * k := by ring
    linarith
  · rw [u1, div_lt_iff₀ hdR]; push_cast
    have : ((k : ℝ) + 1) * 2 ^ q * den = den * 2 ^ q * k + den * 2 ^ q := by ring
    linarith
  · have key : (2 * ((num : ℝ) / den) < F32.codeUnits (q * 2 ^ 23 + k) + F32.codeUnits (q * 2 ^ 23 + k + 1)
        ∨ (2 * ((num : ℝ) / den) = F32.codeUnits (q * 2 ^ 23 + k) + F32.codeUnits (q * 2 ^ 23 + k + 1)
            ∧ (q * 2 ^ 23 + k) % 2 = 0))
        ↔ (2 * (num % d) < d ∨ (2 * (num % d) = d ∧ k % 2 = 0)) := by
      have hpar : (q * 2 ^ 23 + k) % 2 = k % 2 := by omega
      have e : 2 * ((num : ℝ) / den) = 2 * k * 2 ^ q + 2 * ((num % d : ℕ) : ℝ) / den := by
        rw [hR]; field_simp
      have hdd : (d : ℝ) = den * 2 ^ q := by rw [hd]; push_cast; ring
      rw [u0, u1, hpar, e]
      push_cast
      have l1 : (2 * (k : ℝ) * 2 ^ q + 2 * ((num % d : ℕ) : ℝ) / den < k * 2 ^ q + (k + 1) * 2 ^ q)
          ↔ 2 * (num % d) < d := by
        have : (2 * (num % d) < d) ↔ (2 * ((num % d : ℕ) : ℝ) < (d : ℝ)) := by
          constructor <;> (intro h; exact_mod_cast h)
        rw [this, hdd]
        constructor
        · intro h
          have : 2 * ((num % d : ℕ) : ℝ) / den < 2 ^ q := by linarith
          rw [div_lt_iff₀ hdR] at this; linarith
        · intro h
          have : 2 * ((num % d : ℕ) : ℝ) / den < 2 ^ q := by rw [div_lt_iff₀ hdR]; linarith
          linarith
      have l2 : (2 * (k : ℝ) * 2 ^ q + 2 * ((num % d : ℕ) : ℝ) / den = k * 2 ^ q + (k + 1) * 2 ^ q)
          ↔ 2 * (num % d) = d := by
        have : (2 * (num % d) = d) ↔ (2 * ((num % d : ℕ) : ℝ) = (d : ℝ)) := by
          constructor <;> (intro h; exact_mod_cast h)
        rw [this, hdd]
        constructor
        · intro h
          have : 2 * ((num % d : ℕ) : ℝ) / den = 2 ^ q := by linarith
          rw [div_eq_iff hdR.ne'] at this; linarith
        · intro h
          have : 2 * ((num % d : ℕ) : ℝ) / den = 2 ^ q := by rw [div_eq_iff hdR.ne']; linarith
          linarith
      rw [l1, l2]
    unfold F32.roundMag
    simp only [← hn, ← hq, ← hd, ← hk]
    by_cases hc : (2 * (num % d) < d ∨ (2 * (num % d) = d ∧ k % 2 = 0))
    · rw [if_pos hc, if_pos (key.mpr hc)]
    · rw [if_neg hc, if_neg (fun h => hc (key.mp h)), Nat.add_assoc]

/-! The packed word. -/

theorem F32.toNat_pack {neg : Bool} {c : Nat} (h : c < 2 ^ 31) :
    (F32.pack neg c).toNat = (if neg then 2 ^ 31 else 0) + c := by
  unfold F32.pack
  rw [BitVec.toNat_ofNat, Nat.mod_eq_of_lt]
  cases neg <;> simp <;> omega

theorem F32.mag_pack {neg : Bool} {c : Nat} (h : c < 2 ^ 31) : F32.mag (F32.pack neg c) = c := by
  unfold F32.mag
  rw [F32.toNat_pack h]
  cases neg <;> simp <;> omega

theorem F32.sign_eq (w : Word) : F32.sign w = decide (2 ^ 31 ≤ w.toNat) := by
  have := w.isLt
  unfold F32.sign
  rw [Nat.testBit_eq_decide_div_mod_eq]
  congr 1
  apply propext
  omega

theorem F32.sign_pack {neg : Bool} {c : Nat} (h : c < 2 ^ 31) : F32.sign (F32.pack neg c) = neg := by
  rw [F32.sign_eq, F32.toNat_pack h]
  cases neg <;> simp <;> omega

theorem F32.pack_sign_mag (w : Word) : F32.pack (F32.sign w) (F32.mag w) = w := by
  have hw := w.isLt
  apply BitVec.eq_of_toNat_eq
  rw [F32.toNat_pack (by unfold F32.mag; omega), F32.sign_eq]
  unfold F32.mag
  simp only [decide_eq_true_eq]
  split <;> omega

theorem F32.mag_lt (w : Word) : F32.mag w < 2 ^ 31 := by unfold F32.mag; omega

theorem F32.roundMag_le (num den : Nat) : F32.roundMag num den ≤ F32.infMag := by
  unfold F32.roundMag; exact Nat.min_le_left _ _

theorem F32.RoundsTo.le {x : ℝ} {c : Nat} (h : F32.RoundsTo x c) : c ≤ F32.infMag := by
  obtain ⟨b, -, -, rfl⟩ := h; exact Nat.min_le_left _ _

theorem F32.units_pack {neg : Bool} {c : Nat} (h : c < 2 ^ 31) :
    F32.units (F32.pack neg c) = if neg then -(F32.codeUnits c : Int) else (F32.codeUnits c : Int) := by
  unfold F32.units; rw [F32.sign_pack h, F32.mag_pack h]

theorem F32.abs_units (w : Word) : |(F32.units w : ℝ)| = F32.codeUnits (F32.mag w) := by
  unfold F32.units
  split <;> simp

theorem F32.isFinite_iff (w : Word) : F32.isFinite w = true ↔ F32.mag w < F32.infMag := by
  unfold F32.isFinite; simp

theorem F32.cast_toRat (w : Word) : ((F32.toRat w : ℚ) : ℝ) = (F32.units w : ℝ) / 2 ^ 149 := by
  unfold F32.toRat; push_cast; rfl

theorem F32.maxUnits : F32.codeUnits (F32.infMag - 1) + F32.codeUnits F32.infMag
    = 2 * (33554431 * 2 ^ 103 * 2 ^ 149) := by
  decide

/-- A real that is nearest in the sense of `RoundsTo` and carries its sign is `rnd32` of it. -/
theorem isRnd32_of_roundsTo {r : ℝ} (hr : r ≠ 0) {c : Nat} {neg : Bool}
    (h : F32.RoundsTo (|r| * 2 ^ 149) c) (hneg : c ≠ 0 → (neg = true ↔ r < 0)) :
    IsRnd32 r (F32.pack neg c) := by
  have hcle := h.le
  have hc31 : c < 2 ^ 31 := lt_of_le_of_lt hcle (by decide)
  obtain ⟨b, hb1, hb2, hc⟩ := h
  have hmax : ((F32.codeUnits (F32.infMag - 1) + F32.codeUnits F32.infMag : ℕ) : ℝ)
      = 2 * (((2 : ℝ) ^ 128 - 2 ^ 103) * 2 ^ 149) := by
    rw [F32.maxUnits]; push_cast; ring
  have hp : (0 : ℝ) < 2 ^ 149 := by positivity
  -- overflow
  have hover : (2 : ℝ) ^ 128 - 2 ^ 103 ≤ |r| → c = F32.infMag := by
    intro ho
    have h2 : 2 * (((2 : ℝ) ^ 128 - 2 ^ 103) * 2 ^ 149) ≤ 2 * (|r| * 2 ^ 149) :=
      mul_le_mul_of_nonneg_left (mul_le_mul_of_nonneg_right ho hp.le) (by norm_num)
    rcases Nat.lt_or_ge b (F32.infMag - 1) with hlt | hge
    · exfalso
      have h3 : F32.codeUnits (b + 1) ≤ F32.codeUnits (F32.infMag - 1) :=
        F32.codeUnits_strictMono.monotone (by omega)
      have h4 : F32.codeUnits (F32.infMag - 1) < F32.codeUnits F32.infMag :=
        F32.codeUnits_strictMono (by decide)
      have h3' : (F32.codeUnits (b + 1) : ℝ) ≤ F32.codeUnits (F32.infMag - 1) := by exact_mod_cast h3
      have h4' : (F32.codeUnits (F32.infMag - 1) : ℝ) < F32.codeUnits F32.infMag := by exact_mod_cast h4
      push_cast at hmax
      linarith
    · rcases Nat.lt_or_ge b F32.infMag with hlt | hge'
      · have hb : b = F32.infMag - 1 := by omega
        have hb' : b + 1 = F32.infMag := by omega
        rw [hb'] at hc
        rw [hb] at hc
        push_cast at hmax
        rw [hmax, if_neg] at hc
        · rw [hc]; decide
        · rintro (h5 | ⟨-, h5⟩)
          · linarith
          · exact absurd h5 (by decide)
      · rw [hc]
        apply Nat.min_eq_left
        split <;> omega
  have hnz : c = F32.infMag → (neg = true ↔ r < 0) := fun h => hneg (by rw [h]; decide)
  unfold IsRnd32
  rw [if_neg hr]
  split
  · rename_i ho
    have hc' := hover (ho.trans (le_abs_self r))
    have : ¬ r < 0 := by
      have : (0 : ℝ) < 2 ^ 128 - 2 ^ 103 := by norm_num
      linarith
    have hn : neg = false := by
      cases neg with
      | false => rfl
      | true => exact absurd ((hnz hc').mp rfl) this
    rw [hc', hn]
  · rename_i ho1
    split
    · rename_i ho
      have : (0 : ℝ) < 2 ^ 128 - 2 ^ 103 := by norm_num
      have hlt : r < 0 := by linarith
      have hc' := hover (by rw [abs_of_neg hlt]; linarith)
      rw [hc', (hnz hc').mpr hlt]
    · rename_i ho2
      have habs : |r| < 2 ^ 128 - 2 ^ 103 := abs_lt.mpr ⟨by linarith, by linarith⟩
      have h2 : 2 * (|r| * 2 ^ 149) < 2 * (((2 : ℝ) ^ 128 - 2 ^ 103) * 2 ^ 149) :=
        mul_lt_mul_of_pos_left (mul_lt_mul_of_pos_right habs hp) (by norm_num)
      -- the bracket lies below the overflow threshold
      have hblt : b < F32.infMag := by
        by_contra hge
        have h3 : (F32.codeUnits F32.infMag : ℝ) ≤ F32.codeUnits b := by
          exact_mod_cast F32.codeUnits_strictMono.monotone (by omega)
        have h4 : (F32.codeUnits (F32.infMag - 1) : ℝ) < F32.codeUnits F32.infMag := by
          exact_mod_cast F32.codeUnits_strictMono (by decide : F32.infMag - 1 < F32.infMag)
        push_cast at hmax
        linarith
      have hclt : c < F32.infMag := by
        rcases Nat.lt_or_ge b (F32.infMag - 1) with hlt | hge
        · rw [hc]
          refine lt_of_le_of_lt (Nat.min_le_right _ _) ?_
          split <;> omega
        · have hb : b = F32.infMag - 1 := by omega
          have hb' : b + 1 = F32.infMag := by omega
          rw [hb'] at hc
          rw [hb] at hc
          push_cast at hmax
          rw [hmax, if_pos (Or.inl h2)] at hc
          rw [hc]; decide
      have hc' : c = if 2 * (|r| * 2 ^ 149) < F32.codeUnits b + F32.codeUnits (b + 1)
            ∨ (2 * (|r| * 2 ^ 149) = F32.codeUnits b + F32.codeUnits (b + 1) ∧ b % 2 = 0) then b else b + 1 := by
        rw [hc]
        refine Nat.min_eq_right ?_
        by_contra hcon
        have : c = F32.infMag := by rw [hc]; exact Nat.min_eq_left (by omega)
        omega
      refine ⟨(F32.isFinite_iff _).mpr (by rw [F32.mag_pack hc31]; exact hclt), ?_⟩
      intro v hv
      -- compare in units of 2^-149
      set x := |r| * 2 ^ 149 with hx
      have hrx : |r * 2 ^ 149| = x := by rw [abs_mul, abs_of_pos hp]
      have hdist : ∀ w : Word, |r - ((F32.toRat w : ℚ) : ℝ)| * 2 ^ 149 = |r * 2 ^ 149 - F32.units w| := by
        intro w
        rw [F32.cast_toRat, ← abs_of_pos hp, ← abs_mul, abs_of_pos hp]
        congr 1
        field_simp
      -- distance to the chosen word
      have hU : |r * 2 ^ 149 - F32.units (F32.pack neg c)| = |x - F32.codeUnits c| := by
        rw [F32.units_pack hc31]
        by_cases hc0 : c = 0
        · subst hc0
          simp [F32.codeUnits_zero, hrx]
          rw [abs_of_nonneg (by positivity : 0 ≤ x)]
        · rcases lt_or_gt_of_ne hr with hlt | hgt
          · rw [(hneg hc0).mpr hlt, hx, abs_of_neg hlt]
            simp only [if_true]
            push_cast
            rw [← abs_neg]; congr 1; ring
          · have hn : neg = false := by
              cases neg with
              | false => rfl
              | true => exact absurd ((hneg hc0).mp rfl) (by linarith)
            rw [hn, hx, abs_of_pos hgt]
            simp
      -- every other word is no nearer
      have hV : |x - F32.codeUnits (F32.mag v)| ≤ |r * 2 ^ 149 - F32.units v| := by
        rw [← hrx, ← F32.abs_units]
        exact abs_abs_sub_abs_le_abs_sub _ _
      have hcases : F32.mag v = c ∨ |x - F32.codeUnits c| < |x - F32.codeUnits (F32.mag v)|
          ∨ (|x - F32.codeUnits c| = |x - F32.codeUnits (F32.mag v)| ∧ c % 2 = 0) := by
        have hbb : (F32.codeUnits b : ℝ) < F32.codeUnits (b + 1) := by exact_mod_cast F32.codeUnits_lt_succ b
        rcases Nat.lt_or_ge (F32.mag v) b with hv1 | hv1
        · have h5 : (F32.codeUnits (F32.mag v) : ℝ) < F32.codeUnits b := by
            exact_mod_cast F32.codeUnits_strictMono hv1
          right; left
          rw [abs_of_nonneg (by linarith : (0 : ℝ) ≤ x - F32.codeUnits (F32.mag v))]
          rw [hc']
          split
          · rw [abs_of_nonneg (by linarith)]; linarith
          · rename_i hcnd
            rw [abs_of_neg (by linarith)]
            have : ¬ (2 * x < F32.codeUnits b + F32.codeUnits (b + 1)) := fun h => hcnd (Or.inl h)
            linarith
        · rcases Nat.lt_or_ge (b + 1) (F32.mag v) with hv2 | hv2
          · have h5 : (F32.codeUnits (b + 1) : ℝ) < F32.codeUnits (F32.mag v) := by
              exact_mod_cast F32.codeUnits_strictMono hv2
            right; left
            rw [abs_of_neg (by linarith : x - F32.codeUnits (F32.mag v) < 0)]
            rw [hc']
            split
            · rename_i hcnd
              rw [abs_of_nonneg (by linarith)]
              rcases hcnd with h | ⟨h, -⟩ <;> linarith
            · rw [abs_of_neg (by linarith)]; linarith
          · have hvb : F32.mag v = b ∨ F32.mag v = b + 1 := by omega
            rcases hvb with hvb | hvb <;> rw [hvb, hc']
            · split
              · left; rfl
              · rename_i hcnd
                rw [abs_of_neg (by linarith : x - F32.codeUnits (b + 1) < 0),
                  abs_of_nonneg (by linarith : (0 : ℝ) ≤ x - F32.codeUnits b)]
                right
                have h6 : ¬ (2 * x < F32.codeUnits b + F32.codeUnits (b + 1)) := fun h => hcnd (Or.inl h)
                rcases eq_or_lt_of_le (not_lt.mp h6) with h7 | h7
                · right
                  refine ⟨by linarith, ?_⟩
                  have : ¬ b % 2 = 0 := fun h => hcnd (Or.inr ⟨h7.symm, h⟩)
                  omega
                · left; linarith
            · split
              · rename_i hcnd
                rw [abs_of_neg (by linarith : x - F32.codeUnits (b + 1) < 0),
                  abs_of_nonneg (by linarith : (0 : ℝ) ≤ x - F32.codeUnits b)]
                right
                rcases hcnd with h | ⟨h, h'⟩
                · left; linarith
                · right; exact ⟨by linarith, h'⟩
              · left; rfl
      have hscale : ∀ a b : ℝ, a * 2 ^ 149 < b * 2 ^ 149 → a < b := fun a b h => lt_of_mul_lt_mul_right h hp.le
      rw [F32.mag_pack hc31]
      rcases hcases with h | h | ⟨h, he⟩
      · -- same magnitude: the same value, or the other sign, which is farther unless both are zero
        by_cases hc0 : c = 0
        · left
          have h0 : F32.units v = 0 := by unfold F32.units; rw [h, hc0]; simp
          have h1 : F32.units (F32.pack neg c) = 0 := by rw [F32.units_pack hc31, hc0]; simp
          unfold F32.toRat; rw [h0, h1]
        · by_cases hs : F32.sign v = neg
          · left
            unfold F32.toRat
            rw [F32.units_pack hc31]
            unfold F32.units; rw [hs, h]
          · right; left
            apply hscale
            rw [hdist, hdist, hU]
            have hcpos : (0 : ℝ) < F32.codeUnits c := by
              exact_mod_cast lt_of_le_of_lt (Nat.zero_le _) (F32.codeUnits_strictMono (Nat.pos_of_ne_zero hc0))
            have hxpos : 0 < x := by positivity
            have hvu : |r * 2 ^ 149 - F32.units v| = x + F32.codeUnits c := by
              unfold F32.units
              rcases lt_or_gt_of_ne hr with hlt | hgt
              · have hn := (hneg hc0).mpr hlt
                have : F32.sign v = false := by
                  cases hsv : F32.sign v with
                  | false => rfl
                  | true => exact absurd (by rw [hsv, hn]) hs
                rw [this, h, hx, abs_of_neg hlt]
                simp only [Bool.false_eq_true, if_false]
                push_cast
                rw [abs_of_neg (by nlinarith)]; ring
              · have hn : neg = false := by
                  cases neg with
                  | false => rfl
                  | true => exact absurd ((hneg hc0).mp rfl) (by linarith)
                have : F32.sign v = true := by
                  cases hsv : F32.sign v with
                  | true => rfl
                  | false => exact absurd (by rw [hsv, hn]) hs
                rw [this, h, hx, abs_of_pos hgt]
                simp only [if_true]
                push_cast
                rw [abs_of_pos (by nlinarith)]; ring
            rw [hvu]
            rw [abs_lt]; constructor <;> linarith
      · right; left
        apply hscale
        rw [hdist, hdist, hU]
        linarith
      · rcases eq_or_lt_of_le hV with h5 | h5
        · right; right
          refine ⟨?_, he⟩
          have : |r - ((F32.toRat (F32.pack neg c) : ℚ) : ℝ)| * 2 ^ 149 = |r - ((F32.toRat v : ℚ) : ℝ)| * 2 ^ 149 := by
            rw [hdist, hdist, hU, h, h5]
          exact mul_right_cancel₀ hp.ne' this
        · right; left
          apply hscale
          rw [hdist, hdist, hU, h]; exact h5

/-! The operations on finite operands, in units of `2^-149`. -/

theorem F32.natAbs_units (w : Word) : (F32.units w).natAbs = F32.codeUnits (F32.mag w) := by
  unfold F32.units; split <;> simp

theorem F32.units_eq_zero (w : Word) : F32.units w = 0 ↔ F32.mag w = 0 := by
  have : F32.codeUnits (F32.mag w) = 0 ↔ F32.mag w = 0 := by
    rw [← F32.codeUnits_inj (a := F32.mag w) (b := 0), F32.codeUnits_zero]
  unfold F32.units; split <;> simp [this]

theorem F32.not_isNaN_of_isFinite {w : Word} (h : F32.isFinite w = true) : F32.isNaN w = false := by
  simp [F32.isFinite, F32.isNaN] at *; omega

theorem F32.not_isInf_of_isFinite {w : Word} (h : F32.isFinite w = true) : F32.isInf w = false := by
  simp [F32.isFinite, F32.isInf] at *; omega

theorem F32.roundMag_lt (a b : Nat) : F32.roundMag a b < 2 ^ 31 := lt_of_le_of_lt (F32.roundMag_le a b) (by decide)

theorem F32.roundMag_zero (d : Nat) (hd : 0 < d) : F32.roundMag 0 d = 0 := by
  unfold F32.roundMag; simp; omega

/-- A word that is not a zero has its value's sign. -/
theorem F32.sign_units (w : Word) (h : F32.units w ≠ 0) : F32.sign w = decide (F32.units w < 0) := by
  have h0 := mt (F32.units_eq_zero w).2 h
  have : 0 < F32.codeUnits (F32.mag w) := lt_of_lt_of_le (by omega) (F32.le_codeUnits _)
  unfold F32.units; split <;> simp_all

@[simp] theorem F32.sign_neg (w : Word) : F32.sign (F32.neg w) = !F32.sign w := by
  simp only [F32.sign, F32.neg, BitVec.toNat_xor, Nat.testBit_xor]
  rw [show (2147483648#32).toNat.testBit 31 = true by decide, Bool.xor_true]

@[simp] theorem F32.mag_neg (w : Word) : F32.mag (F32.neg w) = F32.mag w := by
  simp only [F32.mag, F32.neg, BitVec.toNat_xor, Nat.xor_mod_two_pow]
  simp

@[simp] theorem F32.units_neg (w : Word) : F32.units (F32.neg w) = -F32.units w := by
  simp only [F32.units, F32.sign_neg, F32.mag_neg]
  cases F32.sign w <;> simp

@[simp] theorem F32.isFinite_neg (w : Word) : F32.isFinite (F32.neg w) = F32.isFinite w := by simp [F32.isFinite]

@[simp] theorem F32.isNaN_neg (w : Word) : F32.isNaN (F32.neg w) = F32.isNaN w := by simp [F32.isNaN]

@[simp] theorem F32.key_neg (w : Word) : F32.key (F32.neg w) = -F32.key w := by
  simp only [F32.key, F32.sign_neg, F32.mag_neg]
  cases F32.sign w <;> simp

@[simp] theorem F32.toRat_neg (w : Word) : F32.toRat (F32.neg w) = -F32.toRat w := by simp [F32.toRat]; ring

/-- The product of finite words in units. -/
theorem F32.mul_units {nan a b : Word} (ha : F32.isFinite a = true) (hb : F32.isFinite b = true) :
    F32.mul nan a b = F32.pack (F32.sign a != F32.sign b)
      (F32.roundMag (F32.units a * F32.units b).natAbs (2 ^ 149)) := by
  simp only [F32.mul, F32.not_isNaN_of_isFinite ha, F32.not_isNaN_of_isFinite hb, F32.not_isInf_of_isFinite ha,
    F32.not_isInf_of_isFinite hb, Int.natAbs_mul, F32.natAbs_units]
  simp

/-- The sum of finite words in units. -/
theorem F32.add_units {nan a b : Word} (ha : F32.isFinite a = true) (hb : F32.isFinite b = true) :
    F32.add nan a b =
      if F32.units a + F32.units b = 0 then (if F32.sign a && F32.sign b then F32.negZero else F32.posZero)
      else F32.pack (decide (F32.units a + F32.units b < 0)) (F32.roundMag (F32.units a + F32.units b).natAbs 1) := by
  simp only [F32.add, F32.not_isNaN_of_isFinite ha, F32.not_isNaN_of_isFinite hb, F32.not_isInf_of_isFinite ha,
    F32.not_isInf_of_isFinite hb]
  simp

/-- The quotient of finite words in units. -/
theorem F32.div_units {nan a b : Word} (ha : F32.isFinite a = true) (hb : F32.isFinite b = true)
    (hb0 : F32.isZero b = false) :
    F32.div nan a b = F32.pack (F32.sign a != F32.sign b)
      (F32.roundMag ((F32.units a).natAbs * 2 ^ 149) (F32.units b).natAbs) := by
  simp only [F32.div, F32.not_isNaN_of_isFinite ha, F32.not_isNaN_of_isFinite hb, F32.not_isInf_of_isFinite ha,
    F32.not_isInf_of_isFinite hb, hb0, F32.natAbs_units]
  simp

/-- A representable magnitude is its own rounding. -/
theorem F32.roundMag_codeUnits {c : Nat} (hc : c ≤ F32.infMag) : F32.roundMag (F32.codeUnits c) 1 = c := by
  have h1 := F32.roundMag_roundsTo (F32.codeUnits c) 1 one_pos
  rw [Nat.cast_one, div_one] at h1
  refine h1.unique ⟨c, le_rfl, by exact_mod_cast F32.codeUnits_lt_succ c, ?_⟩
  have : (F32.codeUnits c : ℝ) < F32.codeUnits (c + 1) := by exact_mod_cast F32.codeUnits_lt_succ c
  rw [if_pos (.inl (by linarith)), Nat.min_eq_right hc]

/-- An integer of magnitude at most `2^24` is representable. -/
theorem F32.exists_code_of_nat {k : Nat} (hk : k ≤ 2 ^ 24) :
    ∃ c, F32.codeUnits c = k * 2 ^ 149 ∧ c < F32.infMag := by
  rcases Nat.eq_zero_or_pos k with rfl | h0
  · exact ⟨0, by simp, by decide⟩
  · rcases Nat.lt_or_ge k (2 ^ 24) with h | h
    · have h1 : 2 ^ Nat.log2 k ≤ k := Nat.log2_self_le (by omega)
      have h2 : k < 2 ^ (Nat.log2 k + 1) := Nat.lt_log2_self
      have he : Nat.log2 k < 24 := (Nat.log2_lt (by omega)).2 h
      generalize Nat.log2 k = e at *
      refine ⟨(126 + e) * 2 ^ 23 + k * 2 ^ (23 - e), ?_, ?_⟩
      · rw [F32.codeUnits_binade, Nat.mul_assoc, ← pow_add]
        · congr 2; omega
        · calc k * 2 ^ (23 - e) ≤ 2 ^ (e + 1) * 2 ^ (23 - e) := by gcongr
            _ = 2 ^ 24 := by rw [← pow_add]; congr 1; omega
        · right
          calc 2 ^ 23 = 2 ^ e * 2 ^ (23 - e) := by rw [← pow_add]; congr 1; omega
            _ ≤ _ := by gcongr
      · have : k * 2 ^ (23 - e) ≤ 2 ^ 24 := by
          calc k * 2 ^ (23 - e) ≤ 2 ^ (e + 1) * 2 ^ (23 - e) := by gcongr
            _ = 2 ^ 24 := by rw [← pow_add]; congr 1; omega
        unfold F32.infMag
        omega
    · have : k = 2 ^ 24 := by omega
      subst this
      exact ⟨149 * 2 ^ 23 + 2 ^ 24, F32.codeUnits_binade (by norm_num) (by norm_num), by decide⟩

end Sys2Proof
end

