-- ==== Sys2Proof/Laws/Cosine.lean ====
section
/-! SUPPORT. What the exact cosine arithmetic of `Machine/Cosine.lean` denotes: `Tower.sgn` is the sign of a real number,
`Cosine.table` encloses the cosines, and `Cosine.rnd` is the rounding of the exact combination. -/

namespace Sys2Proof

/-! The tower. -/

/-- `α_m = 2·cos(π / 2^(m+1))`. -/
noncomputable def Tower.alpha (m : Nat) : ℝ := Real.sqrtTwoAddSeries 0 m

theorem Tower.alpha_eq (m : Nat) : Tower.alpha m = 2 * Real.cos (Real.pi / 2 ^ (m + 1)) := by
  unfold Tower.alpha; rw [Real.cos_pi_over_two_pow]; ring

theorem Tower.alpha_nonneg (m : Nat) : 0 ≤ Tower.alpha m := Real.sqrtTwoAddSeries_zero_nonneg m

theorem Tower.alpha_succ_sq (m : Nat) : Tower.alpha (m + 1) * Tower.alpha (m + 1) = 2 + Tower.alpha m := by
  have := Tower.alpha_nonneg m
  show Real.sqrtTwoAddSeries 0 (m + 1) * Real.sqrtTwoAddSeries 0 (m + 1) = _
  rw [Real.sqrtTwoAddSeries]
  exact Real.mul_self_sqrt (by unfold Tower.alpha at this; linarith)

theorem Tower.alpha_succ_pos (m : Nat) : 0 < Tower.alpha (m + 1) := by
  have h := Tower.alpha_succ_sq m
  have h0 := Tower.alpha_nonneg m
  rcases eq_or_lt_of_le (Tower.alpha_nonneg (m + 1)) with h1 | h1
  · rw [← h1] at h; simp at h; linarith
  · exact h1

/-- The real number an element denotes. -/
noncomputable def Tower.val : (m : Nat) → Tower m → ℝ
  | 0, a => @Int.cast ℝ _ a
  | m + 1, (a, b) => Tower.val m a + Tower.val m b * Tower.alpha (m + 1)

theorem Tower.val_add (m : Nat) (a b : Tower m) :
    Tower.val m (Tower.add m a b) = Tower.val m a + Tower.val m b := by
  induction m with
  | zero => exact @Int.cast_add ℝ _ a b
  | succ m ih =>
    obtain ⟨a, a'⟩ := a; obtain ⟨b, b'⟩ := b
    simp only [Tower.add, Tower.val, ih]; ring

theorem Tower.val_neg (m : Nat) (a : Tower m) : Tower.val m (Tower.neg m a) = -Tower.val m a := by
  induction m with
  | zero => exact @Int.cast_neg ℝ _ a
  | succ m ih =>
    obtain ⟨a, a'⟩ := a
    simp only [Tower.neg, Tower.val, ih]; ring

theorem Tower.val_mulAlphaSq (m : Nat) (a : Tower m) :
    Tower.val m (Tower.mulAlphaSq m a) = (2 + Tower.alpha m) * Tower.val m a := by
  induction m with
  | zero =>
    have h : Tower.alpha 0 = 0 := rfl
    rw [h, add_zero]
    refine (@Int.cast_mul ℝ _ 2 a).trans ?_
    rw [Int.cast_ofNat]; rfl
  | succ m ih =>
    obtain ⟨u, v⟩ := a
    simp only [Tower.mulAlphaSq, Tower.val, Tower.val_add, ih]
    linear_combination (-(Tower.val m v)) * Tower.alpha_succ_sq m

theorem Tower.val_mul (m : Nat) (a b : Tower m) :
    Tower.val m (Tower.mul m a b) = Tower.val m a * Tower.val m b := by
  induction m with
  | zero => exact @Int.cast_mul ℝ _ a b
  | succ m ih =>
    obtain ⟨a, a'⟩ := a; obtain ⟨b, b'⟩ := b
    simp only [Tower.mul, Tower.val, Tower.val_add, Tower.val_mulAlphaSq, ih]
    linear_combination (-(Tower.val m a' * Tower.val m b')) * Tower.alpha_succ_sq m

/-- `s` is the sign of `x`. -/
def IsSign (s : Int) (x : ℝ) : Prop := (s = 1 ∧ 0 < x) ∨ (s = 0 ∧ x = 0) ∨ (s = -1 ∧ x < 0)

theorem IsSign.ofInt (a : Int) : IsSign (Int.sign a) (a : ℝ) := by
  rcases lt_trichotomy a 0 with h | h | h
  · exact Or.inr (Or.inr ⟨Int.sign_eq_neg_one_of_neg h, by exact_mod_cast h⟩)
  · exact Or.inr (Or.inl ⟨Int.sign_eq_zero_iff_zero.mpr h, by exact_mod_cast h⟩)
  · exact Or.inl ⟨Int.sign_eq_one_of_pos h, by exact_mod_cast h⟩

/-- `Tower.sgn` is the sign of the real number the element denotes. -/
theorem Tower.sgn_isSign (m : Nat) (a : Tower m) : IsSign (Tower.sgn m a) (Tower.val m a) := by
  induction m with
  | zero =>
    exact IsSign.ofInt a
  | succ m ih =>
    obtain ⟨a, b⟩ := a
    have ha := ih a
    have hb := ih b
    have hc := ih (Tower.add m (Tower.mul m a a) (Tower.neg m (Tower.mulAlphaSq m (Tower.mul m b b))))
    rw [Tower.val_add, Tower.val_neg, Tower.val_mulAlphaSq, Tower.val_mul, Tower.val_mul,
      ← Tower.alpha_succ_sq m] at hc
    have hα := Tower.alpha_succ_pos m
    simp only [Tower.sgn, Tower.val]
    generalize Tower.sgn m a = sa at *
    generalize Tower.sgn m b = sb at *
    generalize Tower.sgn m (Tower.add m (Tower.mul m a a) (Tower.neg m (Tower.mulAlphaSq m (Tower.mul m b b)))) = sc at *
    generalize Tower.val m a = x at *
    generalize Tower.val m b = y at *
    generalize Tower.alpha (m + 1) = α at *
    have hfac : x * x + -(α * α * (y * y)) = (x + y * α) * (x - y * α) := by ring
    rw [hfac] at hc
    have hy : (0 < y → 0 < y * α) ∧ (y < 0 → y * α < 0) :=
      ⟨fun h => mul_pos h hα, fun h => mul_neg_of_neg_of_pos h hα⟩
    rcases ha with ⟨rfl, hx⟩ | ⟨rfl, hx⟩ | ⟨rfl, hx⟩ <;> rcases hb with ⟨rfl, hy'⟩ | ⟨rfl, hy'⟩ | ⟨rfl, hy'⟩
    · exact Or.inl ⟨by simp, by have := hy.1 hy'; linarith⟩
    · exact Or.inl ⟨by simp, by rw [hy']; linarith⟩
    · have hy2 := hy.2 hy'
      have hpos : 0 < x - y * α := by linarith
      rcases hc with ⟨rfl, h⟩ | ⟨rfl, h⟩ | ⟨rfl, h⟩
      · exact Or.inl ⟨by simp, pos_of_mul_pos_left h hpos.le⟩
      · exact Or.inr (Or.inl ⟨by simp, (mul_eq_zero.mp h).resolve_right hpos.ne'⟩)
      · exact Or.inr (Or.inr ⟨by simp, by
          by_contra hcon; exact absurd h (not_lt.mpr (mul_nonneg (not_lt.mp hcon) hpos.le))⟩)
    · exact Or.inl ⟨by simp, by have := hy.1 hy'; linarith⟩
    · exact Or.inr (Or.inl ⟨by simp, by rw [hx, hy']; simp⟩)
    · exact Or.inr (Or.inr ⟨by simp, by have := hy.2 hy'; linarith⟩)
    · have hy1 := hy.1 hy'
      have hneg : x - y * α < 0 := by linarith
      rcases hc with ⟨rfl, h⟩ | ⟨rfl, h⟩ | ⟨rfl, h⟩
      · exact Or.inr (Or.inr ⟨by simp, by
          by_contra hcon; exact absurd h (not_lt.mpr (mul_nonpos_of_nonneg_of_nonpos (not_lt.mp hcon) hneg.le))⟩)
      · exact Or.inr (Or.inl ⟨by simp, (mul_eq_zero.mp h).resolve_right hneg.ne⟩)
      · exact Or.inl ⟨by simp, by
          by_contra hcon; exact absurd h (not_lt.mpr (mul_nonneg_of_nonpos_of_nonpos (not_lt.mp hcon) hneg.le))⟩
    · exact Or.inr (Or.inr ⟨by simp, by rw [hy']; linarith⟩)
    · exact Or.inr (Or.inr ⟨by simp, by have := hy.2 hy'; linarith⟩)

/-! Linear combinations of a family of reals with the coefficients of a list. -/

/-- `Σ_i c_i·f(i)`. -/
noncomputable def lin : (Nat → ℝ) → List Int → ℝ
  | _, [] => 0
  | f, c :: cs => c * f 0 + lin (fun i => f (i + 1)) cs

@[simp] theorem lin_nil (f : Nat → ℝ) : lin f [] = 0 := rfl

@[simp] theorem lin_cons (f : Nat → ℝ) (c : Int) (cs : List Int) :
    lin f (c :: cs) = c * f 0 + lin (fun i => f (i + 1)) cs := rfl

theorem lin_mul_right (f : Nat → ℝ) (a : ℝ) (cs : List Int) : lin (fun i => f i * a) cs = lin f cs * a := by
  induction cs generalizing f with
  | nil => simp
  | cons c cs ih => simp only [lin_cons, ih]; ring

theorem lin_neg (f : Nat → ℝ) (cs : List Int) : lin f (cs.map fun c => -c) = -lin f cs := by
  induction cs generalizing f with
  | nil => simp
  | cons c cs ih => simp only [List.map_cons, lin_cons, ih]; push_cast; ring

theorem lin_modify (f : Nat → ℝ) (cs : List Int) (i : Nat) (x : Int) (h : i < cs.length) :
    lin f (cs.modify i (· + x)) = lin f cs + x * f i := by
  induction cs generalizing f i with
  | nil => simp at h
  | cons c cs ih =>
    cases i with
    | zero => simp [List.modify]; ring
    | succ i =>
      rw [List.modify_succ_cons, lin_cons, ih _ _ (by simpa using h), lin_cons]; ring

theorem lin_replicate_zero (f : Nat → ℝ) (n : Nat) : lin f (List.replicate n 0) = 0 := by
  induction n generalizing f with
  | zero => rfl
  | succ n ih => simp [List.replicate_succ, ih]

theorem lin_evens_odds (f : Nat → ℝ) (cs : List Int) :
    lin f cs = lin (fun i => f (2 * i)) (Cosine.evens cs) + lin (fun i => f (2 * i + 1)) (Cosine.odds cs) := by
  induction cs using Cosine.evens.induct generalizing f with
  | case1 => simp [Cosine.evens, Cosine.odds]
  | case2 a => simp [Cosine.evens, Cosine.odds]
  | case3 a b as ih =>
    simp only [Cosine.evens, Cosine.odds, lin_cons]
    rw [ih]
    simp only [Nat.mul_add, Nat.mul_one, Nat.mul_zero, Nat.zero_add]
    have h1 : (fun i => f (2 * i + 1 + 1)) = fun i => f (2 * i + 2) := rfl
    have h2 : (fun i => f (2 * i + 2 + 1)) = fun i => f (2 * i + 1 + 1 + 1) := rfl
    rw [h1]
    simp only [Nat.add_assoc, Nat.reduceAdd]
    ring

theorem lin_altSuffix (e k : Nat → ℝ) (h : ∀ i, k (i + 1) = e (i + 1) + e i) (cs : List Int) :
    lin e cs = lin k (Cosine.altSuffix cs) + (e 0 - k 0) * ((Cosine.altSuffix cs).headD 0 : Int) := by
  induction cs generalizing e k with
  | nil => simp [Cosine.altSuffix]
  | cons c cs ih =>
    simp only [Cosine.altSuffix, lin_cons, List.headD_cons]
    rw [ih (fun i => e (i + 1)) (fun i => k (i + 1)) (fun i => h (i + 1))]
    have := h 0
    simp only [Nat.zero_add] at *
    push_cast
    rw [this]; ring

theorem Cosine.length_evens (cs : List Int) : (Cosine.evens cs).length = (cs.length + 1) / 2 := by
  induction cs using Cosine.evens.induct with
  | case1 => rfl
  | case2 a => simp [Cosine.evens]
  | case3 a b as ih => simp only [Cosine.evens, List.length_cons, ih]; omega

theorem Cosine.length_odds (cs : List Int) : (Cosine.odds cs).length = cs.length / 2 := by
  induction cs using Cosine.odds.induct with
  | case1 => rfl
  | case2 a => simp [Cosine.odds]
  | case3 a b as ih => simp only [Cosine.odds, List.length_cons, ih]; omega

theorem Cosine.length_altSuffix (cs : List Int) : (Cosine.altSuffix cs).length = cs.length := by
  induction cs with
  | nil => rfl
  | cons c cs ih => simp [Cosine.altSuffix, ih]

/-- The angle `θ = π / 2^(m+1)`. -/
noncomputable def Cosine.theta (m : Nat) : ℝ := Real.pi / 2 ^ (m + 1)

/-- The family `1, 2cos θ, 2cos 2θ, …`. -/
noncomputable def Cosine.kappa (m i : Nat) : ℝ := if i = 0 then 1 else 2 * Real.cos (i * Cosine.theta m)

theorem Cosine.theta_succ (m : Nat) : Cosine.theta m = 2 * Cosine.theta (m + 1) := by
  unfold Cosine.theta; rw [pow_succ 2 (m + 1)]; field_simp

theorem Cosine.alpha_theta (m : Nat) : Tower.alpha m = 2 * Real.cos (Cosine.theta m) := Tower.alpha_eq m

/-- The element built from a coefficient list denotes the combination of the list. -/
theorem Cosine.val_toTower (m : Nat) (cs : List Int) (h : cs.length = 2 ^ m) :
    Tower.val m (Cosine.toTower m cs) = lin (Cosine.kappa m) cs := by
  induction m generalizing cs with
  | zero =>
    obtain ⟨c, rfl⟩ : ∃ c, cs = [c] := List.length_eq_one_iff.mp (by simpa using h)
    simp only [lin_cons, lin_nil, Cosine.kappa, if_true, mul_one, add_zero]
    rfl
  | succ m ih =>
    have h2 : (2 : Nat) ^ (m + 1) = 2 * 2 ^ m := by rw [pow_succ]; ring
    have ht := Cosine.theta_succ m
    have ha := Cosine.alpha_theta (m + 1)
    have hα := Tower.alpha_succ_pos m
    have he : (Cosine.evens cs).length = 2 ^ m := by rw [Cosine.length_evens, h, h2]; omega
    have ho : (Cosine.altSuffix (Cosine.odds cs)).length = 2 ^ m := by
      rw [Cosine.length_altSuffix, Cosine.length_odds, h, h2]; omega
    simp only [Cosine.toTower, Tower.val]
    rw [ih _ he, ih _ ho, lin_evens_odds (Cosine.kappa (m + 1)) cs]
    have h1 : (fun i => Cosine.kappa (m + 1) (2 * i)) = Cosine.kappa m := by
      funext i
      unfold Cosine.kappa
      rcases Nat.eq_zero_or_pos i with rfl | hi
      · simp
      · rw [if_neg (by omega), if_neg (by omega), ht]; push_cast; congr 2; ring
    rw [h1]
    congr 1
    set e : Nat → ℝ := fun i => 2 * Real.cos ((2 * i + 1) * Cosine.theta (m + 1)) / Tower.alpha (m + 1) with hedef
    have h3 : (fun i => Cosine.kappa (m + 1) (2 * i + 1)) = fun i => e i * Tower.alpha (m + 1) := by
      funext i
      unfold Cosine.kappa
      rw [if_neg (by omega), hedef]
      push_cast
      field_simp
    rw [h3, lin_mul_right]
    congr 1
    have h4 : e 0 = Cosine.kappa m 0 := by
      simp only [hedef, Cosine.kappa, if_true]
      rw [ha] at hα ⊢
      simpa using right_ne_zero_of_mul hα.ne'
    have h5 : ∀ i, Cosine.kappa m (i + 1) = e (i + 1) + e i := by
      intro i
      simp only [hedef, Cosine.kappa]
      rw [if_neg (by omega), ← add_div, eq_div_iff hα.ne', ha, ht, ← mul_add,
        Real.cos_add_cos]
      push_cast
      rw [show ((2 * ((i : ℝ) + 1) + 1) * Cosine.theta (m + 1) + (2 * i + 1) * Cosine.theta (m + 1)) / 2
        = (i + 1) * (2 * Cosine.theta (m + 1)) by ring,
        show ((2 * ((i : ℝ) + 1) + 1) * Cosine.theta (m + 1) - (2 * i + 1) * Cosine.theta (m + 1)) / 2
        = Cosine.theta (m + 1) by ring]
      ring
    rw [lin_altSuffix e (Cosine.kappa m) h5, h4]
    ring

/-- The combination of cosines a coefficient list stands for. -/
noncomputable def Cosine.combo (m : Nat) (cs : List Int) : ℝ := lin (fun i => Real.cos (i * Cosine.theta m)) cs

theorem Cosine.cmpTwice_isSign (m : Nat) (cs : List Int) (r : Int) (h : cs.length = 2 ^ m) :
    IsSign (Cosine.cmpTwice m cs r) (2 * Cosine.combo m cs - r) := by
  have hs := Tower.sgn_isSign m (Cosine.toTower m (cs.modify 0 fun c => 2 * c - r))
  rw [Cosine.val_toTower m _ (by simpa using h)] at hs
  unfold Cosine.cmpTwice Cosine.combo
  convert hs using 1
  cases cs with
  | nil =>
    have : 0 < 2 ^ m := by positivity
    simp at h; omega
  | cons c cs =>
    simp only [List.modify_zero_cons, lin_cons]
    have : (fun i => Cosine.kappa m (i + 1)) = fun i => Real.cos (((i + 1 : ℕ) : ℝ) * Cosine.theta m) * 2 := by
      funext i; unfold Cosine.kappa; rw [if_neg (by omega)]; ring
    rw [this, lin_mul_right (fun i => Real.cos (((i + 1 : ℕ) : ℝ) * Cosine.theta m)) 2]
    simp [Cosine.kappa]; ring

/-! The enclosures. -/

theorem Cosine.newton_upper (n fuel x : Nat) (hx : 0 < x ∨ n = 0) (hf : 0 < fuel ∨ n < (x + 1) * (x + 1)) :
    n < (Cosine.newton n fuel x + 1) * (Cosine.newton n fuel x + 1) := by
  induction fuel generalizing x with
  | zero => simpa [Cosine.newton] using hf
  | succ fuel ih =>
    unfold Cosine.newton
    have key : n < ((x + n / x) / 2 + 1) * ((x + n / x) / 2 + 1) := by
      rcases Nat.eq_zero_or_pos n with rfl | hn
      · positivity
      · have hx : 0 < x := by omega
        have h1 : n < x * (n / x + 1) := by
          have := Nat.div_add_mod n x
          have := Nat.mod_lt n hx
          rw [Nat.mul_add]; omega
        generalize n / x = u at *
        have h2 : x + u + 1 ≤ 2 * ((x + u) / 2 + 1) := by omega
        generalize (x + u) / 2 + 1 = y at *
        have h3 : (x + (u + 1)) * (x + (u + 1)) ≤ 2 * y * (2 * y) := Nat.mul_self_le_mul_self (by omega)
        nlinarith [sq_nonneg ((x : Int) - (u + 1))]
    refine ih _ ?_ (Or.inr key)
    rcases Nat.eq_zero_or_pos ((x + n / x) / 2) with h | h
    · right; rw [h] at key; omega
    · exact Or.inl h

theorem Cosine.lt_sqrtHi (n : Nat) : Real.sqrt n < Cosine.sqrtHi n := by
  have h := Cosine.newton_upper n 10 (2 ^ (Nat.log2 n / 2 + 1)) (Or.inl (by positivity)) (Or.inl (by omega))
  unfold Cosine.sqrtHi
  generalize Cosine.newton n 10 _ = y at *
  rw [Real.sqrt_lt' (by positivity)]
  have h' : (n : ℝ) < ((y + 1) * (y + 1) : ℕ) := by exact_mod_cast h
  push_cast at *; nlinarith

theorem Cosine.sqrtLo_le (n : Nat) : (Cosine.sqrtLo n : ℝ) ≤ Real.sqrt n := by
  have h := Cosine.lt_sqrtHi n
  have hpos : (0 : ℝ) < Cosine.sqrtHi n := lt_of_le_of_lt (Real.sqrt_nonneg _) h
  unfold Cosine.sqrtLo
  refine (Nat.cast_div_le).trans ?_
  rw [div_le_iff₀ hpos]
  have := Real.mul_self_sqrt (Nat.cast_nonneg (α := ℝ) n)
  nlinarith [Real.sqrt_nonneg (n : ℝ)]

theorem Cosine.one_pos : (0 : ℝ) < Cosine.one := by
  have : 0 < Cosine.one := by decide
  exact_mod_cast this

theorem Cosine.half_one : ((Cosine.one / 2 : ℕ) : ℝ) = Cosine.one / 2 := by
  have : Cosine.one = 2 * (Cosine.one / 2) := by decide
  have h : (Cosine.one : ℝ) = 2 * ((Cosine.one / 2 : ℕ) : ℝ) := by exact_mod_cast this
  linarith

/-- `e` encloses `x`, in units of `2^-precision`. -/
def Cosine.Encloses (e : Nat × Nat) (x : ℝ) : Prop := (e.1 : ℝ) ≤ x * Cosine.one ∧ x * Cosine.one ≤ e.2

theorem Cosine.halfAngle_encloses {e : Nat × Nat} {φ : ℝ} (h : Cosine.Encloses e (1 + Real.cos (2 * φ)))
    (hc : 0 ≤ Real.cos φ) : Cosine.Encloses (Cosine.halfAngle e) (Real.cos φ) := by
  obtain ⟨h1, h2⟩ := h
  have ho := Cosine.one_pos
  have hsq : Real.cos φ * Cosine.one = Real.sqrt ((1 + Real.cos (2 * φ)) * Cosine.one * (Cosine.one / 2)) := by
    rw [← Real.sqrt_sq (by positivity : 0 ≤ Real.cos φ * Cosine.one)]
    congr 1
    rw [Real.cos_two_mul]; ring
  constructor
  · rw [hsq]
    refine (Cosine.sqrtLo_le _).trans (Real.sqrt_le_sqrt ?_)
    push_cast [Cosine.half_one]
    exact mul_le_mul_of_nonneg_right h1 (by positivity)
  · rw [hsq]
    refine (Real.sqrt_le_sqrt ?_).trans (Cosine.lt_sqrtHi _).le
    push_cast [Cosine.half_one]
    exact mul_le_mul_of_nonneg_right h2 (by positivity)

theorem Cosine.interleave_getD (as bs : List (Nat × Nat)) (h : as.length = bs.length) (i : Nat) :
    (Cosine.interleave as bs).getD (2 * i) (0, 0) = as.getD i (0, 0)
      ∧ (Cosine.interleave as bs).getD (2 * i + 1) (0, 0) = bs.getD i (0, 0) := by
  induction as generalizing bs i with
  | nil =>
    have : bs = [] := List.length_eq_zero_iff.mp h.symm
    subst this; simp [Cosine.interleave]
  | cons a as ih =>
    cases bs with
    | nil => simp at h
    | cons b bs =>
      cases i with
      | zero => simp [Cosine.interleave]
      | succ i =>
        have := ih bs (by simpa using h) i
        rw [show 2 * (i + 1) = 2 * i + 1 + 1 by ring]
        simpa [Cosine.interleave] using this

theorem Cosine.length_interleave (as bs : List (Nat × Nat)) :
    (Cosine.interleave as bs).length = as.length + bs.length := by
  induction as generalizing bs with
  | nil => simp [Cosine.interleave]
  | cons a as ih =>
    cases bs with
    | nil => simp [Cosine.interleave]
    | cons b bs => simp [Cosine.interleave, ih]; omega

/-- Every entry of the table encloses its cosine. -/
def Cosine.TableOk (m : Nat) (t : List (Nat × Nat)) : Prop :=
  t.length = 2 ^ m ∧ ∀ j < 2 ^ m, Cosine.Encloses (t.getD j (0, 0)) (Real.cos (j * Cosine.theta m))

theorem Cosine.pow_theta (m : Nat) : (2 : ℝ) ^ (m + 1) * Cosine.theta m = Real.pi := by
  unfold Cosine.theta; field_simp

theorem Cosine.onePlus_encloses {m : Nat} {t : List (Nat × Nat)} (ht : Cosine.TableOk m t) {j : Nat}
    (hj2 : j < 2 ^ (m + 1)) :
    Cosine.Encloses (Cosine.onePlus m t j) (1 + Real.cos (j * Cosine.theta m)) := by
  have ho := Cosine.one_pos
  have hp := Cosine.pow_theta m
  have h2 : (2 : Nat) ^ (m + 1) = 2 * 2 ^ m := by rw [pow_succ]; ring
  unfold Cosine.onePlus
  split
  · rename_i hlt
    obtain ⟨h1, h2⟩ := ht.2 j hlt
    constructor <;> push_cast <;> linarith
  · split
    · rename_i heq
      have : (j : ℝ) * Cosine.theta m = Real.pi / 2 := by
        rw [heq]; push_cast; rw [← hp, pow_succ]; ring
      rw [this, Real.cos_pi_div_two]
      constructor <;> simp
    · rename_i hlt hne
      obtain ⟨h1, h2'⟩ := ht.2 (2 ^ (m + 1) - j) (by omega)
      have hcos : Real.cos (j * Cosine.theta m)
          = -Real.cos (((2 ^ (m + 1) - j : ℕ) : ℝ) * Cosine.theta m) := by
        rw [Nat.cast_sub hj2.le]; push_cast
        rw [sub_mul, hp, Real.cos_pi_sub]; ring
      rw [hcos]
      have hle := Real.cos_le_one (((2 ^ (m + 1) - j : ℕ) : ℝ) * Cosine.theta m)
      generalize Real.cos (((2 ^ (m + 1) - j : ℕ) : ℝ) * Cosine.theta m) = c at *
      generalize t.getD (2 ^ (m + 1) - j) (0, 0) = e at *
      have hc1 : c * Cosine.one ≤ 1 * Cosine.one := mul_le_mul_of_nonneg_right hle ho.le
      constructor
      · show ((Cosine.one - e.2 : ℕ) : ℝ) ≤ _
        rcases Nat.le_total e.2 Cosine.one with h | h
        · rw [Nat.cast_sub h]; linarith
        · rw [Nat.sub_eq_zero_of_le h]; push_cast; linarith
      · show _ ≤ ((Cosine.one - e.1 : ℕ) : ℝ)
        rcases Nat.le_total e.1 Cosine.one with h | h
        · rw [Nat.cast_sub h]; linarith
        · have : (Cosine.one : ℝ) ≤ e.1 := by exact_mod_cast h
          rw [Nat.sub_eq_zero_of_le h]; push_cast; linarith

theorem Cosine.table_ok (m : Nat) : Cosine.TableOk m (Cosine.table m) := by
  induction m with
  | zero =>
    refine ⟨rfl, fun j hj => ?_⟩
    have : j = 0 := by omega
    subst this
    simp [Cosine.table, Cosine.Encloses]
  | succ m ih =>
    have hp := Cosine.pow_theta (m + 1)
    have h2 : (2 : Nat) ^ (m + 1) = 2 * 2 ^ m := by rw [pow_succ]; ring
    have hlen : (Cosine.table m).length
        = ((List.range (2 ^ m)).map fun i => Cosine.halfAngle (Cosine.onePlus m (Cosine.table m) (2 * i + 1))).length := by
      simp [ih.1]
    refine ⟨?_, fun j hj => ?_⟩
    · show (Cosine.interleave _ _).length = _
      rw [Cosine.length_interleave, ← hlen, ih.1, h2]; ring
    · have hget := Cosine.interleave_getD _ _ hlen (j / 2)
      show Cosine.Encloses ((Cosine.interleave _ _).getD j (0, 0)) _
      rcases Nat.even_or_odd' j with ⟨i, rfl | rfl⟩
      · rw [show 2 * i / 2 = i by omega] at hget
        rw [hget.1]
        have := ih.2 i (by omega)
        rw [Cosine.theta_succ] at this
        convert this using 2
        push_cast; ring
      · rw [show (2 * i + 1) / 2 = i by omega] at hget
        rw [hget.2]
        have hi : i < 2 ^ m := by omega
        rw [List.getD_eq_getElem _ _ (by simpa using hi)]
        simp only [List.getElem_map, List.getElem_range]
        have hθ : 0 < Cosine.theta (m + 1) := by unfold Cosine.theta; positivity
        have hb : ((2 * i + 1 : ℕ) : ℝ) * Cosine.theta (m + 1) ≤ Real.pi / 2 := by
          rw [← hp, pow_succ (2 : ℝ) (m + 1)]
          have : ((2 * i + 1 : ℕ) : ℝ) ≤ 2 ^ (m + 1) := by exact_mod_cast hj.le
          nlinarith
        refine Cosine.halfAngle_encloses ?_ (Real.cos_nonneg_of_neg_pi_div_two_le_of_le ?_ hb)
        · have := Cosine.onePlus_encloses ih (j := 2 * i + 1) hj
          rw [Cosine.theta_succ] at this
          convert this using 3
          ring
        · have := Real.pi_pos
          have : 0 ≤ ((2 * i + 1 : ℕ) : ℝ) * Cosine.theta (m + 1) := by positivity
          linarith

theorem Cosine.enclose_encloses (f : Nat → ℝ) (t : List (Nat × Nat)) (cs : List Int)
    (h : t.length = cs.length) (ht : ∀ j < cs.length, Cosine.Encloses (t.getD j (0, 0)) (f j)) :
    ((Cosine.enclose t cs).1 : ℝ) ≤ lin f cs * Cosine.one ∧ lin f cs * Cosine.one ≤ (Cosine.enclose t cs).2 := by
  induction cs generalizing t f with
  | nil =>
    have : t = [] := List.length_eq_zero_iff.mp (by simpa using h)
    subst this; simp [Cosine.enclose]
  | cons c cs ih =>
    cases t with
    | nil => simp at h
    | cons e es =>
      have hr := ih (fun i => f (i + 1)) es (by simpa using h) fun j hj => by
        simpa using ht (j + 1) (by simpa using hj)
      obtain ⟨h1, h2⟩ : Cosine.Encloses e (f 0) := by simpa using ht 0 (by simp)
      simp only [Cosine.enclose, lin_cons]
      split
      · rename_i hc
        have hc' : (0 : ℝ) ≤ c := by exact_mod_cast hc
        push_cast
        constructor <;> nlinarith
      · rename_i hc
        have hc' : (c : ℝ) < 0 := by exact_mod_cast not_le.mp hc
        push_cast
        constructor <;> nlinarith

/-! Folding the angle. -/

theorem Cosine.lin_addTerm (m j : Nat) (hm : 0 < m) (x : Int) (cs : List Int) (h : cs.length = m) :
    lin (fun i => Real.cos (Real.pi * i / (2 * m))) (Cosine.addTerm m j x cs)
      = lin (fun i => Real.cos (Real.pi * i / (2 * m))) cs + x * Real.cos (Real.pi * j / (2 * m))
    ∧ (Cosine.addTerm m j x cs).length = m := by
  have hmR : (0 : ℝ) < m := by exact_mod_cast hm
  have hper : Real.cos (Real.pi * j / (2 * m)) = Real.cos (Real.pi * (j % (4 * m) : ℕ) / (2 * m)) := by
    have hj : (j : ℝ) = (4 * m) * (j / (4 * m) : ℕ) + (j % (4 * m) : ℕ) := by
      exact_mod_cast (Nat.div_add_mod j (4 * m)).symm
    conv_lhs => rw [hj]
    rw [show Real.pi * ((4 * m) * (j / (4 * m) : ℕ) + (j % (4 * m) : ℕ)) / (2 * m)
      = Real.pi * (j % (4 * m) : ℕ) / (2 * m) + (j / (4 * m) : ℕ) * (2 * Real.pi) by field_simp; ring,
      Real.cos_add_nat_mul_two_pi]
  have hr : j % (4 * m) < 4 * m := Nat.mod_lt _ (by omega)
  rw [hper]
  unfold Cosine.addTerm
  dsimp only
  generalize j % (4 * m) = r at *
  have hfold : Real.cos (Real.pi * r / (2 * m))
      = Real.cos (Real.pi * ((if 2 * m < r then 4 * m - r else r : ℕ) : ℝ) / (2 * m)) := by
    split
    · rw [Nat.cast_sub (by omega)]; push_cast
      rw [show Real.pi * (4 * m - r) / (2 * m) = 2 * Real.pi - Real.pi * r / (2 * m) by field_simp; ring,
        Real.cos_two_pi_sub]
    · rfl
  rw [hfold]
  have hr2 : (if 2 * m < r then 4 * m - r else r) ≤ 2 * m := by split <;> omega
  generalize (if 2 * m < r then 4 * m - r else r) = r at *
  split
  · rename_i hlt
    exact ⟨lin_modify _ _ _ _ (by omega), by simpa using h⟩
  · split
    · rename_i heq
      refine ⟨?_, h⟩
      rw [heq, show Real.pi * (m : ℝ) / (2 * m) = Real.pi / 2 by field_simp, Real.cos_pi_div_two]; simp
    · rename_i h1 h2
      refine ⟨?_, by simpa using h⟩
      have : (fun c : Int => c - x) = fun c => c + -x := by funext c; ring
      rw [this, lin_modify _ _ _ _ (by omega), Nat.cast_sub hr2]
      push_cast
      rw [show Real.pi * (2 * m - r) / (2 * m) = Real.pi - Real.pi * r / (2 * m) by field_simp, Real.cos_pi_sub]
      ring

/-! Rounding a combination. -/

/-- `Cosine.search` finds the greatest code below, when it is in the range searched. -/
theorem Cosine.search_spec (below : Nat → Bool) (hm : ∀ a b, a ≤ b → below b = true → below a = true)
    (bits lo : Nat) (h0 : below lo = true) :
    below (Cosine.search below bits lo) = true ∧ lo ≤ Cosine.search below bits lo
      ∧ ∀ c, below c = true → c < lo + 2 ^ bits → c ≤ Cosine.search below bits lo := by
  induction bits generalizing lo with
  | zero => exact ⟨h0, le_rfl, fun c _ hc => by simp only [Cosine.search]; omega⟩
  | succ bits ih =>
    unfold Cosine.search
    have h2 : lo + 2 ^ (bits + 1) = lo + 2 ^ bits + 2 ^ bits := by rw [pow_succ]; ring
    split
    · rename_i h
      obtain ⟨h1, h3, h4⟩ := ih (lo + 2 ^ bits) h
      exact ⟨h1, (Nat.le_add_right _ _).trans h3, fun c hc hlt => h4 c hc (by rw [← h2]; exact hlt)⟩
    · rename_i h
      obtain ⟨h1, h3, h4⟩ := ih lo h0
      refine ⟨h1, h3, fun c hc _ => h4 c hc ?_⟩
      by_contra hge
      exact h (hm _ c (by omega) hc)

theorem IsSign.nonneg_iff {s : Int} {x : ℝ} (h : IsSign s x) : 0 ≤ s ↔ 0 ≤ x := by
  rcases h with ⟨rfl, h⟩ | ⟨rfl, h⟩ | ⟨rfl, h⟩
  · simp [h.le]
  · simp [h]
  · simp [h]

theorem IsSign.eq_zero_iff {s : Int} {x : ℝ} (h : IsSign s x) : s = 0 ↔ x = 0 := by
  rcases h with ⟨rfl, h⟩ | ⟨rfl, h⟩ | ⟨rfl, h⟩
  · simp [h.ne']
  · simp [h]
  · simp [h.ne]

theorem IsSign.pos_iff {s : Int} {x : ℝ} (h : IsSign s x) : 0 < s ↔ 0 < x := by
  rcases h with ⟨rfl, h⟩ | ⟨rfl, h⟩ | ⟨rfl, h⟩
  · simp [h]
  · simp [h]
  · simp [h.le]

theorem IsSign.neg_iff {s : Int} {x : ℝ} (h : IsSign s x) : s < 0 ↔ x < 0 := by
  rcases h with ⟨rfl, h⟩ | ⟨rfl, h⟩ | ⟨rfl, h⟩
  · simp [h.le]
  · simp [h]
  · simp [h]

theorem Cosine.exactMag_roundsTo (m den : Nat) (cs : List Int) (hden : 0 < den) (h : cs.length = 2 ^ m)
    (h0 : 0 ≤ Cosine.combo m cs) : F32.RoundsTo (Cosine.combo m cs / den) (Cosine.exactMag m den cs) := by
  have hd : (0 : ℝ) < den := by exact_mod_cast hden
  set v := Cosine.combo m cs with hv
  set below : Nat → Bool := fun b => decide (0 ≤ Cosine.cmpTwice m cs (2 * den * F32.codeUnits b)) with hbelow
  have hb : ∀ b, below b = true ↔ (F32.codeUnits b : ℝ) ≤ v / den := by
    intro b
    have hs := (Cosine.cmpTwice_isSign m cs (2 * den * F32.codeUnits b) h).nonneg_iff
    rw [← hv] at hs
    simp only [hbelow, decide_eq_true_eq]
    rw [hs, le_div_iff₀ hd]
    push_cast
    constructor <;> intro h <;> linarith
  have hmono : ∀ a b, a ≤ b → below b = true → below a = true := by
    intro a b hab hbb
    rw [hb] at *
    refine le_trans ?_ hbb
    exact_mod_cast F32.codeUnits_strictMono.monotone hab
  obtain ⟨s1, -, s3⟩ := Cosine.search_spec below hmono 31 0 (by rw [hb]; simp; positivity)
  set b := Cosine.search below 31 0 with hbdef
  have hexact : Cosine.exactMag m den cs = min F32.infMag
      (if Cosine.cmpTwice m cs (den * (F32.codeUnits b + F32.codeUnits (b + 1))) < 0
        ∨ (Cosine.cmpTwice m cs (den * (F32.codeUnits b + F32.codeUnits (b + 1))) = 0 ∧ b % 2 = 0)
        then b else b + 1) := rfl
  have hs := Cosine.cmpTwice_isSign m cs (den * (F32.codeUnits b + F32.codeUnits (b + 1))) h
  rw [← hv] at hs
  have hiff : (Cosine.cmpTwice m cs (den * (F32.codeUnits b + F32.codeUnits (b + 1))) < 0
        ∨ (Cosine.cmpTwice m cs (den * (F32.codeUnits b + F32.codeUnits (b + 1))) = 0 ∧ b % 2 = 0))
      ↔ (2 * (v / den) < F32.codeUnits b + F32.codeUnits (b + 1)
          ∨ (2 * (v / den) = F32.codeUnits b + F32.codeUnits (b + 1) ∧ b % 2 = 0)) := by
    rw [hs.neg_iff, hs.eq_zero_iff]
    push_cast
    have e : 2 * (v / den) = 2 * v / den := by ring
    rw [e, div_lt_iff₀ hd, div_eq_iff hd.ne', sub_lt_zero, sub_eq_zero]
    rw [mul_comm (den : ℝ)]
  by_cases htop : below F32.infMag = true
  · -- at or above the value of the infinity code both sides are infinity
    have hge : F32.infMag ≤ b := s3 _ htop (by decide)
    obtain ⟨e, he1, he2⟩ := F32.exists_code (by positivity : 0 ≤ v / den)
    have hee : F32.infMag < e + 1 := by
      have : (F32.codeUnits F32.infMag : ℝ) < F32.codeUnits (e + 1) := lt_of_le_of_lt ((hb _).mp htop) he2
      exact F32.codeUnits_strictMono.lt_iff_lt.mp (by exact_mod_cast this)
    refine ⟨e, he1, he2, ?_⟩
    have hmin : ∀ (p : Prop) [Decidable p] (a : Nat), F32.infMag ≤ a → min F32.infMag (if p then a else a + 1) = F32.infMag :=
      fun p _ a ha => Nat.min_eq_left (by split <;> omega)
    rw [hexact, hmin _ b hge, hmin _ e (by omega)]
  · have hb1 : below (b + 1) = false := by
      by_contra hcon
      have hlt : b + 1 < F32.infMag := by
        by_contra hge
        exact htop (hmono F32.infMag (b + 1) (by omega) (by simpa using hcon))
      have hinf : F32.infMag < 0 + 2 ^ 31 := by decide
      have := s3 (b + 1) (by simpa using hcon) (by omega)
      omega
    refine ⟨b, (hb b).mp s1, ?_, ?_⟩
    · have := (hb (b + 1)).not.mp (by rw [hb1]; simp)
      exact not_le.mp this
    · rw [hexact]
      by_cases hc : (2 * (v / den) < F32.codeUnits b + F32.codeUnits (b + 1)
          ∨ (2 * (v / den) = F32.codeUnits b + F32.codeUnits (b + 1) ∧ b % 2 = 0))
      · rw [if_pos hc, if_pos (hiff.mpr hc)]
      · rw [if_neg hc, if_neg (fun h => hc (hiff.mp h))]

theorem Cosine.combo_neg (m : Nat) (cs : List Int) :
    Cosine.combo m (cs.map fun c => -c) = -Cosine.combo m cs := lin_neg _ _

/-- Nothing for zero, else the sign of `v` and the magnitude code nearest `|v| / den`. -/
def Cosine.RndOk (v : ℝ) (den : Nat) : Option (Bool × Nat) → Prop
  | none => v = 0
  | some p => v ≠ 0 ∧ (p.1 = true ↔ v < 0) ∧ F32.RoundsTo (|v| / den) p.2

/-- `Cosine.rnd` rounds the exact combination. -/
theorem Cosine.rnd_spec (m den : Nat) (cs : List Int) (hden : 0 < den) (h : cs.length = 2 ^ m) :
    Cosine.RndOk (Cosine.combo m cs) den (Cosine.rnd (Cosine.table m) m den cs) := by
  have hd : (0 : ℝ) < den := by exact_mod_cast hden
  have ho := Cosine.one_pos
  have ho' : 0 < Cosine.one := by decide
  obtain ⟨e1, e2⟩ := Cosine.enclose_encloses (fun i => Real.cos (i * Cosine.theta m)) (Cosine.table m) cs
    (by rw [(Cosine.table_ok m).1, h]) (fun j hj => (Cosine.table_ok m).2 j (by omega))
  change _ ≤ Cosine.combo m cs * _ at e1
  change Cosine.combo m cs * _ ≤ _ at e2
  have hs := Cosine.cmpTwice_isSign m cs 0 h
  simp only [Int.cast_zero, sub_zero] at hs
  have hneg : (cs.map fun c => -c).length = 2 ^ m := by simpa using h
  unfold Cosine.rnd
  dsimp only
  generalize Cosine.enclose (Cosine.table m) cs = e at *
  -- the enclosure's ends, divided
  have hround : ∀ z : Int, F32.RoundsTo (|(z : ℝ)| / (den * Cosine.one)) (F32.roundMag z.natAbs (den * Cosine.one)) := by
    intro z
    have := F32.roundMag_roundsTo z.natAbs (den * Cosine.one) (by positivity)
    rw [Nat.cast_natAbs] at this
    push_cast at this
    exact this
  have hdiv : |Cosine.combo m cs| / den = |Cosine.combo m cs * Cosine.one| / (den * Cosine.one) := by
    rw [abs_mul, abs_of_pos ho]; field_simp
  have hdo : (0 : ℝ) < den * Cosine.one := by positivity
  split
  · rename_i hz
    have h1 : (e.1 : ℝ) = 0 := by exact_mod_cast hz.1
    have h2 : (e.2 : ℝ) = 0 := by exact_mod_cast hz.2
    have : Cosine.combo m cs * Cosine.one = 0 := le_antisymm (by linarith) (by linarith)
    exact (mul_eq_zero.mp this).resolve_right ho.ne'
  · split
    · rename_i _ hp
      have h1 : (0 : ℝ) < e.1 := by exact_mod_cast hp.1
      have hpos : 0 < Cosine.combo m cs := by
        by_contra hcon
        have : Cosine.combo m cs * Cosine.one ≤ 0 := mul_nonpos_of_nonpos_of_nonneg (not_lt.mp hcon) ho.le
        linarith
      refine ⟨hpos.ne', by simp [hpos.le], ?_⟩
      have hr1 := hround e.1
      have hr2 := hround e.2
      rw [← hp.2] at hr2
      rw [abs_of_pos h1] at hr1
      rw [abs_of_pos (by linarith : (0 : ℝ) < e.2)] at hr2
      rw [hdiv, abs_of_pos (by positivity)]
      exact hr1.between hr2 (div_le_div_of_nonneg_right e1 hdo.le) (div_le_div_of_nonneg_right e2 hdo.le)
        (by positivity)
    · split
      · rename_i _ _ hn
        have h2 : (e.2 : ℝ) < 0 := by exact_mod_cast hn.1
        have hlt : Cosine.combo m cs < 0 := by
          by_contra hcon
          have : 0 ≤ Cosine.combo m cs * Cosine.one := mul_nonneg (not_lt.mp hcon) ho.le
          linarith
        refine ⟨hlt.ne, by simp [hlt], ?_⟩
        have hr1 := hround e.1
        have hr2 := hround e.2
        rw [← hn.2] at hr2
        rw [abs_of_neg (by linarith : (e.1 : ℝ) < 0)] at hr1
        rw [abs_of_neg h2] at hr2
        rw [hdiv, abs_of_neg (by linarith)]
        exact hr2.between hr1 (div_le_div_of_nonneg_right (by linarith) hdo.le)
          (div_le_div_of_nonneg_right (by linarith) hdo.le) (div_nonneg (by linarith) hdo.le)
      · split
        · rename_i hz
          have := hs.eq_zero_iff.mp hz
          show Cosine.combo m cs = 0
          linarith
        · split
          · rename_i hp
            have hpos : 0 < Cosine.combo m cs := by have := hs.pos_iff.mp hp; linarith
            refine ⟨hpos.ne', by simp [hpos.le], ?_⟩
            rw [abs_of_pos hpos]
            exact Cosine.exactMag_roundsTo m den cs hden h hpos.le
          · rename_i hz hp
            have hne : Cosine.combo m cs ≠ 0 := fun h0 => hz (hs.eq_zero_iff.mpr (by rw [h0]; ring))
            have hnp : ¬ 0 < Cosine.combo m cs := fun h0 => hp (hs.pos_iff.mpr (by linarith))
            have hlt : Cosine.combo m cs < 0 := lt_of_le_of_ne (not_lt.mp hnp) hne
            refine ⟨hne, by simp [hlt], ?_⟩
            rw [abs_of_neg hlt, ← Cosine.combo_neg]
            exact Cosine.exactMag_roundsTo m den _ hden hneg (by rw [Cosine.combo_neg]; linarith)

end Sys2Proof
end

