-- ==== Sys2Proof/Laws/Curves.lean ====
section
/-! SUPPORT. What a legal list of pieces gives (42_distortion.md R182, R185, R186), and that every curve of these rules is given
by one. -/

namespace Sys2Proof

/-! ### The order of binary32 values -/

theorem F32.le_trans {a b c : Word} (h : F32.le a b = true) (h' : F32.le b c = true) : F32.le a c = true := by
  simp only [F32.le, Bool.and_eq_true, decide_eq_true_eq] at h h' ⊢
  exact ⟨⟨h.1.1, h'.1.2⟩, h.2.trans h'.2⟩

theorem F32.le_refl_of_isFinite {a : Word} (h : F32.isFinite a = true) : F32.le a a = true := by
  simp [F32.le, F32.not_isNaN_of_isFinite h]

theorem F32.isNaN_eq_false_iff (w : Word) : F32.isNaN w = false ↔ F32.mag w ≤ F32.infMag := by simp [F32.isNaN]

/-- The control values in `(0, 1]` are the words 1 to `0x3F800000`. -/
theorem F32.inUnit_iff (x : Word) : F32.inUnit x = true ↔ 1 ≤ x.toNat ∧ x.toNat ≤ 0x3F800000 := by
  have hx := x.isLt
  have h1 : F32.one.toNat = 0x3F800000 := rfl
  have h0 : F32.posZero.toNat = 0 := rfl
  simp only [F32.inUnit, F32.lt, F32.le, Bool.and_eq_true, decide_eq_true_eq, Bool.not_eq_true',
    F32.isNaN_eq_false_iff, F32.key, F32.sign_eq, F32.mag, h1, h0]
  simp only [F32.infMag]
  split_ifs <;> omega

namespace Machine

/-! ### Legal pieces -/

theorem curveConforms_finite {k : Curve} {v : Word} (h : curveConforms k v = true) : F32.isFinite v = true := by
  cases k <;> simp only [curveConforms, Bool.and_eq_true] at h <;> exact h.1

/-- The pieces of a legal list are those of its tail, after the first. -/
theorem piecesConform_cons {k : Curve} {p p' : Word × Word} {ps : List (Word × Word)}
    (h : piecesConform k (p :: p' :: ps) = true) : piecesConform k (p' :: ps) = true := by
  simp only [piecesConform, Bool.and_eq_true, decide_eq_true_eq, List.all_cons (a := p), List.pairwise_cons (a := p),
    List.getLast?_cons_cons] at h ⊢
  exact ⟨⟨h.1.1.2, h.1.2.2⟩, h.2⟩

/-- At a control value inside `(0, 1]` a legal list gives the value of one of its pieces. -/
theorem curveValue_mem {k : Curve} {ps : List (Word × Word)} (h : piecesConform k ps = true) {x : Word}
    (hx : F32.inUnit x = true) : ∃ p ∈ ps, curveValue ps x = p.2 := by
  induction ps with
  | nil => simp [piecesConform] at h
  | cons p ps ih =>
    by_cases hp : F32.le x p.1 = true
    · exact ⟨p, by simp, by simp [curveValue, hp]⟩
    · cases ps with
      | nil =>
        exfalso
        simp only [piecesConform, Bool.and_eq_true, List.getLast?_singleton, Option.map_some, beq_iff_eq,
          Option.some.injEq] at h
        rw [h.2] at hp
        simp only [F32.inUnit, Bool.and_eq_true] at hx
        exact hp hx.2
      | cons p' ps =>
        obtain ⟨r, hr, he⟩ := ih (piecesConform_cons h)
        refine ⟨r, List.mem_cons_of_mem _ hr, ?_⟩
        rw [curveValue, if_neg hp, he]

/-- The values of a legal curve inside `(0, 1]` are within its limits. -/
theorem curveConforms_curveValue {k : Curve} {ps : List (Word × Word)} (h : piecesConform k ps = true) {x : Word}
    (hx : F32.inUnit x = true) : curveConforms k (curveValue ps x) = true := by
  obtain ⟨p, hp, he⟩ := curveValue_mem h hx
  simp only [piecesConform, Bool.and_eq_true, List.all_eq_true] at h
  rw [he]
  exact (h.1.1 p hp).2

/-- A legal curve is in its order on `(0, 1]`. -/
theorem curveOrder_curveValue {k : Curve} {ps : List (Word × Word)} (h : piecesConform k ps = true) {x y : Word}
    (hy : F32.inUnit y = true) (hxy : F32.le x y = true) :
    curveOrder k (curveValue ps x) (curveValue ps y) = true := by
  have refl : ∀ v, curveConforms k v = true → curveOrder k v v = true := fun v hv => by
    have := F32.le_refl_of_isFinite (curveConforms_finite hv)
    cases k <;> first | exact this | rfl
  induction ps with
  | nil => simp [piecesConform] at h
  | cons p ps ih =>
    by_cases hpy : F32.le y p.1 = true
    · have hpx := F32.le_trans hxy hpy
      have hv := curveConforms_curveValue h hy
      simp only [curveValue, hpx, hpy, if_true] at hv ⊢
      exact refl _ hv
    · cases ps with
      | nil =>
        exfalso
        simp only [piecesConform, Bool.and_eq_true, List.getLast?_singleton, Option.map_some, beq_iff_eq,
          Option.some.injEq] at h
        rw [h.2] at hpy
        simp only [F32.inUnit, Bool.and_eq_true] at hy
        exact hpy hy.2
      | cons p' ps =>
        have ht := piecesConform_cons h
        by_cases hpx : F32.le x p.1 = true
        · obtain ⟨r, hr, he⟩ := curveValue_mem ht hy
          have hr' : curveOrder k p.2 r.2 = true := by
            simp only [piecesConform, Bool.and_eq_true, decide_eq_true_eq, List.pairwise_cons] at h
            exact (h.1.2.1 r hr).2
          rw [curveValue, if_pos hpx, curveValue, if_neg hpy, he]
          exact hr'
        · rw [show curveValue (p :: p' :: ps) x = curveValue (p' :: ps) x by rw [curveValue, if_neg hpx],
            show curveValue (p :: p' :: ps) y = curveValue (p' :: ps) y by rw [curveValue, if_neg hpy]]
          exact ih ht

/-- The curves of a block of which nothing is known are legal. -/
theorem curvesConform_openCurves : curvesConform openCurves = true := by
  have h : ∀ k, piecesConform k (openCurve k) = true := by
    intro k
    unfold openCurve
    split
    · assumption
    · cases k <;> decide
  simp [curvesConform, openCurves, h]

/-- A curve of a legal build is a legal list of pieces. -/
theorem piecesConform_curvePieces {cs : Curves} (h : curvesConform cs = true) (k : Curve) :
    piecesConform k (curvePieces cs k) = true := by
  simp only [curvesConform, Bool.and_eq_true] at h
  cases k
  exacts [h.1.1.1, h.1.1.2, h.1.2, h.2]

/-! ### No curve is left out -/

/-- The value at `c + 1` of the pieces that give each of the words from `c + 1` on its own value. -/
theorem curveValue_range' (f : Word → Word) (n c : Nat) (hn : c + n ≤ 0x3F800000) {x : Word} (hc : c < x.toNat)
    (hx : x.toNat ≤ c + n) :
    curveValue ((List.range' (c + 1) n).map fun i => (BitVec.ofNat 32 i, f (BitVec.ofNat 32 i))) x = f x := by
  induction n generalizing c with
  | zero => omega
  | succ n ih =>
    have hle : ∀ i, i ≤ 0x3F800000 → 1 ≤ i → (F32.le x (BitVec.ofNat 32 i) = true ↔ x.toNat ≤ i) := by
      intro i hi h1
      have e : (BitVec.ofNat 32 i).toNat = i := by rw [BitVec.toNat_ofNat]; omega
      simp only [F32.le, F32.isNaN_eq_false_iff, F32.key, F32.sign_eq, F32.mag, e, Bool.and_eq_true, Bool.not_eq_true',
        decide_eq_true_eq]
      simp only [F32.infMag]
      rw [if_neg (by omega), if_neg (by omega)]
      omega
    rw [List.range'_succ, List.map_cons, curveValue]
    by_cases h : x.toNat ≤ c + 1
    · rw [if_pos ((hle (c + 1) (by omega) (by omega)).mpr h)]
      congr 1
      apply BitVec.eq_of_toNat_eq
      rw [BitVec.toNat_ofNat]
      omega
    · rw [if_neg fun hc' => h ((hle (c + 1) (by omega) (by omega)).mp hc')]
      exact ih (c + 1) (by omega) (by omega) (by omega)

/-- No curve is left out: every function that is within the limits of 42_distortion.md R182, R185 and R186 and in their order
inside `(0, 1]` is given by a legal list of pieces (log entry 3). -/
theorem exists_pieces (k : Curve) (f : Word → Word) (hv : ∀ x, F32.inUnit x = true → curveConforms k (f x) = true)
    (ho : ∀ x y, F32.inUnit x = true → F32.inUnit y = true → F32.le x y = true → curveOrder k (f x) (f y) = true) :
    ∃ ps, piecesConform k ps = true ∧ ∀ x, F32.inUnit x = true → curveValue ps x = f x := by
  have top : (0x3F800000 : Nat) = 0x3F7FFFFF + 1 := rfl
  refine ⟨(List.range' (0 + 1) 0x3F800000).map fun i => (BitVec.ofNat 32 i, f (BitVec.ofNat 32 i)), ?_, fun x hx => ?_⟩
  · generalize hT : (0x3F800000 : Nat) = T at top
    have hin : ∀ i, 1 ≤ i → i ≤ T → F32.inUnit (BitVec.ofNat 32 i) = true := by
      intro i h1 h2
      rw [F32.inUnit_iff, BitVec.toNat_ofNat]
      omega
    simp only [piecesConform, Bool.and_eq_true, decide_eq_true_eq, List.all_map, List.all_eq_true, Function.comp,
      List.pairwise_map, beq_iff_eq]
    refine ⟨⟨fun i hi => ?_, ?_⟩, ?_⟩
    · rw [List.mem_range'_1] at hi
      have := hin i (by omega) (by omega)
      exact ⟨this, hv _ this⟩
    · refine (List.pairwise_lt_range' (s := 0 + 1) (n := T) (step := 1)).imp_of_mem fun {i j} hi hj hij => ?_
      rw [List.mem_range'_1] at hi hj
      have ei : (BitVec.ofNat 32 i).toNat = i := by rw [BitVec.toNat_ofNat]; omega
      have ej : (BitVec.ofNat 32 j).toNat = j := by rw [BitVec.toNat_ofNat]; omega
      have hl : F32.lt (BitVec.ofNat 32 i) (BitVec.ofNat 32 j) = true
          ∧ F32.le (BitVec.ofNat 32 i) (BitVec.ofNat 32 j) = true := by
        simp only [F32.lt, F32.le, F32.isNaN_eq_false_iff, F32.key, F32.sign_eq, F32.mag, ei, ej, Bool.and_eq_true,
          Bool.not_eq_true', decide_eq_true_eq]
        simp only [F32.infMag]
        rw [if_neg (by omega), if_neg (by omega)]
        omega
      exact ⟨hl.1, ho _ _ (hin i (by omega) (by omega)) (hin j (by omega) (by omega)) hl.2⟩
    · rw [top, List.range'_concat, List.map_append, List.getLast?_append]
      simp only [List.map_cons, List.map_nil, List.getLast?_singleton, Option.some_or, Option.map_some, Option.some.injEq]
      apply BitVec.eq_of_toNat_eq
      rw [BitVec.toNat_ofNat]
      decide
  · obtain ⟨h1, h2⟩ := (F32.inUnit_iff x).mp hx
    exact curveValue_range' f 0x3F800000 0 (by omega) (by omega) (by omega)

end Machine

end Sys2Proof
end

