-- ==== Sys2Proof/Laws/Decode.lean ====
section
/-! SUPPORT. The fields of a command word as arithmetic on its number, and what the encoder's words hold. -/

namespace Sys2Proof

theorem opcField_eq (w : Word) : opcField w = w.toNat % 256 := by simp [opcField]

theorem chField_eq (w : Word) : chField w = w.toNat / 256 % 16 := by
  simp [chField, Nat.shiftRight_eq_div_pow]

theorem rsvField_eq (w : Word) : rsvField w = w.toNat / 4096 % 16 := by
  simp [rsvField, Nat.shiftRight_eq_div_pow]

theorem lenField_eq (w : Word) : lenField w = w.toNat / 65536 := by
  have := w.isLt
  simp [lenField, Nat.shiftRight_eq_div_pow]
  omega

/-- Bits 31:8 are all 0 when the number is below `2^8`. -/
theorem upperBits_eq_zero (w : Word) : w.extractLsb' 8 24 = 0 ↔ w.toNat / 256 = 0 := by
  have := w.isLt
  rw [← BitVec.toNat_inj]
  simp [Nat.shiftRight_eq_div_pow]
  omega

/-- Format Z in terms of the word's number. -/
theorem decodeZ_eq (w : Word) (i : Instr) :
    decodeZ w i = if w.toNat / 256 = 0 then .ok i else .error .operandBitsInFormatZ := by
  simp only [decodeZ, upperBits_eq_zero]

/-- Formats CL and KL in terms of the word's number. -/
theorem decodeCL_eq (w : Word) (mk : Nat → Nat → Instr) :
    decodeCL w mk = if w.toNat / 4096 % 16 = 0 then .ok (mk (w.toNat / 256 % 16) (w.toNat / 65536))
      else .error .reservedFieldSet := by
  simp only [decodeCL, rsvField_eq, chField_eq, lenField_eq]

/-- The number of the word the encoder writes for formats CL and KL. -/
theorem toNat_encodeCL {o c l : Nat} (ho : o < 256) (hc : c < 16) (hl : l < 65536) :
    (encodeCL o c l).toNat = l * 65536 + c * 256 + o := by
  have e : l <<< 16 ||| c <<< 8 ||| o = l * 65536 + c * 256 + o := by
    rw [Nat.or_assoc, ← Nat.shiftLeft_add_eq_or_of_lt (i := 8) (b := o) (by omega),
      ← Nat.shiftLeft_add_eq_or_of_lt (i := 16) (by rw [Nat.shiftLeft_eq]; omega)]
    simp only [Nat.shiftLeft_eq]
    omega
  simp only [encodeCL, BitVec.toNat_or, BitVec.toNat_shiftLeft, BitVec.toNat_ofNat]
  rw [Nat.mod_eq_of_lt (a := l) (by omega), Nat.mod_eq_of_lt (a := c) (by omega), Nat.mod_eq_of_lt (a := o) (by omega),
    Nat.mod_eq_of_lt (a := l <<< 16) (by rw [Nat.shiftLeft_eq]; omega),
    Nat.mod_eq_of_lt (a := c <<< 8) (by rw [Nat.shiftLeft_eq]; omega), e]

/-- The mask of formats CL and KL keeps `OPC` and `RSV` (R106). -/
theorem and_operandMask (w : Word) :
    w &&& 0x0000F0FF#32 = BitVec.ofNat 32 (w.toNat / 4096 % 16 * 4096 + w.toNat % 256) := by
  have hm : ∀ i < 32, (0x0000F0FF#32 : Word).getLsbD i = (decide (i < 8) || (decide (12 ≤ i) && decide (i < 16))) := by
    decide
  refine BitVec.eq_of_getLsbD_eq fun i hi => ?_
  rw [BitVec.getLsbD_and, hm i hi, BitVec.getLsbD_ofNat]
  have e : w.toNat / 4096 % 16 * 4096 + w.toNat % 256 = 2 ^ 12 * (w.toNat / 2 ^ 12 % 2 ^ 4) + w.toNat % 2 ^ 8 := by
    norm_num; ring
  rw [e, Nat.testBit_two_pow_mul_add _ (lt_of_lt_of_le (Nat.mod_lt _ (by norm_num)) (by norm_num))]
  simp only [Nat.testBit_mod_two_pow, Nat.testBit_div_two_pow, hi, decide_true, Bool.true_and, BitVec.getLsbD]
  split_ifs with h
  · have : ¬ 12 ≤ i := by omega
    simp [this, Bool.and_comm]
  · have h1 : ¬ i < 8 := by omega
    have h2 : 12 ≤ i := by omega
    have h3 : i - 12 < 4 ↔ i < 16 := by omega
    rw [show i - 12 + 12 = i by omega]
    simp [h1, h2, h3, Bool.and_comm]

/-- The mask of format Z keeps every bit (R106). -/
theorem and_fullMask (w : Word) : w &&& 0xFFFFFFFF#32 = w := BitVec.and_allOnes

end Sys2Proof
end

