-- ==== Sys2Proof/Laws/State.lean ====
section
/-! SUPPORT. One lemma per field and update of the state, so that no later proof unfolds a record update. -/

namespace Sys2Proof.Machine

@[simp] theorem complete_cfg (s : State) : (complete s).cfg = s.cfg := rfl
@[simp] theorem complete_cmd (s : State) : (complete s).cmd = s.cmd := rfl
@[simp] theorem complete_code (s : State) : (complete s).code = .normal := rfl
@[simp] theorem complete_sticky (s : State) : (complete s).sticky = s.sticky := rfl
@[simp] theorem complete_crunchVal (s : State) : (complete s).crunchVal = s.crunchVal := rfl
@[simp] theorem complete_crushVal (s : State) : (complete s).crushVal = s.crushVal := rfl
@[simp] theorem complete_frame (s : State) : (complete s).frame = s.frame := rfl
@[simp] theorem complete_vec (s : State) : (complete s).vec = s.vec := rfl
@[simp] theorem complete_channels (s : State) : (complete s).channels = s.channels := rfl
@[simp] theorem complete_pending (s : State) : (complete s).pending = s.pending := rfl
@[simp] theorem complete_replies (s : State) : (complete s).replies = s.replies := rfl
@[simp] theorem complete_draws (s : State) : (complete s).draws = s.draws := rfl

@[simp] theorem raise_cfg (e : StatusCode) (s : State) : (raise e s).cfg = s.cfg := rfl
@[simp] theorem raise_cmd (e : StatusCode) (s : State) : (raise e s).cmd = s.cmd := rfl
@[simp] theorem raise_code (e : StatusCode) (s : State) : (raise e s).code = e := rfl
@[simp] theorem raise_sticky (e : StatusCode) (s : State) : (raise e s).sticky = true := rfl
@[simp] theorem raise_crunchVal (e : StatusCode) (s : State) : (raise e s).crunchVal = s.crunchVal := rfl
@[simp] theorem raise_crushVal (e : StatusCode) (s : State) : (raise e s).crushVal = s.crushVal := rfl
@[simp] theorem raise_frame (e : StatusCode) (s : State) : (raise e s).frame = s.frame := rfl
@[simp] theorem raise_vec (e : StatusCode) (s : State) : (raise e s).vec = s.vec := rfl
@[simp] theorem raise_channels (e : StatusCode) (s : State) : (raise e s).channels = s.channels := rfl
@[simp] theorem raise_pending (e : StatusCode) (s : State) : (raise e s).pending = s.pending := rfl
@[simp] theorem raise_replies (e : StatusCode) (s : State) : (raise e s).replies = s.replies := rfl
@[simp] theorem raise_draws (e : StatusCode) (s : State) : (raise e s).draws = s.draws := rfl

@[simp] theorem setChannel_cfg (c : Nat) (k : Channel) (s : State) : (setChannel c k s).cfg = s.cfg := rfl
@[simp] theorem setChannel_cmd (c : Nat) (k : Channel) (s : State) : (setChannel c k s).cmd = s.cmd := rfl
@[simp] theorem setChannel_code (c : Nat) (k : Channel) (s : State) : (setChannel c k s).code = s.code := rfl
@[simp] theorem setChannel_sticky (c : Nat) (k : Channel) (s : State) : (setChannel c k s).sticky = s.sticky := rfl
@[simp] theorem setChannel_crunchVal (c : Nat) (k : Channel) (s : State) : (setChannel c k s).crunchVal = s.crunchVal := rfl
@[simp] theorem setChannel_crushVal (c : Nat) (k : Channel) (s : State) : (setChannel c k s).crushVal = s.crushVal := rfl
@[simp] theorem setChannel_frame (c : Nat) (k : Channel) (s : State) : (setChannel c k s).frame = s.frame := rfl
@[simp] theorem setChannel_vec (c : Nat) (k : Channel) (s : State) : (setChannel c k s).vec = s.vec := rfl
@[simp] theorem setChannel_channels (c : Nat) (k : Channel) (s : State) : (setChannel c k s).channels = s.channels.set c k := rfl
@[simp] theorem setChannel_pending (c : Nat) (k : Channel) (s : State) : (setChannel c k s).pending = s.pending := rfl
@[simp] theorem setChannel_replies (c : Nat) (k : Channel) (s : State) : (setChannel c k s).replies = s.replies := rfl
@[simp] theorem setChannel_draws (c : Nat) (k : Channel) (s : State) : (setChannel c k s).draws = s.draws := rfl

@[simp] theorem hostRead_cfg (a : WordAddr) (s : State) : (hostRead a s).cfg = s.cfg := rfl
@[simp] theorem hostRead_cmd (a : WordAddr) (s : State) : (hostRead a s).cmd = s.cmd := rfl
@[simp] theorem hostRead_code (a : WordAddr) (s : State) : (hostRead a s).code = s.code := rfl
@[simp] theorem hostRead_sticky (a : WordAddr) (s : State) : (hostRead a s).sticky = s.sticky := rfl
@[simp] theorem hostRead_crunchVal (a : WordAddr) (s : State) : (hostRead a s).crunchVal = s.crunchVal := rfl
@[simp] theorem hostRead_crushVal (a : WordAddr) (s : State) : (hostRead a s).crushVal = s.crushVal := rfl
@[simp] theorem hostRead_frame (a : WordAddr) (s : State) : (hostRead a s).frame = s.frame := rfl
@[simp] theorem hostRead_vec (a : WordAddr) (s : State) : (hostRead a s).vec = s.vec := rfl
@[simp] theorem hostRead_channels (a : WordAddr) (s : State) : (hostRead a s).channels = s.channels := rfl
@[simp] theorem hostRead_pending (a : WordAddr) (s : State) : (hostRead a s).pending = s.pending := rfl
@[simp] theorem hostRead_replies (a : WordAddr) (s : State) : (hostRead a s).replies = s.replies ++ [.word (portRead s a)] := rfl
@[simp] theorem hostRead_draws (a : WordAddr) (s : State) : (hostRead a s).draws = s.draws := rfl

@[simp] theorem adapterReply_cfg (a : WordAddr) (s : State) : (adapterReply a s).cfg = s.cfg := rfl
@[simp] theorem adapterReply_cmd (a : WordAddr) (s : State) : (adapterReply a s).cmd = s.cmd := rfl
@[simp] theorem adapterReply_code (a : WordAddr) (s : State) : (adapterReply a s).code = s.code := rfl
@[simp] theorem adapterReply_sticky (a : WordAddr) (s : State) : (adapterReply a s).sticky = s.sticky := rfl
@[simp] theorem adapterReply_crunchVal (a : WordAddr) (s : State) : (adapterReply a s).crunchVal = s.crunchVal := rfl
@[simp] theorem adapterReply_crushVal (a : WordAddr) (s : State) : (adapterReply a s).crushVal = s.crushVal := rfl
@[simp] theorem adapterReply_frame (a : WordAddr) (s : State) : (adapterReply a s).frame = s.frame := rfl
@[simp] theorem adapterReply_vec (a : WordAddr) (s : State) : (adapterReply a s).vec = s.vec := rfl
@[simp] theorem adapterReply_channels (a : WordAddr) (s : State) : (adapterReply a s).channels = s.channels := rfl
@[simp] theorem adapterReply_pending (a : WordAddr) (s : State) : (adapterReply a s).pending = s.pending := rfl
@[simp] theorem adapterReply_draws (a : WordAddr) (s : State) : (adapterReply a s).draws = s.draws := rfl
@[simp] theorem adapterReply_replies (a : WordAddr) (s : State) :
    (adapterReply a s).replies = s.replies ++ [.bytes (toLanes (portRead s a))] := rfl

@[simp] theorem offerCommand_cfg (w : Word) (s : State) : (offerCommand w s).cfg = s.cfg := rfl
@[simp] theorem offerCommand_cmd (w : Word) (s : State) : (offerCommand w s).cmd = s.cmd := rfl
@[simp] theorem offerCommand_code (w : Word) (s : State) : (offerCommand w s).code = s.code := rfl
@[simp] theorem offerCommand_sticky (w : Word) (s : State) : (offerCommand w s).sticky = s.sticky := rfl
@[simp] theorem offerCommand_crunchVal (w : Word) (s : State) : (offerCommand w s).crunchVal = s.crunchVal := rfl
@[simp] theorem offerCommand_crushVal (w : Word) (s : State) : (offerCommand w s).crushVal = s.crushVal := rfl
@[simp] theorem offerCommand_frame (w : Word) (s : State) : (offerCommand w s).frame = s.frame := rfl
@[simp] theorem offerCommand_vec (w : Word) (s : State) : (offerCommand w s).vec = s.vec := rfl
@[simp] theorem offerCommand_channels (w : Word) (s : State) : (offerCommand w s).channels = s.channels := rfl
@[simp] theorem offerCommand_pending (w : Word) (s : State) : (offerCommand w s).pending = .port (.write cmdAddr w) :: s.pending := rfl
@[simp] theorem offerCommand_replies (w : Word) (s : State) : (offerCommand w s).replies = s.replies := rfl
@[simp] theorem offerCommand_draws (w : Word) (s : State) : (offerCommand w s).draws = s.draws := rfl

@[simp] theorem Frame.get_put (f : Frame) (k : FrameArray) (l : List Word) : (f.put k l).get k = l := by
  cases k <;> rfl

theorem Frame.get_put_of_ne (f : Frame) {k k' : FrameArray} (h : k' ≠ k) (l : List Word) :
    (f.put k l).get k' = f.get k' := by
  cases k <;> cases k' <;> first | rfl | exact absurd rfl h

/-- Clearing `STICKY` through `STATUS`, said without a case split (10_state.md R35). -/
theorem writeStatus_eq (v : Word) (s : State) :
    writeStatus v s = { s with sticky := s.sticky && !v.getLsbD 8 } := by
  unfold writeStatus BitVec.getLsbD
  split <;> simp_all

end Sys2Proof.Machine
end

