-- ==== Sys2Proof/Laws/Ops.lean ====
section
/-! SUPPORT. What the shared operations over the port space and the registers can do, each said once. -/

namespace Sys2Proof.Machine

/-! ### Well-formed states -/

/-- What a legal configuration is (00_scope.md R8). -/
theorem Config.wf_parts {cfg : Config} (h : cfg.wf = true) :
    cfg.n ∈ [2, 4, 8, 16, 32, 64, 128, 256, 512, 1024, 2048] ∧ (cfg.c = 1 ∨ cfg.c = 2) ∧ cfg.w.length = cfg.m
      ∧ cfg.rep < cfg.n ∧ F32.isQuietNaN cfg.nanOut = true ∧ curvesConform cfg.curves = true
      ∧ cfg.transform.keepsZeros = true := by
  simp only [Config.wf, Bool.and_eq_true, Bool.or_eq_true, beq_iff_eq, decide_eq_true_eq] at h
  tauto

/-- The configuration of a well-formed state is legal. -/
theorem State.wf_cfg {s : State} (h : s.wf = true) : s.cfg.wf = true := by
  simp only [State.wf, Bool.and_eq_true] at h
  exact h.1.1.1.1

/-! ### Channels -/

/-- Reading a channel after one was replaced. -/
theorem channelAt_setChannel (c c' : Nat) (k : Channel) (s : State) :
    channelAt (setChannel c k s) c' = if c' = c ∧ c < s.channels.length then k else channelAt s c' := by
  simp only [channelAt, setChannel, List.getD_eq_getElem?_getD, List.getElem?_set]
  split_ifs <;> simp_all

@[simp] theorem channelAt_setChannel_of_ne {c c' : Nat} (h : c' ≠ c) (k : Channel) (s : State) :
    channelAt (setChannel c k s) c' = channelAt s c' := by
  simp [channelAt_setChannel, h]

theorem channelAt_setChannel_self {c : Nat} {s : State} (h : c < s.channels.length) (k : Channel) :
    channelAt (setChannel c k s) c = k := by
  simp [channelAt_setChannel, h]

@[simp] theorem channelAt_complete (s : State) (c : Nat) : channelAt (complete s) c = channelAt s c := rfl

@[simp] theorem channelAt_raise (e : StatusCode) (s : State) (c : Nat) : channelAt (raise e s) c = channelAt s c := rfl

/-- Replacing a channel by itself changes nothing. -/
theorem setChannel_self (c : Nat) (s : State) : setChannel c (channelAt s c) s = s := by
  cases s
  simp only [setChannel, channelAt, List.getD_eq_getElem?_getD]
  congr 1
  refine List.ext_getElem? fun i => ?_
  rw [List.getElem?_set]
  split_ifs <;> simp_all

/-- Replacing two different channels, in either order. -/
theorem setChannel_comm {c c' : Nat} (h : c ≠ c') (k k' : Channel) (s : State) :
    setChannel c k (setChannel c' k' s) = setChannel c' k' (setChannel c k s) := by
  simp only [setChannel]
  rw [List.set_comm _ _ h]

/-- The channels of a well-formed state are well formed. -/
theorem channelAt_wf {s : State} (h : s.wf = true) {c : Nat} (hc : c < s.cfg.c) :
    Channel.wf s.cfg (channelAt s c) = true := by
  simp only [State.wf, Bool.and_eq_true, beq_iff_eq, List.all_eq_true] at h
  have hl : c < s.channels.length := by omega
  rw [channelAt, List.getD_eq_getElem?_getD, List.getElem?_eq_getElem hl]
  exact h.2 _ (List.getElem_mem hl)

/-- Replacing a channel by a well-formed one keeps the state well formed. -/
theorem setChannel_wf {s : State} (h : s.wf = true) (c : Nat) {k : Channel} (hk : Channel.wf s.cfg k = true) :
    (setChannel c k s).wf = true := by
  simp only [State.wf, Bool.and_eq_true, beq_iff_eq, List.all_eq_true, setChannel_cfg, setChannel_frame,
    setChannel_vec, setChannel_channels, List.length_set] at h ⊢
  refine ⟨h.1, fun x hx => ?_⟩
  rcases List.mem_or_eq_of_mem_set hx with hx | rfl
  · exact h.2 x hx
  · exact hk

/-! ### Ending a command -/

/-- A command whose check failed writes `CODE` and `STICKY` only. -/
theorem checked_some {e : StatusCode} {body : State → State} {s : State} {o : Option StatusCode} (h : o = some e) :
    checked o body s = { s with code := e, sticky := true } := by
  subst h; rfl

/-- A command whose check passed has its effect and `CODE` is `NORMAL`. -/
theorem checked_none {body : State → State} {s : State} {o : Option StatusCode} (h : o = none) :
    checked o body s = { body s with code := .normal } := by
  subst h; rfl

theorem blockError_eq_none {cfg : Config} {ch len : Nat} :
    blockError cfg ch len = none ↔ ch < cfg.c ∧ len = cfg.n := by
  unfold blockError
  split_ifs <;> simp_all

theorem callError_eq_none {cfg : Config} {count len : Nat} :
    callError cfg count len = none ↔ count ≠ 0 ∧ cfg.c ≤ count ∧ len = cfg.n := by
  unfold callError
  split_ifs <;> simp_all

/-- No check raises `NORMAL`. -/
theorem blockError_ne_normal (cfg : Config) (ch len : Nat) : blockError cfg ch len ≠ some .normal := by
  unfold blockError
  split_ifs <;> simp

theorem callError_ne_normal (cfg : Config) (count len : Nat) : callError cfg count len ≠ some .normal := by
  unfold callError
  split_ifs <;> simp

/-! ### The address map -/

theorem within_eq_unmapped {off len : Nat} {x : Target} (hx : x ≠ .unmapped) :
    Target.within off len x = .unmapped ↔ len ≤ off := by
  unfold Target.within
  split_ifs <;> simp_all

/-- The word address of a target. -/
def Target.addr : Target → Nat
  | .cfg => 0
  | .cmd => 1
  | .status => 2
  | .crunchVal => 3
  | .crushVal => 4
  | .frame .drive i => 0x1000 + i
  | .frame .crunch i => 0x2000 + i
  | .frame .crush i => 0x3000 + i
  | .frame .mix i => 0x4000 + i
  | .frame .gain i => 0x5000 + i
  | .vec j => 0x6000 + j
  | .io c i => 0x8000 + 0x1000 * c + i
  | .unmapped => 0xFFFF

/-- A mapped address is the address of what it selects (20_memory.md R72). -/
theorem addr_locate (cfg : Config) (a : WordAddr) (h : locate cfg a ≠ .unmapped) :
    (locate cfg a).addr = a.toNat := by
  have hr := Nat.div_add_mod a.toNat (2 ^ 12)
  have hlt := a.isLt
  revert h
  unfold locate Target.within
  intro h
  dsimp only at h ⊢
  split at h
  all_goals try (split at h)
  all_goals try (split at h)
  all_goals simp_all [Target.addr]
  all_goals omega

/-- No two addresses select the same register or element (20_memory.md R72). -/
theorem locate_inj {cfg : Config} {a b : WordAddr} (h : locate cfg a = locate cfg b) (ha : locate cfg a ≠ .unmapped) :
    a = b := by
  have h1 := addr_locate cfg a ha
  have h2 := addr_locate cfg b (h ▸ ha)
  rw [h, h2] at h1
  exact BitVec.eq_of_toNat_eq h1.symm

/-- The index of a target lies inside its array, and its channel exists. -/
def Target.Inside (cfg : Config) : Target → Prop
  | .frame _ i => i < cfg.n
  | .vec j => j < cfg.m
  | .io c i => i < cfg.n ∧ (c = 0 ∨ c = 1 ∧ cfg.c = 2)
  | _ => True

/-- The address R72 gives a register or element selects that one: the converse of `addr_locate`. -/
theorem locate_addr {cfg : Config} (hn : cfg.n ≤ 2048) {t : Target} (ht : t.Inside cfg) (hu : t ≠ .unmapped) :
    locate cfg (BitVec.ofNat 16 t.addr) = t := by
  have key : ∀ r o : Nat, r < 16 → o < 4096 → t.addr = 4096 * r + o →
      (BitVec.ofNat 16 t.addr).toNat / 2 ^ 12 = r ∧ (BitVec.ofNat 16 t.addr).toNat % 2 ^ 12 = o := by
    intro r o hr ho h
    rw [h, BitVec.toNat_ofNat, Nat.mod_eq_of_lt (by omega)]
    omega
  cases t with
  | frame k i =>
    have hi : i < cfg.n := ht
    cases k
    · simp only [locate, Target.within, key 1 i (by omega) (by omega) rfl, hi, if_true]
    · simp only [locate, Target.within, key 2 i (by omega) (by omega) rfl, hi, if_true]
    · simp only [locate, Target.within, key 3 i (by omega) (by omega) rfl, hi, if_true]
    · simp only [locate, Target.within, key 4 i (by omega) (by omega) rfl, hi, if_true]
    · simp only [locate, Target.within, key 5 i (by omega) (by omega) rfl, hi, if_true]
  | vec j =>
    have hj : j < cfg.m := ht
    have hm : cfg.m ≤ 4096 := by unfold Config.m; omega
    simp only [locate, Target.within, key 6 j (by omega) (by omega) rfl, hj, if_true]
  | io c i =>
    obtain ⟨hi, rfl | ⟨rfl, hc⟩⟩ := ht
    · simp only [locate, Target.within, key 8 i (by omega) (by omega) rfl, hi, if_true]
    · simp only [locate, Target.within, key 9 i (by omega) (by omega) rfl, hi, hc, if_true]
  | unmapped => exact absurd rfl hu
  | _ => rfl

/-- Every address selects something inside its array (20_memory.md R72, R73). -/
theorem locate_inside (cfg : Config) (a : WordAddr) : Target.Inside cfg (locate cfg a) := by
  unfold locate Target.within
  dsimp only
  split <;> (try split) <;> (try split) <;> simp_all [Target.Inside]

/-- Whether a target is an element of an array. -/
def Target.isArray : Target → Bool
  | .frame _ _ => true
  | .vec _ => true
  | .io _ _ => true
  | _ => false

/-- The addresses of R72's arrays are those that select an element. -/
theorem arrayAddr_eq (cfg : Config) (a : WordAddr) : arrayAddr cfg a = (locate cfg a).isArray := by
  have hr : a.toNat / 4096 < 16 := by have := a.isLt; omega
  unfold locate Target.within arrayAddr Config.m
  dsimp only
  generalize a.toNat / 4096 = r at hr ⊢
  generalize a.toNat % 4096 = o
  interval_cases r
  · simp only [List.mem_cons]
    split <;> simp [Target.isArray]
  all_goals simp
  all_goals try by_cases h3 : cfg.c = 2 <;> simp [h3, Target.isArray]
  all_goals try by_cases h1 : o < cfg.n <;> simp [h1]
  all_goals try by_cases h2 : o < 2 * cfg.n <;> simp [h2]

/-- An address that selects no register and no element. -/
theorem locate_eq_unmapped (cfg : Config) (a : WordAddr) :
    locate cfg a = .unmapped ↔ arrayAddr cfg a = false ∧ 5 ≤ a.toNat := by
  have hlt := a.isLt
  rw [arrayAddr_eq]
  constructor
  · intro h
    refine ⟨by rw [h]; rfl, ?_⟩
    by_contra hc
    have h0 : a.toNat / 4096 = 0 := by omega
    have h1 : a.toNat % 4096 = a.toNat := by omega
    unfold locate at h
    simp only [show (2 : ℕ) ^ 12 = 4096 from rfl, h0, h1] at h
    generalize a.toNat = n at *
    interval_cases n <;> simp at h
  · rintro ⟨h, h5⟩
    by_contra hc
    have ha := addr_locate cfg a hc
    revert h hc ha
    rcases locate cfg a with _ | _ | _ | _ | _ | _ | _ | _ | _ <;> simp_all [Target.isArray, Target.addr] <;> omega

@[simp] theorem locate_cmdAddr (cfg : Config) : locate cfg cmdAddr = .cmd := rfl

/-- Only the address of `CMD` selects `CMD`. -/
theorem locate_eq_cmd {cfg : Config} {a : WordAddr} : locate cfg a = .cmd ↔ a = cmdAddr := by
  constructor
  · intro h
    exact locate_inj (h.trans (locate_cmdAddr cfg).symm) (by rw [h]; exact fun h => nomatch h)
  · rintro rfl; rfl

/-! ### Stores and reads -/

/-- A store leaves the configuration, `CODE`, the host's side of the port and the Channel State alone. -/
theorem portStore_frame (a : WordAddr) (v : Word) (s : State) :
    (portStore a v s).cfg = s.cfg ∧ (portStore a v s).code = s.code ∧ (portStore a v s).pending = s.pending
      ∧ (portStore a v s).replies = s.replies ∧ (portStore a v s).draws = s.draws
      ∧ ∀ c, (channelAt (portStore a v s) c).hidden = (channelAt s c).hidden := by
  unfold portStore
  split <;> (try rw [writeStatus_eq]) <;> simp [channelAt]
  rename_i c i _
  intro c'
  rw [List.getElem?_set]
  split_ifs <;> simp_all [Channel.hidden]

@[simp] theorem portStore_cfg (a : WordAddr) (v : Word) (s : State) : (portStore a v s).cfg = s.cfg :=
  (portStore_frame a v s).1

/-- A store keeps the shape of the state. -/
theorem portStore_wf {s : State} (h : s.wf = true) (a : WordAddr) (v : Word) : (portStore a v s).wf = true := by
  have hin := locate_inside s.cfg a
  unfold portStore
  split <;> rename_i heq <;> rw [heq] at hin
  · exact h
  · exact h
  · rw [writeStatus_eq]; exact h
  · exact h
  · exact h
  · rename_i k i
    simp only [State.wf, Bool.and_eq_true] at h ⊢
    refine ⟨⟨⟨⟨h.1.1.1.1, ?_⟩, h.1.1.2⟩, h.1.2⟩, h.2⟩
    have hf := h.1.1.1.2
    cases k <;> simpa [Frame.wf, Frame.put, Frame.get] using hf
  · simpa [State.wf] using h
  · rename_i c i
    have hc : c < s.cfg.c := by
      have hw : s.cfg.c = 1 ∨ s.cfg.c = 2 := by
        exact (Config.wf_parts (State.wf_cfg h)).2.1
      simp only [Target.Inside] at hin
      omega
    refine setChannel_wf h c ?_
    have hk := channelAt_wf h hc
    simpa [Channel.wf] using hk
  · exact h

/-- An array element reads back the word stored there, unchanged (20_memory.md R74). -/
theorem portRead_portStore_self {s : State} (h : s.wf = true) {a : WordAddr} (ha : arrayAddr s.cfg a = true)
    (v : Word) : portRead (portStore a v s) a = v := by
  rw [arrayAddr_eq] at ha
  have hin := locate_inside s.cfg a
  simp only [portRead, portStore_cfg]
  unfold portStore
  simp only [State.wf, Bool.and_eq_true, Frame.wf, beq_iff_eq, List.all_eq_true] at h
  obtain ⟨⟨⟨⟨hc, hf⟩, hv⟩, hl⟩, hk⟩ := h
  split <;> rename_i heq <;> rw [heq] at hin ha <;> simp only [Target.isArray] at ha <;> try cases ha
  · rename_i k i
    simp only [Target.Inside] at hin
    cases k <;> simp_all [Frame.get, Frame.put]
  · simp only [Target.Inside] at hin
    simp_all
  · rename_i c i
    simp only [Target.Inside] at hin
    have hcc : s.cfg.c = 1 ∨ s.cfg.c = 2 := by
      exact (Config.wf_parts hc).2.1
    have hlt : c < s.channels.length := by omega
    rw [channelAt_setChannel_self hlt]
    have hw := hk _ (List.getElem_mem hlt)
    simp only [Channel.wf, Bool.and_eq_true, beq_iff_eq] at hw
    have hio : i < (channelAt s c).io.length := by
      rw [channelAt, List.getD_eq_getElem?_getD, List.getElem?_eq_getElem hlt]
      simp only [Option.getD_some]
      omega
    simp [hio]

/-- A store to an array element changes no other address (20_memory.md R74, R78). -/
theorem portRead_portStore_of_ne {s : State} {a b : WordAddr} (h : b ≠ a) (ha : arrayAddr s.cfg a = true)
    (v : Word) : portRead (portStore a v s) b = portRead s b := by
  have hne : locate s.cfg b ≠ .unmapped → locate s.cfg b ≠ locate s.cfg a := fun hu he => h (locate_inj he hu)
  rw [arrayAddr_eq] at ha
  simp only [portRead, portStore_cfg]
  unfold portStore
  generalize locate s.cfg b = tb at *
  generalize locate s.cfg a = ta at *
  cases ta with
  | cfg => cases ha
  | cmd => cases ha
  | status => cases ha
  | crunchVal => cases ha
  | crushVal => cases ha
  | unmapped => cases ha
  | frame k i =>
    cases tb with
    | frame k' i' =>
      by_cases hk : k' = k
      · subst hk
        have hi : i ≠ i' := by rintro rfl; exact hne (by simp) rfl
        simp [List.getElem?_set_ne hi]
      · simp [Frame.get_put_of_ne _ hk]
    | _ => rfl
  | vec j =>
    cases tb with
    | vec j' =>
      have hj : j ≠ j' := by rintro rfl; exact hne (by simp) rfl
      simp [List.getElem?_set_ne hj]
    | _ => rfl
  | io c i =>
    cases tb with
    | io c' i' =>
      simp only [channelAt_setChannel]
      split_ifs with hc
      · have hi : i ≠ i' := by rintro rfl; exact hne (by simp) (by rw [hc.1])
        simp [List.getElem?_set_ne hi, hc.1]
      · rfl
    | _ => rfl

/-- Storing the same word twice at one address leaves what one store leaves. -/
theorem portStore_portStore (a : WordAddr) (v : Word) (s : State) :
    portStore a v (portStore a v s) = portStore a v s := by
  cases hl : locate s.cfg a with
  | frame k i => cases k <;> simp [portStore, hl, Frame.get, Frame.put]
  | io c i =>
    cases s
    simp only [portStore, hl, setChannel, channelAt, List.getD_eq_getElem?_getD, List.set_set]
    congr 1
    refine List.ext_getElem? fun k => ?_
    simp only [List.getElem?_set]
    split_ifs <;> simp_all
  | _ => simp [portStore, hl, writeStatus_eq]

/-! ### The host's accesses -/

theorem takeAccess_eq_none {s : State} : takeAccess s = none ↔ s.pending = [] := by
  unfold takeAccess
  split <;> simp_all

theorem takeAccess_cons {s : State} {x : Access} {rest : List Access} (h : s.pending = x :: rest) :
    takeAccess s = some (x, { s with pending := rest }) := by
  simp [takeAccess, h]

/-- Only a whole aligned word through the byte adapter has a word address (20_memory.md R75). -/
theorem adapterWord_eq_none {b : ByteAddr} {n : Nat} : adapterWord b n = none ↔ ¬ (b.toNat % 4 = 0 ∧ n = 4) := by
  simp [adapterWord]

/-- Byte address `4·a` is word `a` (20_memory.md R75). -/
theorem adapterWord_word (a : WordAddr) : adapterWord (BitVec.ofNat 18 (4 * a.toNat)) 4 = some a := by
  have := a.isLt
  have e : 4 * a.toNat % 262144 / 4 = a.toNat := by omega
  simp [adapterWord, e]

/-- The lanes of a word, put together, are the word (20_memory.md R75). -/
@[simp] theorem ofLanes_toLanes (v : Word) : ofLanes (toLanes v) = v := by
  simp only [ofLanes, toLanes, lanes, List.getD_cons_zero, List.getD_cons_succ]
  ext i hi
  simp only [BitVec.getElem_append, BitVec.getElem_extractLsb']
  split_ifs <;> simp only [BitVec.getLsbD] <;> (try rw [BitVec.getElem_eq_testBit_toNat]) <;> congr 1 <;> omega

@[simp] theorem length_toLanes (v : Word) : (toLanes v).length = 4 := rfl

/-- Lane `k` is bits `8k+7 : 8k` (20_memory.md R75). -/
theorem getD_toLanes (v : Word) {k : Nat} (h : k < 4) : (toLanes v).getD k 0 = v.extractLsb' (8 * k) 8 := by
  interval_cases k <;> rfl

/-- Four bytes with the lanes of a word are the word's lanes. -/
theorem eq_toLanes {v : Word} {bytes : List Byte} (hl : bytes.length = 4)
    (h : ∀ k < 4, bytes.getD k 0 = v.extractLsb' (8 * k) 8) : bytes = toLanes v := by
  refine List.ext_getElem (by rw [hl, length_toLanes]) fun k h1 h2 => ?_
  have hk := (h k (by omega)).trans (getD_toLanes v (by omega)).symm
  rwa [List.getD_eq_getElem _ _ h1, List.getD_eq_getElem _ _ h2] at hk

end Sys2Proof.Machine
end

