-- ==== Sys2Proof/Laws/Transform.lean ====
section
/-! SUPPORT. The coefficient lists of the transform engine stand for the sums of 40_transform.md R130 and R131, and an
element of `REF_CR` is that sum rounded once. -/

namespace Sys2Proof.Machine

/-- `cos(π·i / (2M))`. -/
noncomputable def cosAt (m : Nat) (i : Nat) : ℝ := Real.cos (Real.pi * i / (2 * m))

/-- Adding the terms of a list, one after the other. -/
theorem lin_foldl_addTerm (m : Nat) (hm : 0 < m) (j : Int × Nat → Nat) (x : Int × Nat → Int)
    (l : List (Int × Nat)) (cs : List Int) (h : cs.length = m) :
    lin (cosAt m) (l.foldl (fun cs p => Cosine.addTerm m (j p) (x p) cs) cs)
        = lin (cosAt m) cs + (l.map fun p => (x p : ℝ) * cosAt m (j p)).sum
      ∧ (l.foldl (fun cs p => Cosine.addTerm m (j p) (x p) cs) cs).length = m := by
  induction l generalizing cs with
  | nil => simp [h]
  | cons p l ih =>
    obtain ⟨h1, h2⟩ := Cosine.lin_addTerm m (j p) hm (x p) cs h
    obtain ⟨i1, i2⟩ := ih _ h2
    refine ⟨?_, by simpa using i2⟩
    simp only [List.foldl_cons, List.map_cons, List.sum_cons]
    rw [i1]
    rw [show lin (cosAt m) (Cosine.addTerm m (j p) (x p) cs) = _ from h1]
    change lin (cosAt m) cs + (x p : ℝ) * cosAt m (j p) + _ = _
    ring

/-- A sum over a list with positions as a sum over the positions. -/
theorem sum_zipIdx (l : List Int) (f : Int → Nat → ℝ) :
    (l.zipIdx.map fun p => f p.1 p.2).sum = ∑ i ∈ Finset.range l.length, f (l.getD i 0) i := by
  have gen : ∀ (l : List Int) (k : Nat), ((l.zipIdx k).map fun p => f p.1 p.2).sum
      = ∑ i ∈ Finset.range l.length, f (l.getD i 0) (k + i) := by
    intro l
    induction l with
    | nil => simp
    | cons a l ih =>
      intro k
      rw [List.zipIdx_cons, List.map_cons, List.sum_cons, ih, List.length_cons, Finset.sum_range_succ']
      simp only [List.getD_cons_zero, List.getD_cons_succ, Nat.add_zero]
      rw [add_comm]
      congr 1
      refine Finset.sum_congr rfl fun i _ => ?_
      rw [show k + 1 + i = k + (i + 1) by ring]
  simpa using gen l 0

/-- The coefficients of R130 stand for its sum. -/
theorem lin_fwdCoeffs (m k : Nat) (hm : 0 < m) (xs : List Int) :
    lin (cosAt m) (fwdCoeffs m k xs)
        = ∑ n ∈ Finset.range xs.length, ((xs.getD n 0 : Int) : ℝ) * cosAt m (k * (2 * n + 1))
      ∧ (fwdCoeffs m k xs).length = m := by
  have h := lin_foldl_addTerm m hm (fun p => k * (2 * p.2 + 1)) (fun p => p.1) xs.zipIdx (List.replicate m 0)
    (by simp)
  refine ⟨?_, h.2⟩
  rw [lin_replicate_zero, zero_add] at h
  exact h.1.trans (sum_zipIdx xs fun x n => (x : ℝ) * cosAt m (k * (2 * n + 1)))

/-- The coefficients of R131 stand for `M` times its sum. -/
theorem lin_invCoeffs (m n : Nat) (hm : 0 < m) (xs : List Int) :
    lin (cosAt m) (invCoeffs m n xs)
        = ∑ k ∈ Finset.range xs.length,
            (((if k = 0 then xs.getD k 0 else 2 * xs.getD k 0 : Int)) : ℝ) * cosAt m (k * (2 * n + 1))
      ∧ (invCoeffs m n xs).length = m := by
  have h := lin_foldl_addTerm m hm (fun p => p.2 * (2 * n + 1)) (fun p => if p.2 = 0 then p.1 else 2 * p.1) xs.zipIdx
    (List.replicate m 0) (by simp)
  refine ⟨?_, h.2⟩
  rw [lin_replicate_zero, zero_add] at h
  exact h.1.trans
    (sum_zipIdx xs fun x k => ((if k = 0 then x else 2 * x : Int) : ℝ) * cosAt m (k * (2 * n + 1)))

/-- `Cosine.combo` at level `lg` is the combination of `cos(π·i / (2M))`, `M = 2^lg`. -/
theorem combo_eq (lg : Nat) (cs : List Int) : Cosine.combo lg cs = lin (cosAt (2 ^ lg)) cs := by
  have : (fun i : Nat => Real.cos (i * Cosine.theta lg)) = cosAt (2 ^ lg) := by
    funext i
    unfold cosAt Cosine.theta
    congr 1
    push_cast
    rw [pow_succ]
    ring
  unfold Cosine.combo
  rw [this]

/-- An element of `REF_CR`: the combination, rounded once, in units of `2^-149`. -/
theorem isRnd32_rnd32Combination (lg den : Nat) (hden : 0 < den) (negZero : Bool) (cs : List Int)
    (h : cs.length = 2 ^ lg) :
    IsRnd32 (lin (cosAt (2 ^ lg)) cs / den / 2 ^ 149) (rnd32Combination (Cosine.table lg) lg den negZero cs) := by
  have hs := Cosine.rnd_spec lg den cs hden h
  rw [combo_eq] at hs
  generalize lin (cosAt (2 ^ lg)) cs = v at *
  have hd : (0 : ℝ) < den := by exact_mod_cast hden
  unfold rnd32Combination
  generalize Cosine.rnd (Cosine.table lg) lg den cs = o at *
  cases o with
  | none =>
    have hv : v = 0 := hs
    simp [IsRnd32, hv]
  | some p =>
    obtain ⟨neg, mag⟩ := p
    obtain ⟨h0, hn, hr⟩ := hs
    have hne : v / den / 2 ^ 149 ≠ 0 := by positivity
    apply isRnd32_of_roundsTo hne
    · rw [abs_div, abs_div, abs_of_pos hd, abs_of_pos (by positivity : (0 : ℝ) < 2 ^ 149),
        div_mul_cancel₀ _ (by positivity)]
      exact hr
    · intro hm
      rw [if_neg hm]
      refine hn.trans ?_
      rw [div_lt_iff₀ (by positivity), zero_mul, div_lt_iff₀ hd, zero_mul]

/-- Every configured transform gives `M` elements (R134, property 1). -/
theorem length_transform (cfg : Config) (dir : TransformDir) (xs : List Word) :
    (transform cfg dir xs).length = cfg.m := by
  unfold transform refCr tableTransform
  split
  · split <;> simp
  · split <;> simp

@[simp] theorem length_fwdM (cfg : Config) (xs : List Word) : (fwdM cfg xs).length = cfg.m := length_transform ..

@[simp] theorem length_invM (cfg : Config) (xs : List Word) : (invM cfg xs).length = cfg.m := length_transform ..

/-! ### A transform given by a list (00_scope.md R8) -/

/-- Listing an input and its output for every member of a list of inputs. -/
theorem listedOutput_map (f : List Word → List Word) (l : List (List Word)) (xs : List Word) :
    listedOutput (l.map fun x => (x, f x)) xs = if xs ∈ l then f xs else xs := by
  induction l with
  | nil => simp [listedOutput]
  | cons x l ih =>
    simp only [List.map_cons, listedOutput, ih, List.mem_cons]
    by_cases h : x = xs
    · simp [h]
    · simp [h, Ne.symm h]

/-- The elements of the output an entry or the input itself gives, when it has `M` elements. -/
theorem tableTransform_eq {m : Nat} {t : List (List Word × List Word)} {xs : List Word}
    (h : (listedOutput t xs).length = m) : tableTransform m t xs = listedOutput t xs := by
  subst h
  unfold tableTransform
  refine List.ext_getElem (by simp) fun i h1 h2 => ?_
  simp [h2]

/-- A list that keeps zeros maps zeros to zeros (40_transform.md R134, property 3). -/
theorem tableTransform_allZero {m : Nat} {t : List (List Word × List Word)} (ht : keepsZeros t = true) {xs : List Word}
    (h : AllZero xs) : AllZero (tableTransform m t xs) := by
  have hl : AllZero (listedOutput t xs) := by
    induction t with
    | nil => exact h
    | cons p t ih =>
      obtain ⟨x, y⟩ := p
      simp only [keepsZeros, List.all_cons, Bool.and_eq_true, Bool.or_eq_true, Bool.not_eq_true'] at ht
      unfold listedOutput
      split
      · rename_i he
        subst he
        rcases ht.1 with h0 | h0
        · rw [List.all_eq_true.mpr h] at h0
          cases h0
        · exact List.all_eq_true.mp h0
      · exact ih ht.2
  intro w hw
  simp only [tableTransform, List.mem_map] at hw
  obtain ⟨k, -, rfl⟩ := hw
  rw [List.getD_eq_getElem?_getD]
  cases hk : (listedOutput t xs)[k]? with
  | none => decide
  | some v => exact hl v (List.mem_of_getElem? hk)

/-- No transform is left out: every function on lists of `M` words that maps zeros to zeros is given by a legal list
(40_transform.md R134; log entry 5). -/
theorem exists_table (m : Nat) (f : List Word → List Word) (hlen : ∀ xs, xs.length = m → (f xs).length = m)
    (hzero : ∀ xs, xs.length = m → AllZero xs → AllZero (f xs)) :
    ∃ t, keepsZeros t = true ∧ ∀ xs, xs.length = m → tableTransform m t xs = f xs := by
  let l : List (List Word) := (Finset.univ : Finset (Fin m → Word)).toList.map List.ofFn
  have hl : ∀ xs, xs ∈ l ↔ xs.length = m := by
    intro xs
    simp only [l, List.mem_map, Finset.mem_toList, Finset.mem_univ, true_and]
    constructor
    · rintro ⟨g, rfl⟩
      simp
    · rintro rfl
      exact ⟨fun i => xs[i], List.ofFn_getElem⟩
  refine ⟨l.map fun x => (x, f x), ?_, fun xs hx => ?_⟩
  · simp only [keepsZeros, List.all_map, List.all_eq_true, Function.comp, Bool.or_eq_true, Bool.not_eq_true']
    intro x hx
    by_cases h : x.all F32.isZero = true
    · exact .inr fun w hw => hzero x ((hl x).mp hx) (List.all_eq_true.mp h) w hw
    · exact .inl (by simpa using h)
  · have h : listedOutput (l.map fun x => (x, f x)) xs = f xs := by
      rw [listedOutput_map, if_pos ((hl xs).mpr hx)]
    rw [tableTransform_eq (by rw [h, hlen xs hx]), h]

end Sys2Proof.Machine
end

