-- ==== Sys2Proof/Laws/Exec.lean ====
section
/-! SUPPORT. What a command can do, said once: the lengths its stages keep, and the two ways it can end. -/

namespace Sys2Proof.Machine

/-! ### Lengths -/

@[simp] theorem length_zeros (n : Nat) : (zeros n).length = n := by simp [zeros]

@[simp] theorem length_unspecified (b n : Nat) : (unspecified b n).length = n := by simp [unspecified]

@[simp] theorem length_crunchStage (cfg : Config) (cr : Word) (d : Nat) (xs : List Word) :
    (crunchStage cfg cr d xs).length = xs.length := by
  unfold crunchStage crunchWith
  split <;> simp

@[simp] theorem length_crushStage (cfg : Config) (cs : Word) (d : Nat) (xs : List Word) :
    (crushStage cfg cs d xs).length = xs.length := by
  unfold crushStage
  dsimp only
  split
  · rfl
  · split <;> simp

@[simp] theorem length_distortStage (cfg : Config) (cr cs : Word) (d : Nat) (xs : List Word) :
    (distortStage cfg cr cs d xs).length = xs.length := by
  simp [distortStage]

@[simp] theorem length_olaInv (cfg : Config) (tail xs : List Word) (h : cfg.w.length = cfg.m) :
    (olaInv cfg tail xs).length = min cfg.n tail.length := by
  simp only [olaInv, windowed, List.length_zipWith, List.length_take, length_invM, h, Config.m]
  omega

@[simp] theorem length_olaTail (cfg : Config) (xs : List Word) (h : cfg.w.length = cfg.m) :
    (olaTail cfg xs).length = cfg.n := by
  simp only [olaTail, windowed, List.length_zipWith, List.length_drop, length_invM, h, Config.m]
  omega

/-! ### Free draws -/

/-- A control value in the contract uses no free draw, so the number of the draw does not matter. -/
theorem stageDraws_of_inContract {x : Word} (h : controlInContract x = true) (d : Nat) : stageDraws x d = d := by
  simp only [controlInContract] at h
  simp [stageDraws, h]

theorem crunchStage_of_inContract {cfg : Config} {x : Word} (h : controlInContract x = true) (d d' : Nat)
    (xs : List Word) : crunchStage cfg x d xs = crunchStage cfg x d' xs := by
  simp only [controlInContract, Bool.or_eq_true] at h
  unfold crunchStage curveAt
  rcases h with h | h <;> simp [h]

theorem crushStage_of_inContract {cfg : Config} {x : Word} (h : controlInContract x = true) (d d' : Nat)
    (xs : List Word) : crushStage cfg x d xs = crushStage cfg x d' xs := by
  simp only [controlInContract, Bool.or_eq_true] at h
  unfold crushStage curveAt
  rcases h with h | h <;> simp [h]

/-! ### How a command ends -/

/-- One cycle per channel changes channels and the draw counter only. -/
theorem allCycles_frame (s : State) :
    ∃ l d, l.length = s.channels.length ∧ allCycles s = { s with channels := l, draws := d } := by
  unfold allCycles
  generalize List.range s.cfg.c = r
  induction r generalizing s with
  | nil => exact ⟨_, _, rfl, rfl⟩
  | cons c r ih =>
    obtain ⟨l, d, h1, h2⟩ := ih (channelCycle c s)
    refine ⟨l, d, ?_, ?_⟩
    · rw [h1]; simp [channelCycle]
    · rw [List.foldl_cons, h2]; rfl

/-- The command ended with an error: `CODE` and `STICKY` only (60_exceptions.md R264 to R266). -/
def EndsWithError (i : Instr) (s t : State) : Prop :=
  t = { s with code := t.code, sticky := true } ∧ t.code ≠ .normal ∧ i ≠ .reset

/-- The command completed: it may have written `VEC`, channels, the draw counter and, when it is `RESET`, `STICKY`. -/
def Completes (i : Instr) (s t : State) : Prop :=
  t = { s with vec := t.vec, channels := t.channels, draws := t.draws, sticky := t.sticky, code := .normal }
    ∧ t.channels.length = s.channels.length ∧ t.sticky = if i = .reset then false else s.sticky

/-- A checked command ends in one of the two ways. -/
theorem checked_cases {o : Option StatusCode} {body : State → State} {i : Instr} {s : State} (hi : i ≠ .reset)
    (ho : o ≠ some .normal)
    (hb : ∃ v l d, l.length = s.channels.length ∧ body s = { s with vec := v, channels := l, draws := d }) :
    EndsWithError i s (checked o body s) ∨ Completes i s (checked o body s) := by
  cases o with
  | some e => exact .inl ⟨rfl, fun h => ho (by rw [← h]; rfl), hi⟩
  | none =>
    obtain ⟨v, l, d, h1, h2⟩ := hb
    right
    simp [Completes, checked, h2, h1, complete, hi]

/-- Every command answers a next state, and ends in one of the two ways. -/
theorem exec_cases (i : Instr) (s : State) :
    ∃ t, exec i s = .next t ∧ (EndsWithError i s t ∨ Completes i s t) := by
  cases i with
  | mdct c l =>
    exact ⟨_, rfl, checked_cases (by simp) (blockError_ne_normal _ _ _) ⟨_, _, _, by simp, rfl⟩⟩
  | imdct c l =>
    exact ⟨_, rfl, checked_cases (by simp) (blockError_ne_normal _ _ _) ⟨_, _, _, by simp, rfl⟩⟩
  | procBlock c l =>
    exact ⟨_, rfl, checked_cases (by simp) (blockError_ne_normal _ _ _) ⟨_, _, _, by simp, rfl⟩⟩
  | procAll c l =>
    obtain ⟨l', d, h1, h2⟩ := allCycles_frame s
    exact ⟨_, rfl, checked_cases (by simp) (callError_ne_normal _ _ _) ⟨_, _, _, h1, h2⟩⟩
  | reset => exact ⟨_, rfl, .inr ⟨rfl, by simp [complete], rfl⟩⟩
  | _ => exact ⟨_, rfl, .inr ⟨rfl, rfl, rfl⟩⟩

/-- A host write to `CMD` runs the word in the state that holds it (10_state.md R32). -/
theorem perform_write_cmd (w : Word) (s : State) :
    perform (.write 0x0001#16 w) s = runCommand w { s with cmd := w } := rfl

/-- All a host access can do: a port access, the byte lanes of a word as reply, or a refusal of anything but one whole aligned
word (20_memory.md R75). -/
theorem performAccess_cases (x : Access) (s : State) :
    (∃ op, performAccess x s = perform op s)
      ∨ (∃ a, performAccess x s = .next (adapterReply a s))
      ∨ (performAccess x s = .refused .partialWordAccess
        ∧ ((∃ b n, x = .adapterRead b n ∧ ¬ (b.toNat % 4 = 0 ∧ n = 4))
          ∨ ∃ b bytes, x = .adapterWrite b bytes ∧ ¬ (b.toNat % 4 = 0 ∧ bytes.length = 4))) := by
  cases x with
  | port op => exact .inl ⟨op, rfl⟩
  | adapterRead b n =>
    cases h : adapterWord b n with
    | some a => exact .inr (.inl ⟨a, by simp only [performAccess, h]⟩)
    | none => exact .inr (.inr ⟨by simp only [performAccess, h], .inl ⟨b, n, rfl, adapterWord_eq_none.mp h⟩⟩)
  | adapterWrite b bytes =>
    cases h : adapterWord b bytes.length with
    | some a => exact .inl ⟨.write a (ofLanes bytes), by simp only [performAccess, h]; rfl⟩
    | none => exact .inr (.inr ⟨by simp only [performAccess, h], .inr ⟨b, bytes, rfl, adapterWord_eq_none.mp h⟩⟩)

end Sys2Proof.Machine
end

