-- ==== Sys2Proof/Laws/PerInstr.lean ====
section
/-! SUPPORT. Statements about every instruction as syntax, one lemma per constructor. -/

namespace Sys2Proof.Laws

/-- 30_encoding.md R106: the word the encoder writes for a well-formed instruction is selected by the row of its
mnemonic. -/
def EncodeSelectsRow.Statement (i : Instr) : Prop :=
  i.wellFormed = true → ∃ r ∈ opcodeTable, r.mnemonic = i.mnemonic ∧ r.selects (encode i) = true

/-- A word of formats CL and KL under the mask of its row. -/
theorem encodeCL_and_mask {o c l : Nat} (ho : o < 256) (h : (fitsCh c && fitsLen l) = true) :
    encodeCL o c l &&& 0x0000F0FF#32 = BitVec.ofNat 32 o := by
  simp only [fitsCh, fitsLen, Bool.and_eq_true, decide_eq_true_eq] at h
  rw [and_operandMask, toNat_encodeCL ho (by omega) (by omega)]
  congr 1
  omega

theorem EncodeSelectsRow.nop : EncodeSelectsRow.Statement .nop := fun _ =>
  ⟨⟨"NOP", .z, 0x00000000, 0xFFFFFFFF⟩, by decide, rfl, by decide⟩

theorem EncodeSelectsRow.dctFwd : EncodeSelectsRow.Statement .dctFwd := fun _ =>
  ⟨⟨"DCT_FWD", .z, 0x00000001, 0xFFFFFFFF⟩, by decide, rfl, by decide⟩

theorem EncodeSelectsRow.dctInv : EncodeSelectsRow.Statement .dctInv := fun _ =>
  ⟨⟨"DCT_INV", .z, 0x00000002, 0xFFFFFFFF⟩, by decide, rfl, by decide⟩

theorem EncodeSelectsRow.mdct (ch len : Nat) : EncodeSelectsRow.Statement (.mdct ch len) := fun h =>
  ⟨⟨"MDCT", .cl, 0x00000003, 0x0000F0FF⟩, by decide, rfl, beq_iff_eq.mpr (encodeCL_and_mask (by decide) h)⟩

theorem EncodeSelectsRow.imdct (ch len : Nat) : EncodeSelectsRow.Statement (.imdct ch len) := fun h =>
  ⟨⟨"IMDCT", .cl, 0x00000004, 0x0000F0FF⟩, by decide, rfl, beq_iff_eq.mpr (encodeCL_and_mask (by decide) h)⟩

theorem EncodeSelectsRow.crunch : EncodeSelectsRow.Statement .crunch := fun _ =>
  ⟨⟨"CRUNCH", .z, 0x00000005, 0xFFFFFFFF⟩, by decide, rfl, by decide⟩

theorem EncodeSelectsRow.crush : EncodeSelectsRow.Statement .crush := fun _ =>
  ⟨⟨"CRUSH", .z, 0x00000006, 0xFFFFFFFF⟩, by decide, rfl, by decide⟩

theorem EncodeSelectsRow.distort : EncodeSelectsRow.Statement .distort := fun _ =>
  ⟨⟨"DISTORT", .z, 0x00000007, 0xFFFFFFFF⟩, by decide, rfl, by decide⟩

theorem EncodeSelectsRow.procBlock (ch len : Nat) : EncodeSelectsRow.Statement (.procBlock ch len) := fun h =>
  ⟨⟨"PROC_BLOCK", .cl, 0x00000008, 0x0000F0FF⟩, by decide, rfl, beq_iff_eq.mpr (encodeCL_and_mask (by decide) h)⟩

theorem EncodeSelectsRow.procAll (ch len : Nat) : EncodeSelectsRow.Statement (.procAll ch len) := fun h =>
  ⟨⟨"PROC_ALL", .kl, 0x00000009, 0x0000F0FF⟩, by decide, rfl, beq_iff_eq.mpr (encodeCL_and_mask (by decide) h)⟩

theorem EncodeSelectsRow.reset : EncodeSelectsRow.Statement .reset := fun _ =>
  ⟨⟨"RESET", .z, 0x0000000F, 0xFFFFFFFF⟩, by decide, rfl, by decide⟩

end Sys2Proof.Laws
end

