-- ==== Sys2Proof/Laws/Pipeline.lean ====
section
/-! SUPPORT. The parts of a well-formed state, and what the overlap-add wrapper and a cycle compute, element by element. -/

namespace Sys2Proof.Machine

/-! ### Well-formed states -/

theorem State.wf_window {s : State} (h : s.wf = true) : s.cfg.w.length = s.cfg.m :=
  (Config.wf_parts (State.wf_cfg h)).2.2.1

theorem State.wf_vec {s : State} (h : s.wf = true) : s.vec.length = s.cfg.m := by
  simp only [State.wf, Bool.and_eq_true, beq_iff_eq] at h
  exact h.1.1.2

theorem State.wf_channels {s : State} (h : s.wf = true) : s.channels.length = s.cfg.c := by
  simp only [State.wf, Bool.and_eq_true, beq_iff_eq] at h
  exact h.1.2

theorem State.wf_frame {s : State} (h : s.wf = true) :
    s.frame.drive.length = s.cfg.n ∧ s.frame.mix.length = s.cfg.n ∧ s.frame.gain.length = s.cfg.n := by
  simp only [State.wf, Frame.wf, Bool.and_eq_true, beq_iff_eq] at h
  exact ⟨h.1.1.1.2.1.1.1.1, h.1.1.1.2.1.2, h.1.1.1.2.2⟩

theorem Channel.wf_lengths {cfg : Config} {k : Channel} (h : Channel.wf cfg k = true) :
    k.io.length = cfg.n ∧ k.hist.length = cfg.n ∧ k.tail.length = cfg.n ∧ k.dry.length = cfg.n := by
  simp only [Channel.wf, Bool.and_eq_true, beq_iff_eq] at h
  exact ⟨h.1.1.1, h.1.1.2, h.1.2, h.2⟩

/-- `M` is a power of two (00_scope.md R8). -/
theorem State.wf_m {s : State} (h : s.wf = true) : s.cfg.m = 2 ^ Nat.log2 s.cfg.m ∧ 0 < s.cfg.m := by
  replace h := (Config.wf_parts (State.wf_cfg h)).1
  unfold Config.m
  generalize s.cfg.n = n at h
  simp only [List.mem_cons, List.not_mem_nil, or_false] at h
  rcases h with rfl | rfl | rfl | rfl | rfl | rfl | rfl | rfl | rfl | rfl | rfl <;> decide

/-- A cycle gives a well-formed channel (10_state.md R41 to R45). -/
theorem cycle_wf {s : State} (h : s.wf = true) (d : Nat) {k : Channel} (hk : Channel.wf s.cfg k = true) :
    Channel.wf s.cfg (cycle s.cfg s.frame d k) = true := by
  have hw := State.wf_window h
  have hk := Channel.wf_lengths hk
  have hf := State.wf_frame h
  simp [Channel.wf, cycle, gained, crossfade, driven, hw, hk, hf]

/-- The curves of a legal build are within their limits inside `(0, 1]` (42_distortion.md R182, R185, R186). -/
theorem curveConforms_curveIn {cfg : Config} (h : cfg.wf = true) (k : Curve) {x : Word} (hx : F32.inUnit x = true) :
    curveConforms k (curveIn cfg k x) = true :=
  curveConforms_curveValue (piecesConform_curvePieces (Config.wf_parts h).2.2.2.2.2.1 k) hx

/-- The curves of a legal build are in their order on `(0, 1]` (R182, R186). -/
theorem curveOrder_curveIn {cfg : Config} (h : cfg.wf = true) (k : Curve) {x y : Word} (hy : F32.inUnit y = true)
    (hxy : F32.le x y = true) : curveOrder k (curveIn cfg k x) (curveIn cfg k y) = true :=
  curveOrder_curveValue (piecesConform_curvePieces (Config.wf_parts h).2.2.2.2.2.1 k) hy hxy

/-! ### Elements -/

theorem elem_zipWith (f : Word → Word → Word) (a b : List Word) (i : Nat) (ha : i < a.length) (hb : i < b.length) :
    elem (List.zipWith f a b) i = f (elem a i) (elem b i) := by
  simp [elem, ha, hb]

theorem elem_map (f : Word → Word) (a : List Word) (i : Nat) (ha : i < a.length) :
    elem (a.map f) i = f (elem a i) := by
  simp [elem, ha]

theorem elem_take (a : List Word) (n i : Nat) (h : i < n) : elem (a.take n) i = elem a i := by
  simp [elem, h]

theorem elem_drop (a : List Word) (n i : Nat) : elem (a.drop n) i = elem a (i + n) := by
  simp [elem, add_comm]

/-- Lists of one length are equal when their elements are. -/
theorem ext_elem {a b : List Word} (hl : a.length = b.length) (h : ∀ i < a.length, elem a i = elem b i) : a = b := by
  refine List.ext_getElem hl fun i h1 h2 => ?_
  simpa [elem, h1, h2] using h i h1

/-- `out[i] = fl(fl(y[i] * W[i]) + TAIL[i])` (41_overlap_add.md R158). -/
theorem elem_olaInv {s : State} (h : s.wf = true) (tail xs : List Word) (ht : tail.length = s.cfg.n) (i : Nat)
    (hi : i < s.cfg.n) :
    elem (olaInv s.cfg tail xs) i
      = F32.add s.cfg.nanOut (F32.mul s.cfg.nanOut (elem (invM s.cfg xs) i) (elem s.cfg.w i)) (elem tail i) := by
  have hm : s.cfg.m = 2 * s.cfg.n := rfl
  rw [olaInv, elem_zipWith, elem_take _ _ _ hi, windowed, elem_zipWith] <;>
    simp [windowed, State.wf_window h, ht] <;> omega

/-- `tail[i] = fl(fl(y[i+N] * W[i+N]) * W[i+N])` (41_overlap_add.md R158). -/
theorem elem_olaTail {s : State} (h : s.wf = true) (xs : List Word) (i : Nat) (hi : i < s.cfg.n) :
    elem (olaTail s.cfg xs) i
      = F32.mul s.cfg.nanOut
          (F32.mul s.cfg.nanOut (elem (invM s.cfg xs) (i + s.cfg.n)) (elem s.cfg.w (i + s.cfg.n)))
          (elem s.cfg.w (i + s.cfg.n)) := by
  have hm : s.cfg.m = 2 * s.cfg.n := rfl
  rw [olaTail, elem_zipWith, elem_drop, elem_drop, windowed, elem_zipWith] <;>
    simp [windowed, State.wf_window h] <;> omega

/-! ### A cycle on one channel -/

/-- `ChannelCycle(c)` replaces channel `c` and touches no other (43_channel_pipeline.md R226). -/
theorem channelAt_channelCycle {s : State} (c c' : Nat) (hc : c < s.channels.length) :
    channelAt (channelCycle c s) c'
      = if c' = c then cycle s.cfg s.frame s.draws (channelAt s c) else channelAt s c' := by
  unfold channelCycle
  by_cases h : c' = c
  · subst h
    rw [channelAt_setChannel_self (by exact hc), if_pos rfl]
  · rw [channelAt_setChannel_of_ne h, if_neg h]
    rfl

end Sys2Proof.Machine
end

