-- ==== Sys2Proof/Laws/Window.lean ====
section
/-! SUPPORT. The fixed-point sine of the default window table is within 64 units of `2^-128`, and an element whose error
bound does not straddle a rounding boundary is `rnd32(sin(π·i / (2M+1))²)` (41_overlap_add.md R150). -/

namespace Sys2Proof

open Finset

/-- The first `K` terms of the sine series. -/
noncomputable def Window.sinSum (K : Nat) (x : ℝ) : ℝ :=
  ∑ k ∈ range K, (-1) ^ k * x ^ (2 * k + 1) / (2 * k + 1).factorial

/-- The partial sum is the imaginary part of the exponential's. -/
theorem Window.sinSum_im (K : Nat) (x : ℝ) :
    (∑ m ∈ range (2 * K), ((x : ℂ) * Complex.I) ^ m / m.factorial).im = Window.sinSum K x := by
  induction K with
  | zero => simp [Window.sinSum]
  | succ K ih =>
    rw [show 2 * (K + 1) = 2 * K + 1 + 1 by ring, sum_range_succ, sum_range_succ, Complex.add_im, Complex.add_im, ih,
      Window.sinSum, Window.sinSum, sum_range_succ]
    have e1 : ((x : ℂ) * Complex.I) ^ (2 * K) = (((-1) ^ K * x ^ (2 * K) : ℝ) : ℂ) := by
      rw [pow_mul, mul_pow, Complex.I_sq, mul_neg_one, neg_pow, pow_mul]; push_cast; ring
    have e2 : ((x : ℂ) * Complex.I) ^ (2 * K + 1) = (((-1) ^ K * x ^ (2 * K + 1) : ℝ) : ℂ) * Complex.I := by
      rw [pow_succ, e1]; push_cast; ring
    rw [e1, e2]
    have h1 : ((((-1) ^ K * x ^ (2 * K) : ℝ) : ℂ) / ((2 * K).factorial : ℂ)).im = 0 := by
      rw [← Complex.ofReal_natCast, ← Complex.ofReal_div, Complex.ofReal_im]
    have h2 : (((((-1) ^ K * x ^ (2 * K + 1) : ℝ) : ℂ) * Complex.I) / ((2 * K + 1).factorial : ℂ)).im
        = (-1) ^ K * x ^ (2 * K + 1) / (2 * K + 1).factorial := by
      rw [← Complex.ofReal_natCast, mul_div_right_comm, ← Complex.ofReal_div, Complex.im_ofReal_mul, Complex.I_im, mul_one]
    rw [h1, h2]
    ring

/-- The remainder of the sine series. -/
theorem Window.abs_sin_sub_sinSum (K : Nat) (x : ℝ) (hx : |x| / (2 * K + 1) ≤ 1 / 2) :
    |Real.sin x - Window.sinSum K x| ≤ |x| ^ (2 * K) / (2 * K).factorial * 2 := by
  have h := Complex.exp_bound' (x := (x : ℂ) * Complex.I) (n := 2 * K) (by
    rw [norm_mul, Complex.norm_I, mul_one, Complex.norm_real, Real.norm_eq_abs]; push_cast; exact hx)
  rw [norm_mul, Complex.norm_I, mul_one, Complex.norm_real, Real.norm_eq_abs] at h
  refine le_trans ?_ h
  have := Complex.abs_im_le_norm (Complex.exp ((x : ℂ) * Complex.I) - ∑ m ∈ range (2 * K), ((x : ℂ) * Complex.I) ^ m / m.factorial)
  rw [Complex.sub_im, Window.sinSum_im, Complex.exp_ofReal_mul_I_im] at this
  exact this

/-- `Window.pi128` is within one unit of `π`: the sine is positive just below and negative just above. -/
theorem Window.pi_gt : ((Window.pi128 - 1 : ℕ) : ℝ) / 2 ^ 128 < Real.pi := by
  by_contra hcon
  have hx : ((Window.pi128 - 1 : ℕ) : ℝ) / 2 ^ 128 ≤ 3.2 := by unfold Window.pi128; norm_num
  set x := ((Window.pi128 - 1 : ℕ) : ℝ) / 2 ^ 128 with hxd
  have hpi := not_lt.mp hcon
  have h0 : Real.sin x ≤ 0 := by
    have := Real.sin_nonpos_of_nonpos_of_neg_pi_le (x := -(x - Real.pi)) (by linarith) (by have := Real.pi_gt_three; linarith)
    rw [Real.sin_neg, Real.sin_sub_pi, neg_neg] at this
    exact this
  have h1 := Window.abs_sin_sub_sinSum 30 x (by rw [abs_of_nonneg (by positivity)]; norm_num; linarith)
  have h2 := (abs_le.mp h1).1
  have hx0 : |x| = x := abs_of_nonneg (by positivity)
  have h3 : |x| ^ (2 * 30) / (2 * 30).factorial * 2 ≤ 1 / 2 ^ 160 := by
    rw [hx0]
    calc x ^ (2 * 30) / (2 * 30).factorial * 2 ≤ 3.2 ^ (2 * 30) / (2 * 30).factorial * 2 := by gcongr
      _ ≤ 1 / 2 ^ 160 := by norm_num [Nat.factorial]
  have h4 : 1 / 2 ^ 160 < Window.sinSum 30 x := by
    rw [hxd]; unfold Window.sinSum Window.pi128
    norm_num [Finset.sum_range_succ, Nat.factorial]
  linarith
theorem Window.pi_lt : Real.pi < ((Window.pi128 + 1 : ℕ) : ℝ) / 2 ^ 128 := by
  by_contra hcon
  have hx : ((Window.pi128 + 1 : ℕ) : ℝ) / 2 ^ 128 ≤ 3.2 := by unfold Window.pi128; norm_num
  set x := ((Window.pi128 + 1 : ℕ) : ℝ) / 2 ^ 128 with hxd
  have h0 : 0 ≤ Real.sin x := Real.sin_nonneg_of_nonneg_of_le_pi (by positivity) (not_lt.mp hcon)
  have h1 := Window.abs_sin_sub_sinSum 30 x (by rw [abs_of_nonneg (by positivity)]; norm_num; linarith)
  have h2 := (abs_le.mp h1).2
  have hx0 : |x| = x := abs_of_nonneg (by positivity)
  have h3 : |x| ^ (2 * 30) / (2 * 30).factorial * 2 ≤ 1 / 2 ^ 160 := by
    rw [hx0]
    calc x ^ (2 * 30) / (2 * 30).factorial * 2 ≤ 3.2 ^ (2 * 30) / (2 * 30).factorial * 2 := by gcongr
      _ ≤ 1 / 2 ^ 160 := by norm_num [Nat.factorial]
  have h4 : Window.sinSum 30 x < -(1 / 2 ^ 160) := by
    rw [hxd]; unfold Window.sinSum Window.pi128
    norm_num [Finset.sum_range_succ, Nat.factorial]
  linarith

/-- The fixed-point tail of the series is within 2 units per term of the series. -/
theorem Window.sinTail_error (x : Nat) (hx : (x : ℝ) / 2 ^ 128 ≤ 1.6) (fuel : Nat) :
    ∀ k t : Nat, (t : ℝ) ≤ 2 ^ 128 * ((x : ℝ) / 2 ^ 128) ^ (2 * k + 1) / (2 * k + 1).factorial →
      2 ^ 128 * ((x : ℝ) / 2 ^ 128) ^ (2 * k + 1) / (2 * k + 1).factorial ≤ t + 2 →
      |(Window.sinTail (x * x) fuel k t : ℝ)
        - 2 ^ 128 * (-1) ^ k * (Window.sinSum (k + fuel) (x / 2 ^ 128) - Window.sinSum k (x / 2 ^ 128))|
        ≤ (2 * fuel : ℝ) := by
  set X := (x : ℝ) / 2 ^ 128 with hX
  have hX0 : 0 ≤ X := by positivity
  have hxX : (x : ℝ) = X * 2 ^ 128 := by rw [hX]; field_simp
  induction fuel with
  | zero => intro k t _ _; simp [Window.sinTail]
  | succ f ih =>
    intro k t h1 h2
    set T := 2 ^ 128 * X ^ (2 * k + 1) / (2 * k + 1).factorial with hT
    set c := (2 * k + 2) * (2 * k + 3) with hc
    set t' := t * (x * x) / 2 ^ 256 / c with ht'
    have hcR : (c : ℝ) = (2 * k + 2) * (2 * k + 3) := by rw [hc]; push_cast; ring
    have hc6 : (6 : ℝ) ≤ c := by rw [hcR]; nlinarith [(Nat.cast_nonneg k : (0 : ℝ) ≤ k)]
    have hT' : 2 ^ 128 * X ^ (2 * (k + 1) + 1) / (2 * (k + 1) + 1).factorial = T * X ^ 2 / c := by
      rw [hT, hcR, show 2 * (k + 1) + 1 = (2 * k + 1) + 1 + 1 by ring, Nat.factorial_succ, Nat.factorial_succ]
      have : ((2 * k + 1).factorial : ℝ) ≠ 0 := by positivity
      push_cast
      field_simp
      ring
    have hdiv : t' = t * (x * x) / (2 ^ 256 * c) := by rw [ht', Nat.div_div_eq_div_mul]
    have hcpos : 0 < 2 ^ 256 * c := by positivity
    have hq : (t : ℝ) * (x * x) / (2 ^ 256 * c) = t * X ^ 2 / c := by
      rw [hxX]
      have : (2 : ℝ) ^ 256 = 2 ^ 128 * 2 ^ 128 := by rw [← pow_add]
      rw [this]; field_simp
    have hle : (t' : ℝ) ≤ t * X ^ 2 / c := by
      rw [hdiv, ← hq]
      have := @Nat.cast_div_le ℝ _ _ _ (t * (x * x)) (2 ^ 256 * c)
      simpa only [Nat.cast_mul, Nat.cast_pow, Nat.cast_ofNat] using this
    have hge : t * X ^ 2 / c < (t' : ℝ) + 1 := by
      rw [← hq, hdiv, div_lt_iff₀ (by positivity)]
      have := Nat.lt_div_mul_add (a := t * (x * x)) hcpos
      have h' : ((t * (x * x) : ℕ) : ℝ) < ((t * (x * x) / (2 ^ 256 * c) * (2 ^ 256 * c) + 2 ^ 256 * c : ℕ) : ℝ) := by
        exact_mod_cast this
      simp only [Nat.cast_mul, Nat.cast_add, Nat.cast_pow, Nat.cast_ofNat] at h'
      linarith
    have hX2 : X ^ 2 / c ≤ 0.43 := by
      rw [div_le_iff₀ (by linarith)]
      nlinarith
    have hX2' : 0 ≤ X ^ 2 / c := by positivity
    have hih := ih (k + 1) t' (by
        rw [hT']
        calc (t' : ℝ) ≤ t * X ^ 2 / c := hle
          _ ≤ T * X ^ 2 / c := by gcongr)
      (by
        rw [hT']
        have e : T * X ^ 2 / c = t * X ^ 2 / c + (T - t) * (X ^ 2 / c) := by ring
        rw [e]
        have : (T - t) * (X ^ 2 / c) ≤ 2 * 0.43 := by
          apply mul_le_mul <;> linarith
        linarith)
    have hs : Window.sinSum (k + 1) X = Window.sinSum k X + (-1) ^ k * X ^ (2 * k + 1) / (2 * k + 1).factorial := by
      unfold Window.sinSum; rw [sum_range_succ]
    have hstep : (Window.sinTail (x * x) (f + 1) k t : ℝ) = t - Window.sinTail (x * x) f (k + 1) t' := by
      simp only [Window.sinTail]
      push_cast
      rfl
    rw [hstep]
    have hk1 : k + (f + 1) = k + 1 + f := by ring
    rw [hk1]
    have hsq : ((-1 : ℝ) ^ k) * (-1) ^ k = 1 := by rw [← mul_pow]; norm_num
    have e : (t : ℝ) - (Window.sinTail (x * x) f (k + 1) t' : ℝ)
        - 2 ^ 128 * (-1) ^ k * (Window.sinSum (k + 1 + f) X - Window.sinSum k X)
        = (t - T) - ((Window.sinTail (x * x) f (k + 1) t' : ℝ)
            - 2 ^ 128 * (-1) ^ (k + 1) * (Window.sinSum (k + 1 + f) X - Window.sinSum (k + 1) X)) := by
      rw [hs, hT]
      have : 2 ^ 128 * X ^ (2 * k + 1) / ((2 * k + 1).factorial : ℝ)
        = 2 ^ 128 * (((-1 : ℝ) ^ k) * (-1) ^ k) * (X ^ (2 * k + 1) / ((2 * k + 1).factorial : ℝ)) := by rw [hsq]; ring
      rw [this, pow_succ]
      ring
    rw [e]
    have hb := abs_sub (t - T) ((Window.sinTail (x * x) f (k + 1) t' : ℝ)
            - 2 ^ 128 * (-1) ^ (k + 1) * (Window.sinSum (k + 1 + f) X - Window.sinSum (k + 1) X))
    have hb2 : |(t : ℝ) - T| ≤ 2 := by rw [abs_le]; constructor <;> linarith
    push_cast
    linarith

theorem Window.cast_sinFix (i d : Nat) : ((Window.sinFix i d : ℕ) : ℝ)
    = max (Window.sinTail (Window.pi128 * i / d * (Window.pi128 * i / d)) 24 0 (Window.pi128 * i / d) : ℝ) 0 := by
  have toNat : ∀ z : ℤ, ((z.toNat : ℕ) : ℝ) = max (z : ℝ) 0 := fun z => by
    rw [← Int.cast_natCast, Int.toNat_eq_max, Int.cast_max, Int.cast_zero]
  exact toNat _

/-- `Window.sinFix i d` is within 64 units of `sin(π·i / d)`. -/
theorem Window.sinFix_error (i d : Nat) (h : 2 * i < d) :
    |(Window.sinFix i d : ℝ) - 2 ^ 128 * Real.sin (Real.pi * i / d)| ≤ 64 := by
  have hd : (0 : ℝ) < d := by exact_mod_cast (by omega : 0 < d)
  have hid : (i : ℝ) / d ≤ 1 / 2 := by
    rw [div_le_iff₀ hd]
    have : (2 * i : ℝ) < d := by exact_mod_cast h
    linarith
  have hid0 : (0 : ℝ) ≤ (i : ℝ) / d := by positivity
  set x := Window.pi128 * i / d with hx
  set X := (x : ℝ) / 2 ^ 128 with hX
  have hp : (1 : ℕ) ≤ Window.pi128 := by decide
  have g1 := Window.pi_gt
  have g2 := Window.pi_lt
  rw [Nat.cast_sub hp, div_lt_iff₀ (by positivity)] at g1
  rw [lt_div_iff₀ (by positivity)] at g2
  push_cast at g1 g2
  have hxle : (x : ℝ) ≤ Window.pi128 * (i / d) := by
    have := @Nat.cast_div_le ℝ _ _ _ (Window.pi128 * i) d
    rw [← hx, Nat.cast_mul, mul_div_assoc] at this
    exact this
  have hxge : Window.pi128 * ((i : ℝ) / d) < x + 1 := by
    rw [← mul_div_assoc, div_lt_iff₀ hd]
    have := Nat.lt_div_mul_add (a := Window.pi128 * i) (b := d) (by omega)
    rw [← hx] at this
    have h' : ((Window.pi128 * i : ℕ) : ℝ) < ((x * d + d : ℕ) : ℝ) := by exact_mod_cast this
    push_cast at h'
    linarith
  -- the angle
  have hang : |X - Real.pi * i / d| ≤ 1.5 / 2 ^ 128 := by
    have e : X - Real.pi * i / d = (x - Real.pi * 2 ^ 128 * (i / d)) / 2 ^ 128 := by
      rw [hX]; field_simp
    rw [e, abs_div, abs_of_pos (by positivity : (0 : ℝ) < 2 ^ 128)]
    apply div_le_div_of_nonneg_right _ (by positivity)
    rw [abs_le]
    constructor <;> nlinarith
  have hX16 : X ≤ 1.6 := by
    have h1 := (abs_le.mp hang).2
    have h2 : Real.pi * i / d ≤ 3.15 * (1 / 2) := by
      rw [mul_div_assoc]
      have := Real.pi_lt_d2
      apply mul_le_mul <;> linarith
    have h3 : (1.5 : ℝ) / 2 ^ 128 ≤ 0.001 := by norm_num
    linarith
  have hX0 : 0 ≤ X := by positivity
  -- the series
  have hser := Window.sinTail_error x hX16 24 0 x (by
      simp only [Nat.mul_zero, Nat.zero_add, pow_one, Nat.factorial_one, Nat.cast_one, div_one]
      rw [mul_div_cancel₀]; positivity)
    (by
      simp only [Nat.mul_zero, Nat.zero_add, pow_one, Nat.factorial_one, Nat.cast_one, div_one]
      rw [mul_div_cancel₀]
      · linarith
      · positivity)
  have hs0 : Window.sinSum 0 X = 0 := by simp [Window.sinSum]
  rw [← hX, hs0, pow_zero, mul_one, sub_zero, Nat.zero_add] at hser
  have htay := Window.abs_sin_sub_sinSum 24 X (by rw [abs_of_nonneg hX0]; norm_num; linarith)
  have hrem : |X| ^ (2 * 24) / (2 * 24).factorial * 2 ≤ 1 / 2 ^ 128 := by
    rw [abs_of_nonneg hX0]
    calc X ^ (2 * 24) / (2 * 24).factorial * 2 ≤ 1.6 ^ (2 * 24) / (2 * 24).factorial * 2 := by gcongr
      _ ≤ 1 / 2 ^ 128 := by norm_num [Nat.factorial]
  have hlip : |Real.sin X - Real.sin (Real.pi * i / d)| ≤ |X - Real.pi * i / d| := by
    exact Real.abs_sin_sub_sin_le _ _
  have hsin0 : 0 ≤ Real.sin (Real.pi * i / d) := by
    apply Real.sin_nonneg_of_nonneg_of_le_pi
    · have := Real.pi_pos; positivity
    · rw [mul_div_assoc]
      have := Real.pi_pos
      nlinarith
  have htot : |(Window.sinTail (x * x) 24 0 x : ℝ) - 2 ^ 128 * Real.sin (Real.pi * i / d)| ≤ 64 := by
    have e : (Window.sinTail (x * x) 24 0 x : ℝ) - 2 ^ 128 * Real.sin (Real.pi * i / d)
        = ((Window.sinTail (x * x) 24 0 x : ℝ) - 2 ^ 128 * Window.sinSum 24 X)
          - 2 ^ 128 * (Real.sin X - Window.sinSum 24 X)
          + 2 ^ 128 * (Real.sin X - Real.sin (Real.pi * i / d)) := by ring
    have b1 : |(2 : ℝ) ^ 128 * (Real.sin X - Window.sinSum 24 X)| ≤ 1 := by
      rw [abs_mul, abs_of_pos (by positivity : (0 : ℝ) < 2 ^ 128)]
      calc (2 : ℝ) ^ 128 * |Real.sin X - Window.sinSum 24 X| ≤ 2 ^ 128 * (1 / 2 ^ 128) := by
            apply mul_le_mul_of_nonneg_left (htay.trans hrem); positivity
        _ = 1 := by field_simp
    have b2 : |(2 : ℝ) ^ 128 * (Real.sin X - Real.sin (Real.pi * i / d))| ≤ 1.5 := by
      rw [abs_mul, abs_of_pos (by positivity : (0 : ℝ) < 2 ^ 128)]
      calc (2 : ℝ) ^ 128 * |Real.sin X - Real.sin (Real.pi * i / d)| ≤ 2 ^ 128 * (1.5 / 2 ^ 128) := by
            apply mul_le_mul_of_nonneg_left (hlip.trans hang); positivity
        _ = 1.5 := by field_simp
    rw [e]
    have c1 := abs_add_le (((Window.sinTail (x * x) 24 0 x : ℝ) - 2 ^ 128 * Window.sinSum 24 X)
          - 2 ^ 128 * (Real.sin X - Window.sinSum 24 X)) (2 ^ 128 * (Real.sin X - Real.sin (Real.pi * i / d)))
    have c2 := abs_sub ((Window.sinTail (x * x) 24 0 x : ℝ) - 2 ^ 128 * Window.sinSum 24 X)
      (2 ^ 128 * (Real.sin X - Window.sinSum 24 X))
    exact (c1.trans (add_le_add (c2.trans (add_le_add hser b1)) b2)).trans (by norm_num)
  have hcast : ((Window.sinFix i d : ℕ) : ℝ) = max (Window.sinTail (x * x) 24 0 x : ℝ) 0 := Window.cast_sinFix i d
  rw [hcast]
  have hy : 0 ≤ 2 ^ 128 * Real.sin (Real.pi * i / d) := mul_nonneg (pow_nonneg (by norm_num) _) hsin0
  rw [abs_le] at htot ⊢
  rcases le_total (Window.sinTail (x * x) 24 0 x : ℝ) 0 with hneg | hpos
  · rw [max_eq_right hneg]; constructor <;> linarith
  · rw [max_eq_left hpos]; exact htot

/-- Whether the two ends of the error bound around `sin²` round alike. -/
def Window.settled (m i : Nat) : Bool :=
  let s := Window.sinFix i (2 * m + 1)
  F32.roundMag ((s - 64) * (s - 64) * 2 ^ 149) (2 ^ 256) == F32.roundMag ((s + 64) * (s + 64) * 2 ^ 149) (2 ^ 256)

/-- A settled element of the table is the window function rounded once (41_overlap_add.md R150). -/
theorem Window.isRnd32_of_settled (m i : Nat) (hi : i < m) (h0 : 0 < i) (hs : Window.settled m i = true) :
    IsRnd32 (Real.sin (Real.pi * i / (2 * m + 1)) ^ 2) (Window.wDocElem m i) := by
  have herr := Window.sinFix_error i (2 * m + 1) (by omega)
  push_cast at herr
  set y := Real.sin (Real.pi * i / (2 * m + 1)) with hy
  have hm : (0 : ℝ) < 2 * m + 1 := by positivity
  have hir : (i : ℝ) < m := by exact_mod_cast hi
  have hypos : 0 < y := by
    apply Real.sin_pos_of_pos_of_lt_pi
    · have := Real.pi_pos
      have : (0 : ℝ) < i := by exact_mod_cast h0
      positivity
    · rw [div_lt_iff₀ hm]
      have := Real.pi_pos
      nlinarith
  unfold Window.settled at hs
  simp only [beq_iff_eq] at hs
  unfold Window.wDocElem
  dsimp only
  generalize Window.sinFix i (2 * m + 1) = s at *
  obtain ⟨e1, e2⟩ := abs_le.mp herr
  have hr : ∀ k : Nat, F32.RoundsTo (((k : ℝ) / 2 ^ 128) ^ 2 * 2 ^ 149) (F32.roundMag (k * k * 2 ^ 149) (2 ^ 256)) := by
    intro k
    have := F32.roundMag_roundsTo (k * k * 2 ^ 149) (2 ^ 256) (by positivity)
    convert this using 1
    push_cast
    have : (2 : ℝ) ^ 256 = 2 ^ 128 * 2 ^ 128 := by rw [← pow_add]
    norm_num at this ⊢
    ring
  have hlo : ((s - 64 : ℕ) : ℝ) / 2 ^ 128 ≤ y := by
    rw [div_le_iff₀ (by positivity)]
    rcases Nat.le_total s 64 with hle | hle
    · rw [Nat.sub_eq_zero_of_le hle]; simp; positivity
    · rw [Nat.cast_sub hle]; push_cast; linarith
  have hhi : y ≤ ((s + 64 : ℕ) : ℝ) / 2 ^ 128 := by
    rw [le_div_iff₀ (by positivity)]; push_cast; linarith
  have hlo0 : (0 : ℝ) ≤ ((s - 64 : ℕ) : ℝ) / 2 ^ 128 := by positivity
  have q1 := hr (s - 64)
  have q2 := hr (s + 64)
  rw [← hs] at q2
  have hsame : F32.roundMag (s * s * 2 ^ 149) (2 ^ 256) = F32.roundMag ((s - 64) * (s - 64) * 2 ^ 149) (2 ^ 256) := by
    refine (hr s).unique (q1.between q2 ?_ ?_ (by positivity))
    · gcongr; exact Nat.sub_le _ _
    · gcongr; exact Nat.le_add_right _ _
  rw [hsame]
  apply isRnd32_of_roundsTo (by positivity)
  · rw [abs_of_pos (by positivity)]
    refine q1.between q2 ?_ ?_ (by positivity) <;> gcongr
  · intro _
    have : ¬ y ^ 2 < 0 := not_lt.mpr (by positivity)
    simp [this]
end Sys2Proof
end

