-- ==== Sys2Proof/Tests/Slice0.lean ====
section
/-! SUPPORT. Tests of the model, each expected value from spec/95_test_vectors.md or from the encoding tables of
spec/30_encoding.md, and for every statement of Certificates/Slice0/Obligations.lean with hypotheses a witness that meets
them. -/

namespace Sys2Proof.Tests

open Sys2Proof Sys2Proof.Machine

set_option Elab.async false

/-! ### Well-formed instructions (30_encoding.md R112): every field at its limit, and one past it -/

theorem test_wellFormed_limits :
    ([.nop, .dctFwd, .dctInv, .mdct 15 65535, .imdct 15 65535, .crunch, .crush, .distort, .procBlock 15 65535,
      .procAll 15 65535, .reset] : List Instr).all Instr.wellFormed = true := by decide

theorem test_illFormed_mdct_ch : (Instr.mdct 16 64).wellFormed = false := by decide
theorem test_illFormed_mdct_len : (Instr.mdct 0 65536).wellFormed = false := by decide
theorem test_illFormed_imdct_ch : (Instr.imdct 16 64).wellFormed = false := by decide
theorem test_illFormed_imdct_len : (Instr.imdct 0 65536).wellFormed = false := by decide
theorem test_illFormed_procBlock_ch : (Instr.procBlock 16 64).wellFormed = false := by decide
theorem test_illFormed_procBlock_len : (Instr.procBlock 0 65536).wellFormed = false := by decide
theorem test_illFormed_procAll_count : (Instr.procAll 16 64).wellFormed = false := by decide
theorem test_illFormed_procAll_len : (Instr.procAll 2 65536).wellFormed = false := by decide

/-! ### Decoding, from words written out by R100 to R105: LEN 31:16, RSV 15:12, CH 11:8, OPC 7:0 -/

theorem test_decode_nop : decode 0b00000000000000000000000000000000#32 = .ok .nop := by rfl
theorem test_decode_dctFwd : decode 0b00000000000000000000000000000001#32 = .ok .dctFwd := by rfl
theorem test_decode_dctInv : decode 0b00000000000000000000000000000010#32 = .ok .dctInv := by rfl
theorem test_decode_mdct : decode 0b00000000010000000000000100000011#32 = .ok (.mdct 1 64) := by rfl
theorem test_decode_imdct : decode 0b00000000010000000000000100000100#32 = .ok (.imdct 1 64) := by rfl
theorem test_decode_crunch : decode 0b00000000000000000000000000000101#32 = .ok .crunch := by rfl
theorem test_decode_crush : decode 0b00000000000000000000000000000110#32 = .ok .crush := by rfl
theorem test_decode_distort : decode 0b00000000000000000000000000000111#32 = .ok .distort := by rfl
theorem test_decode_procBlock : decode 0b11111111111111110000111100001000#32 = .ok (.procBlock 15 65535) := by rfl
theorem test_decode_procAll : decode 0b00000000010000000000001000001001#32 = .ok (.procAll 2 64) := by rfl
theorem test_decode_reset : decode 0b00000000000000000000000000001111#32 = .ok .reset := by rfl

/-- ENC-8 to ENC-10. -/
theorem test_decode_illegal :
    ([0x0000000A, 0x0000000E, 0x00000010, 0x000000FF, 0x00000105, 0x00010001, 0x80000000, 0x00401008, 0x0040F003,
      0x00001009] : List Word).all (fun w => match decode w with | .ok _ => false | .error _ => true) = true := by decide

/-- R112 with the words of R115. -/
theorem test_encode :
    encode (.procBlock 1 64) = 0x00400108#32 ∧ encode (.procAll 2 64) = 0x00400209#32
      ∧ encode (.mdct 0 64) = 0x00400003#32 ∧ encode (.imdct 1 64) = 0x00400104#32 := by decide

/-! ### One step on a small block: N = 2, C = 2, every other parameter at its default -/

/-- The state after an outcome. -/
def nextState : Host.Outcome State Fault Refusal → Option State
  | .next s => some s
  | .fault _ => none
  | .refused _ => none

/-- Legal curves with the premises of 95_test_vectors.md: B(0.5) = 2, G(0.5) = 1.5 and Q(0.25) = 0.5. -/
def sampleCurves : Curves where
  b := [(0x3F000000, 0x40000000), (0x3F800000, 0x3F800000)]
  g := [(0x3F000000, 0x3FC00000), (0x3F800000, 0x40000000)]
  q := [(0x3E800000, 0x3F000000), (0x3F800000, 0x3E800000)]
  gz := [(0x3F800000, 0x3F800000)]

/-- A bypass frame, empty Channel State, given `VEC` and `IO[0]`. -/
def small (vec io : List Word) : State where
  cfg := Config.standard 2 2 sampleCurves
  cmd := 0
  code := .normal
  sticky := false
  crunchVal := 0
  crushVal := 0
  frame :=
    { drive := [F32.one, F32.one]
      crunch := [0, 0]
      crush := [0, 0]
      mix := [F32.one, F32.one]
      gain := [F32.one, F32.one] }
  vec := vec
  channels := [⟨io, [0, 0], [0, 0], [0, 0]⟩, ⟨[0, 0], [0, 0], [0, 0], [0, 0]⟩]
  pending := []
  replies := []
  draws := 0

/-- A legal state with every array zero. -/
def silent : State := small [0, 0, 0, 0] [0, 0]

/-- `VEC` after a command on `VEC`. -/
def vecAfter (i : Instr) (vec : List Word) : Option (List Word) := (nextState (exec i (small vec [0, 0]))).map State.vec

/-- DCT-1. -/
theorem test_dctFwd : vecAfter .dctFwd [0x3F800000, 0, 0, 0]
    = some [0x3F800000, 0x3F6C835E, 0x3F3504F3, 0x3EC3EF15] := by decide +kernel

/-- DCT-17: overflow, an exact zero, and a large finite value. -/
theorem test_dctFwd_overflow : vecAfter .dctFwd [0x7F61B1E6, 0x7F61B1E6, 0, 0]
    = some [0x7F800000, 0x7F800000, 0, 0xFEF44A59] := by decide +kernel

/-- DCT-5: the inverse of `FWD_4([1, 2, 3, 4])`. -/
theorem test_dctInv : vecAfter .dctInv [0x41200000, 0xC049E06A, 0, 0xBE658D05]
    = some [0x3F7FFFFF, 0x40000000, 0x40400000, 0x40800000] := by decide +kernel

/-- DCT-11. -/
theorem test_dctInv_basis : vecAfter .dctInv [0, 0x3F800000, 0, 0]
    = some [0x3EEC835E, 0x3E43EF15, 0xBE43EF15, 0xBEEC835E] := by decide +kernel

/-- OLA-1. -/
theorem test_mdct :
    (nextState (exec (.mdct 0 2) (small [0, 0, 0, 0] [0x3F800000, 0x3F800000]))).map
        (fun t => (t.vec, (channelAt t 0).hist, (channelAt t 0).io, statusWord t))
      = some ([0x40000000, 0xBFA73D75, 0, 0x3F0A8BD4], [0x3F800000, 0x3F800000], [0x3F800000, 0x3F800000], 0) := by decide +kernel

/-- OLA-7, scaled to N = 2: the channel is checked before the length. -/
theorem test_mdct_errors :
    ((nextState (exec (.mdct 5 0) (small [0, 0, 0, 0] [0, 0]))).map statusWord,
        (nextState (exec (.mdct 0 1) (small [0, 0, 0, 0] [0, 0]))).map statusWord)
      = (some 0x00000104, some 0x00000103) := by decide +kernel

/-- OLA-2. -/
theorem test_imdct :
    (nextState (exec (.imdct 0 2) (small [0x40000000, 0xBFA73D75, 0, 0x3F0A8BD4] [0x3F800000, 0x3F800000]))).map
        (fun t => ((channelAt t 0).io, (channelAt t 0).tail))
      = some ([0, 0xB0E22258], [0x3E2ECFBD, 0x3F100000]) := by decide +kernel

/-- OLA-6: a NaN in `VEC`. -/
theorem test_imdct_nan :
    (nextState (exec (.imdct 0 2) (small [0x7FC00001, 0, 0, 0] [0, 0]))).map
        (fun t => ((channelAt t 0).io, (channelAt t 0).tail))
      = some ([0x7FC00000, 0x7FC00000], [0x7FC00000, 0x7FC00000]) := by decide +kernel

/-- OLA-3. -/
theorem test_window : Window.wDoc 4 = [0, 0x3DEF920C, 0x3ED38BCB, 0x3F400000] := by decide +kernel

/-- CRN-3. -/
theorem test_crunch :
    (nextState (exec .crunch
        { small [0x7F800000, 0xFF800000, 0x7FC00001, 0x80000000, 0x3F800000, 0xC0000000, 0x40200000, 0xBFC00000] [0, 0] with
          crunchVal := 0x3F000000 })).map State.vec
      = some [0x40400000, 0xC0400000, 0x7FC00000, 0x80000000, 0x3FC00000, 0xC0400000, 0x40400000, 0xC0100000] := by decide +kernel

/-- CRN-2: identity at `-0.0`, bit for bit. -/
theorem test_crunch_identity :
    (nextState (exec .crunch { small [0x40400000, 0xC0A00000, 0x7FC00001, 0x80000000] [0, 0] with
        crunchVal := 0x80000000 })).map State.vec
      = some [0x40400000, 0xC0A00000, 0x7FC00001, 0x80000000] := by decide +kernel

/-- CRS-7, with the premise Q = 1e30. -/
theorem test_crush :
    [0x501502F9, 0xBF800000, 0, 0x8C01CEB3].map (quantize 0x7FC00000 0x7149F2CA)
      = [0x7F800000, 0xBF800000, 0, 0x80000000] := by decide +kernel

/-- CRS-3 and CRS-6, with the premise Q = 1: ties, signed zeros and the `2^23` boundary. -/
theorem test_crush_rounding :
    [0xBECCCCCD, 0x3EFFFFFF, 0x3FC00000, 0xBFC00000, 0x4B000000, 0x4AFFFFFF].map (quantize 0x7FC00000 0x3F800000)
      = [0x80000000, 0, 0x40000000, 0xC0000000, 0x4B000000, 0x4B000000] := by decide +kernel

/-- DST-1. -/
theorem test_distort :
    (nextState (exec .distort { small [0x40400000, 0xC0A00000, 0x3F800000, 0] [0, 0] with
        crunchVal := 0x3F000000
        crushVal := 0x3E800000 })).map State.vec
      = some [0x40800000, 0xC0800000, 0x40000000, 0] := by decide +kernel

/-- DST-2. -/
theorem test_distort_identity : vecAfter .distort [0x40400000, 0x80000000, 0x7FC00001, 0]
    = some [0x40400000, 0x80000000, 0x7FC00001, 0] := by decide +kernel

/-- Program P1, cycle 1. -/
theorem test_procBlock :
    (nextState (exec (.procBlock 0 2) (small [0, 0, 0, 0] [0x3F800000, 0]))).map (fun t => channelAt t 0)
      = some ⟨[0, 0x30A096DF], [0x3F800000, 0], [0x3E2ECFBD, 0x3183D0CB], [0x3F800000, 0]⟩ := by decide +kernel

/-- Program P5, call 1, the outputs and the tails. -/
theorem test_procAll :
    (nextState (exec (.procAll 2 2)
        { small [0, 0, 0, 0] [0, 0] with
          frame := { (small [] []).frame with mix := [0x3F000000, 0x3F000000] }
          channels :=
            [⟨[0x3F800000, 0x40000000], [0, 0], [0, 0], [0, 0]⟩, ⟨[0x3F000000, 0xBF800000], [0, 0], [0, 0], [0, 0]⟩] })).map
        (fun t => [(channelAt t 0).io, (channelAt t 0).tail, (channelAt t 1).io, (channelAt t 1).tail])
      = some [[0, 0xADBA26FC], [0x3E2ECFBD, 0x3F900000], [0, 0xB0BB202F], [0x3DAECFBD, 0xBF100000]] := by decide +kernel

/-- PA-1 to PA-3. -/
theorem test_procAll_errors :
    ([0x00400009, 0x00400109, 0x00000009] : List Nat).map
        (fun w => (nextState (step (State.reset.withFetchWord 32 w))).map statusWord)
      = [some 0x00000101, some 0x00000102, some 0x00000101] := by decide +kernel

/-- SYS-1. -/
theorem test_nop :
    (nextState (exec .nop { small [] [] with code := .errNoChannels, sticky := true })).map statusWord
      = some 0x00000100 := by decide +kernel

/-- SYS-2. -/
theorem test_reset :
    (nextState (exec .reset { small [1, 2, 3, 4] [5, 6] with
        code := .errBlockSize
        sticky := true
        channels := [⟨[5, 6], [7, 8], [9, 10], [11, 12]⟩] })).map
        (fun t => (t.vec, channelAt t 0, statusWord t))
      = some ([1, 2, 3, 4], ⟨[5, 6], [0, 0], [0, 0], [0, 0]⟩, 0) := by decide +kernel

/-! ### The host port -/

/-- PORT-1, PORT-4 and PORT-10, on the default block after block reset. -/
theorem test_port_reads :
    ([0x0000, 0x7000, 0x0005, 0xA000, 0x1040, 0x0002, 0x0001] : List WordAddr).map (portRead State.reset)
      = [0x00020040, 0, 0, 0, 0, 0, 0] := by decide +kernel

/-- PORT-7 and PORT-8. -/
theorem test_port_sticky :
    [0x00000000#32, 0x00000100#32].map
        (fun v => statusWord (portStore 0x0002 v { small [] [] with code := .errIllegalCmd, sticky := true }))
      = [0x00000105, 0x00000005] := by decide +kernel

/-- R75: byte `4·a + k` is bits `8k+7 : 8k`, written and read. -/
theorem test_adapter :
    (nextState (performAccess (.adapterWrite 0x18004 [0x44, 0x33, 0x22, 0x11]) silent)).map State.vec
        = some [0, 0x11223344, 0, 0]
      ∧ (nextState (performAccess (.adapterRead 0x18004 4) (small [0, 0x11223344, 0, 0] [0, 0]))).map State.replies
        = some [.bytes [0x44, 0x33, 0x22, 0x11]] := by decide +kernel

/-- R75: a halfword and a misaligned word are refused. -/
theorem test_adapter_refuses :
    performAccess (.adapterWrite 0x18004 [0x44, 0x33]) silent = .refused .partialWordAccess
      ∧ performAccess (.adapterRead 0x18005 4) silent = .refused .partialWordAccess := ⟨rfl, rfl⟩

/-- The first step after reset runs the command `withFetchWord` offers, whatever the command. -/
theorem test_every_command_runs_after_reset :
    ([0x0, 0x1, 0x2, 0x00400003, 0x00400104, 0x5, 0x6, 0x7, 0x00400008, 0x00400209, 0xF] : List Nat).map
        (fun w => (nextState (step (State.reset.withFetchWord 32 w))).map (fun t => (t.cmd, statusWord t)))
      = ([0x0, 0x1, 0x2, 0x00400003, 0x00400104, 0x5, 0x6, 0x7, 0x00400008, 0x00400209, 0xF] : List Word).map
          (fun w => some (w, 0)) := by decide +kernel

/-- R73: two port accesses, in order. -/
theorem test_port_access : nextState (step { small [0, 0, 0, 0] [0, 0] with pending := [.port (.write 0x6000 0x7F800001)] })
    = some (small [0x7F800001, 0, 0, 0] [0, 0]) := by decide +kernel

/-! ### Witnesses: for each statement with hypotheses, a state and operands that meet all of them -/

theorem allFinite_of_all {l : List Word} (h : l.all F32.isFinite = true) : AllFinite l := fun _ => List.all_eq_true.mp h _

theorem allZero_of_all {l : List Word} (h : l.all F32.isZero = true) : AllZero l := fun _ => List.all_eq_true.mp h _

/-- A legal state with one channel. -/
def mono : State :=
  { silent with cfg := Config.standard 2 1 sampleCurves, channels := [⟨[F32.one, 0], [0, 0], [0, 0], [0, 0]⟩] }

theorem witness_DecodeOfEncode :
    (Instr.procBlock 15 65535).wellFormed = true ∧ (Instr.mdct 0 0).wellFormed = true ∧ Instr.reset.wellFormed = true := by
  decide

theorem witness_EncodeOfDecode :
    decode 0xFFFF0F08#32 = .ok (.procBlock 15 65535) ∧ decode 0x00000003#32 = .ok (.mdct 0 0) := ⟨rfl, rfl⟩

theorem witness_OpcodeRowsSelectCommands :
    ∀ r ∈ opcodeTable, r.selects r.matchBits = true := by decide

/-- Each kind of illegal word at both ends of its range, and the legal words next to them. -/
theorem witness_IllegalWordsOnlyReport :
    ([0x0A, 0x0E, 0x10, 0xFF, 0x100, 0x80000000, 0x1003, 0xF009] : List Word).all
        (fun w => match decode w with | .ok _ => false | .error _ => true) = true
      ∧ ([0x09, 0x0F, 0x00, 0xFFFF0F03] : List Word).all
        (fun w => match decode w with | .ok _ => true | .error _ => false) = true := by decide

theorem witness_StepRunsDecodedCommand :
    ({ silent with pending := [.port (.write 0x0001#16 0x00400209#32)] } : State).pending
        = .port (.write 0x0001#16 0x00400209#32) :: []
      ∧ decode 0x00400209#32 = .ok (.procAll 2 64) ∧ decodeTableWord 32 0x00400209 = some (.procAll 2 64) :=
  ⟨rfl, rfl, rfl⟩

/-- A port access, and one through the adapter. -/
theorem witness_StepPerformsNextAccess :
    ({ silent with pending := [.port (.read 0x6000)] } : State).pending = .port (.read 0x6000) :: []
      ∧ ({ silent with pending := [.adapterRead 0x18000 4] } : State).pending = .adapterRead 0x18000 4 :: [] := ⟨rfl, rfl⟩

theorem witness_IdleStepKeepsState : State.reset.pending = [] := rfl

/-- The first and last element of every array, a command word, and the first address past a region's valid range. -/
theorem witness_ArrayWordStoredUnchanged :
    silent.wf = true ∧ silent.cfg.n = 2 ∧ silent.cfg.m = 4 ∧ silent.cfg.c = 2
      ∧ ([0x1000, 0x1001, 0x2001, 0x3001, 0x4001, 0x5001, 0x6000, 0x6003, 0x8000, 0x8001, 0x9000, 0x9001]
          : List WordAddr).all (arrayAddr silent.cfg) = true
      ∧ decode 0x0000000F#32 = .ok .reset
      ∧ ([0x0005, 0x1002, 0x6004, 0x9002] : List WordAddr).all
        (fun a => !arrayAddr silent.cfg a && decide (5 ≤ a.toNat)) = true := by decide +kernel

/-- Two channels whose every array element is a different word. -/
def numbered : State :=
  { silent with
    frame := { drive := [10, 11], crunch := [20, 21], crush := [30, 31], mix := [40, 41], gain := [50, 51] }
    vec := [60, 61, 62, 63]
    channels := [⟨[80, 81], [1, 2], [3, 4], [5, 6]⟩, ⟨[90, 91], [1, 2], [3, 4], [5, 6]⟩] }

/-- 20_memory.md R72: the element each row of the address map names. -/
theorem test_addressMap_elements :
    ([0x1000, 0x1001, 0x2000, 0x2001, 0x3000, 0x3001, 0x4000, 0x4001, 0x5000, 0x5001, 0x6000, 0x6003, 0x8000, 0x8001,
      0x9000, 0x9001] : List WordAddr).map (portRead numbered)
      = [10, 11, 20, 21, 30, 31, 40, 41, 50, 51, 60, 63, 80, 81, 90, 91] := by decide +kernel

/-- The first address past every register and array, and region 9 of a block with one channel. -/
theorem witness_UnmappedReadsZeroIgnoresWrites :
    ([0x0005, 0x0FFF, 0x1002, 0x6004, 0x7000, 0x8002, 0x9002, 0xA000, 0xFFFF] : List WordAddr).all
        (fun a => !arrayAddr silent.cfg a && decide (5 ≤ a.toNat)) = true
      ∧ arrayAddr mono.cfg 0x9000 = false := by decide +kernel

theorem witness_ConfigRegisterReadsParameters : silent.wf = true ∧ mono.wf = true := by decide +kernel

theorem witness_StatusWriteOneClearsSticky : ∃ t, exec .reset silent = .next t := ⟨_, rfl⟩

theorem witness_CommandRegisterStoresThenRuns :
    decode 0x0000000F#32 = .ok .reset ∧ (∀ w, PortOp.write 0x0003#16 5 ≠ .write 0x0001#16 w)
      ∧ ∃ t, perform (.write 0x0003#16 5) silent = .next t := ⟨rfl, fun w h => by simp at h, _, rfl⟩

/-- A command is an access that writes neither control register. -/
theorem witness_ControlRegistersHoldLastWrite :
    (∃ t, perform (.write 0x0001#16 0x00000007#32) silent = .next t)
      ∧ (∀ v, PortOp.write 0x0001#16 0x00000007#32 ≠ .write 0x0003#16 v)
      ∧ ∀ v, PortOp.write 0x0001#16 0x00000007#32 ≠ .write 0x0004#16 v :=
  ⟨⟨_, rfl⟩, fun v h => by simp at h, fun v h => by simp at h⟩

theorem witness_ReadsArePureWritesIdempotent :
    (0x0002#16 : WordAddr) ≠ 0x0001#16 ∧ ∃ t, perform (.write 0x0002#16 0x100#32) silent = .next t :=
  ⟨by decide, _, rfl⟩

theorem witness_ByteAdapterPresentsWholeWords :
    ([0x44, 0x33, 0x22, 0x11] : List Byte).length = 4
      ∧ (∀ k < 4, ([0x44, 0x33, 0x22, 0x11] : List Byte).getD k 0 = (0x11223344#32).extractLsb' (8 * k) 8)
      ∧ ¬ ((0x00001#18 : ByteAddr).toNat % 4 = 0 ∧ ([1, 2, 3, 4] : List Byte).length = 4)
      ∧ ¬ ((0x00000#18 : ByteAddr).toNat % 4 = 0 ∧ ([1, 2] : List Byte).length = 4)
      ∧ ¬ ((0x00000#18 : ByteAddr).toNat % 4 = 0 ∧ 8 = 4) := by decide

theorem witness_ChannelStateHiddenFromPort :
    (∀ v, PortOp.write 0x8000#16 7 ≠ .write 0x0001#16 v) ∧ (∃ t, perform (.write 0x8000#16 7) silent = .next t)
      ∧ ([⟨[0, 0], [1, 2], [3, 4], [5, 6]⟩, ⟨[0, 0], [7], [8], [9]⟩] : List Channel).map Channel.io
          = silent.channels.map Channel.io :=
  ⟨fun v h => by simp at h, ⟨_, rfl⟩, rfl⟩

theorem witness_ErrorWritesOnlyStatus :
    (∃ t, exec (.mdct 2 2) silent = .next t ∧ t.code ≠ .normal)
      ∧ ∃ t, perform (.write 0x0001#16 0x0000000A#32) silent = .next t ∧ t.code ≠ .normal :=
  ⟨⟨_, rfl, by decide +kernel⟩, ⟨_, rfl, by decide +kernel⟩⟩

theorem witness_FailedCommandFailsAgain :
    (∃ t, perform (.write 0x0001#16 0x0000000A#32) silent = .next t ∧ t.code ≠ .normal)
      ∧ ∃ t, perform (.write 0x0001#16 0x00000009#32) silent = .next t ∧ t.code ≠ .normal :=
  ⟨⟨_, rfl, by decide +kernel⟩, ⟨_, rfl, by decide +kernel⟩⟩

/-- Nonzero and zero products, an overflowing one and an underflowing one. -/
theorem witness_ProductCorrectlyRounded :
    [0x00000001#32, 0x7F7FFFFF#32, 0x80000000#32].all F32.isFinite = true
      ∧ F32.toRat 0x00000001#32 * F32.toRat 0x7F7FFFFF#32 ≠ 0 ∧ F32.toRat 0x7F7FFFFF#32 * F32.toRat 0x80000000#32 = 0 := by
  refine ⟨by decide, ?_, ?_⟩ <;> simp [F32.toRat, F32.units_eq_zero] <;> decide

/-- A nonzero sum and difference, and both exact zeros. -/
theorem witness_SumCorrectlyRounded :
    [0x3F800000#32, 0x80000000#32].all F32.isFinite = true
      ∧ F32.toRat 0x3F800000#32 + F32.toRat 0x80000000#32 ≠ 0 ∧ F32.toRat 0x80000000#32 + F32.toRat 0x80000000#32 = 0
      ∧ F32.toRat 0x3F800000#32 - F32.toRat 0x80000000#32 ≠ 0 ∧ F32.toRat 0x80000000#32 - F32.toRat 0x80000000#32 = 0 := by
  have h0 : F32.units 0x80000000#32 = 0 := by decide
  have h1 : F32.units 0x3F800000#32 ≠ 0 := by decide
  refine ⟨by decide, ?_, ?_, ?_, ?_⟩ <;> simp [F32.toRat, h0, h1]

theorem witness_QuotientCorrectlyRounded :
    [0x3F800000#32, 0x00000000#32, 0x40400000#32].all F32.isFinite = true ∧ F32.isZero 0x40400000#32 = false
      ∧ F32.toRat 0x3F800000#32 / F32.toRat 0x40400000#32 ≠ 0 ∧ F32.toRat 0x00000000#32 / F32.toRat 0x40400000#32 = 0 := by
  have h0 : F32.units 0x00000000#32 = 0 := by decide
  have h1 : F32.units 0x3F800000#32 ≠ 0 := by decide
  have h2 : F32.units 0x40400000#32 ≠ 0 := by decide
  refine ⟨by decide, by decide, ?_, ?_⟩ <;> simp [F32.toRat, h0, h1, h2]

theorem witness_ArithmeticSpecialValues :
    F32.isNaN 0x7F800001#32 = true ∧ F32.isInf 0x7F800000#32 = true ∧ F32.isInf 0xFF800000#32 = true
      ∧ F32.isFinite 0x7F7FFFFF#32 = true ∧ F32.isZero 0x80000000#32 = true := by decide

/-- The magnitudes on both sides of `2^23`, a tie, an infinity. -/
theorem witness_RoundHalfAwayNearest :
    (F32.isFinite 0x4AFFFFFF#32 = true ∧ |F32.toRat 0x4AFFFFFF#32| < 2 ^ 23)
      ∧ |F32.toRat 0x3F000000#32 - 1| = 1 / 2
      ∧ 2 ^ 23 ≤ |F32.toRat 0x4B000000#32| ∧ F32.isFinite 0x7F800000#32 = false := by
  have h1 : F32.units 0x4AFFFFFF#32 = 16777215 * 2 ^ 148 := by decide
  have h2 : F32.units 0x3F000000#32 = 2 ^ 148 := by decide
  have h3 : F32.units 0x4B000000#32 = 2 ^ 172 := by decide
  refine ⟨⟨by decide, ?_⟩, ?_, ?_, by decide⟩
  · rw [F32.toRat, h1]; norm_num
  · rw [F32.toRat, h2]; norm_num
  · rw [F32.toRat, h3]; norm_num

theorem witness_ForwardTransformCorrectlyRounded :
    (small [0x3F800000, 0x80000001, 0x7F7FFFFF, 0] [0, 0]).wf = true ∧ silent.cfg.transform = .refCr
      ∧ AllFinite (small [0x3F800000, 0x80000001, 0x7F7FFFFF, 0] [0, 0]).vec := by
  exact ⟨by decide +kernel, rfl, allFinite_of_all (by decide +kernel)⟩

theorem witness_InverseTransformCorrectlyRounded :
    silent.wf = true ∧ silent.cfg.transform = .refCr ∧ AllFinite silent.vec := by
  exact ⟨by decide +kernel, rfl, allFinite_of_all (by decide +kernel)⟩

/-- An infinity in `VEC`, a NaN in the history, an infinity in the block, and a block of NaNs. -/
theorem witness_NonFiniteInputGivesNanOut :
    (silent.cfg.transform = .refCr ∧ ∃ w ∈ (small [0, 0, 0, 0x7F800000] [0, 0]).vec, F32.isFinite w = false)
      ∧ (small [0, 0, 0, 0] [0, 0x7F800000]).wf = true ∧ 0 < silent.cfg.c ∧ 1 < silent.cfg.n
      ∧ F32.isFinite (F32.mul silent.cfg.nanOut
          (elem (channelAt (small [0, 0, 0, 0] [0, 0x7F800000]) 0).io 1) (elem silent.frame.drive 1)) = false
      ∧ F32.isFinite (elem [0, 0x7FC00000] 1) = false
      ∧ (small [0, 0, 0, 0] [0x7FC00000, 0xFF800001]).wf = true
      ∧ ∀ i < silent.cfg.n, F32.isNaN (elem (channelAt (small [0, 0, 0, 0] [0x7FC00000, 0xFF800001]) 0).io i) = true :=
  ⟨⟨rfl, 0x7F800000#32, by decide, by decide⟩, by decide +kernel⟩

theorem witness_ZeroVectorTransformsToZero :
    (small [0, 0x80000000, 0, 0x80000000] [0, 0]).wf = true ∧ AllZero (small [0, 0x80000000, 0, 0x80000000] [0, 0]).vec
      ∧ silent.cfg.transform = .refCr := by
  exact ⟨by decide +kernel, allZero_of_all (by decide +kernel), rfl⟩

/-- A block built with a transform other than `REF_CR`, both of whose functions are the identity. -/
def identityTransform (vec : List Word) : State :=
  { small vec [0, 0] with cfg := { silent.cfg with transform := .table [] [] } }

theorem le_maxAbs {l : List Word} {w : Word} (h : w ∈ l) : |F32.toRat w| ≤ maxAbs l := by
  unfold maxAbs
  induction l with
  | nil => cases h
  | cons v l ih =>
    rcases List.mem_cons.mp h with rfl | h
    · exact le_max_left _ _
    · exact (ih h).trans (le_max_right _ _)

theorem identityTransform_legal (vec : List Word) : Legal (identityTransform vec).cfg := by
  refine ⟨by change (identityTransform []).cfg.wf = true; decide +kernel, fun _ xs hl hf i hi => ?_⟩
  have e : invM (identityTransform vec).cfg (fwdM (identityTransform vec).cfg xs) = xs := by
    change tableTransform _ [] (tableTransform _ [] xs) = xs
    rw [tableTransform_eq (t := []) (xs := xs) hl]
    exact tableTransform_eq (t := []) hl
  have hm : elem xs i ∈ xs := by
    have : i < xs.length := by omega
    simp [elem, this]
  rw [e, sub_self, abs_zero]
  exact ⟨hf _ hm, mul_nonneg (by norm_num) ((abs_nonneg _).trans (le_maxAbs hm))⟩

/-- Two states that differ in everything the transform does not read; and a legal build with another transform. -/
theorem witness_TransformReadsOnlyVector :
    (silent.cfg = ({ silent with crushVal := 7, draws := 9, sticky := true, channels := [] } : State).cfg
        ∧ silent.vec = ({ silent with crushVal := 7, draws := 9, sticky := true, channels := [] } : State).vec)
      ∧ (identityTransform [F32.one, 0, 0x7F7FFFFF, 0]).wf = true
      ∧ Legal (identityTransform [F32.one, 0, 0x7F7FFFFF, 0]).cfg
      ∧ (identityTransform [F32.one, 0, 0x7F7FFFFF, 0]).cfg.transform ≠ .refCr
      ∧ AllFinite (identityTransform [F32.one, 0, 0x7F7FFFFF, 0]).vec :=
  ⟨⟨rfl, rfl⟩, by decide +kernel, identityTransform_legal _, by decide, allFinite_of_all (by decide +kernel)⟩

theorem witness_DefaultWindowCorrectlyRounded :
    (2 ∈ [2, 4, 8, 16, 32, 64, 128, 256, 512, 1024, 2048] ∧ 3 < 2 * 2)
      ∧ 2048 ∈ [2, 4, 8, 16, 32, 64, 128, 256, 512, 1024, 2048] ∧ 4095 < 2 * 2048 := by decide

/-- The first and the last channel. -/
theorem witness_MdctTransformsHistoryAndBlock :
    silent.wf = true ∧ 0 < silent.cfg.c ∧ 1 < silent.cfg.c ∧ 2 = silent.cfg.n := by decide +kernel

theorem witness_ImdctWindowsAndOverlaps :
    silent.wf = true ∧ 0 < silent.cfg.c ∧ 1 < silent.cfg.c ∧ 2 = silent.cfg.n := by decide +kernel

/-- Both zeros; and 1, the top of the range, with NaN, 1 + 2^-23 and a negative value outside it. -/
theorem witness_CrunchClampsAndScales :
    [0x00000000#32, 0x80000000#32].all (F32.eq · F32.posZero) = true
      ∧ [0x3F800000#32, 0x3F800001#32, 0xBF000000#32, 0x7FC00000#32].all (fun x => !F32.eq x F32.posZero) = true
      ∧ [0x3F800000#32, 0x3F800001#32, 0xBF000000#32, 0x7FC00000#32].map F32.inUnit = [true, false, false, false] := by decide

/-- A control at each end of `(0, 1]`, coefficients at the bound, inside and outside it. -/
theorem witness_CrunchBoundsCoefficients :
    silent.wf = true ∧ F32.eq 0x80000000#32 F32.posZero = true
      ∧ F32.inUnit 0x3F800000#32 = true ∧ F32.inUnit 0x00000001#32 = true
      ∧ [F32.posZero, 0x40000000#32, 0x7F800000#32].map (fun x => (F32.isNaN x,
            F32.le (F32.neg (curveIn silent.cfg .b 0x00000001#32)) x, F32.le x (curveIn silent.cfg .b 0x00000001#32)))
          = [(false, true, true), (false, true, true), (false, true, false)] := by decide +kernel

/-- The sample curves, at both ends of `(0, 1]` and on both sides of a step. -/
theorem witness_CurvesKeepTheirRules :
    silent.cfg.wf = true
      ∧ [0x00000001#32, 0x3F000000#32, 0x3F000001#32, 0x3F800000#32].all F32.inUnit = true
      ∧ F32.le 0x3F000000#32 0x3F000001#32 = true ∧ F32.le 0x00000001#32 0x3F800000#32 = true := by decide +kernel

theorem witness_ClampReturnsAnOperand :
    F32.isNaN 0x7FC00001#32 = true ∧ F32.lt 0xC0400000#32 (F32.neg 0x40000000#32) = true
      ∧ F32.le F32.posZero 0x40000000#32 = true ∧ F32.isZero 0x80000000#32 = true := by decide

theorem witness_CrushQuantizes :
    F32.eq 0x80000000#32 F32.posZero = true ∧ F32.eq 0x3F800000#32 F32.posZero = false
      ∧ F32.inUnit 0x3F800000#32 = true ∧ F32.inUnit 0x3F800001#32 = false := by decide

/-- A control of 1; products below one half, at `2^23`, just below it, and an infinite one. -/
theorem witness_CrushLevelsOfTheGrid :
    silent.wf = true ∧ F32.eq 0x80000000#32 F32.posZero = true ∧ F32.inUnit F32.one = true
      ∧ silent.cfg.crushCompEn = false
      ∧ [0x3F800000#32, 0x4BFFFFFF#32, 0x4C000000#32, 0x7F800000#32].map
          (fun x => F32.mul silent.cfg.nanOut x (curveIn silent.cfg .q F32.one))
        = [0x3E800000#32, 0x4AFFFFFF#32, 0x4B000000#32, 0x7F800000#32] := by decide +kernel

theorem witness_ProcBlockRunsTheCycle :
    silent.wf = true ∧ 1 < silent.cfg.c ∧ 2 = silent.cfg.n ∧ mono.wf = true ∧ 0 < mono.cfg.c := by decide +kernel

/-- As many channels as the block has, and the most the field holds; one channel and two. -/
theorem witness_ProcAllRunsEveryChannel :
    silent.wf = true ∧ silent.cfg.c ≤ 2 ∧ silent.cfg.c ≤ 15 ∧ 2 = silent.cfg.n ∧ silent.cfg.c = 2
      ∧ mono.wf = true ∧ mono.cfg.c ≤ 1 ∧ 2 = mono.cfg.n ∧ mono.cfg.c = 1 := by decide +kernel

theorem witness_ChannelOrderUnobservable :
    silent.wf = true ∧ silent.cfg.c = 2 ∧ 2 ≤ 2 ∧ 2 = silent.cfg.n
      ∧ controlInContract (elem silent.frame.crunch silent.cfg.rep) = true
      ∧ controlInContract (elem silent.frame.crush silent.cfg.rep) = true ∧ controlInContract 0x3F800000#32 = true := by
  decide +kernel

theorem witness_CycleReadsOnlyItsInputs :
    silent.wf = true ∧ ({ silent with vec := [1, 2, 3, 4], sticky := true, draws := 5 } : State).wf = true
      ∧ silent.cfg = ({ silent with vec := [1, 2, 3, 4], sticky := true, draws := 5 } : State).cfg
      ∧ silent.frame = ({ silent with vec := [1, 2, 3, 4], sticky := true, draws := 5 } : State).frame
      ∧ channelAt silent 0 = channelAt { silent with vec := [1, 2, 3, 4], sticky := true, draws := 5 } 0
      ∧ controlInContract (elem silent.frame.crunch silent.cfg.rep) = true
      ∧ controlInContract (elem silent.frame.crush silent.cfg.rep) = true
      ∧ (∃ t, exec (.procBlock 0 2) silent = .next t)
      ∧ ∃ t, exec (.procBlock 0 2) { silent with vec := [1, 2, 3, 4], sticky := true, draws := 5 } = .next t :=
  ⟨by decide +kernel, by decide +kernel, rfl, rfl, rfl, by decide +kernel, by decide +kernel, ⟨_, rfl⟩, ⟨_, rfl⟩⟩

/-- Program P6: element 0 of `CRUNCH` and `CRUSH` is not read when `REP` = 1. -/
theorem witness_OnlyRepresentativeElementsRead :
    elem [0x3F666666#32, 0] silent.cfg.rep = elem silent.frame.crunch silent.cfg.rep
      ∧ elem [0x3F333333#32, 0] silent.cfg.rep = elem silent.frame.crush silent.cfg.rep
      ∧ ∃ t, exec (.procBlock 0 2) silent = .next t := ⟨rfl, rfl, ⟨_, rfl⟩⟩

/-- Program P2, cycle 2: a mix of 0, one of `-0.0`, and the previous block in `DRY`. -/
def dryOnly : State :=
  { silent with
    frame := { silent.frame with mix := [0x00000000, 0x80000000], gain := [0x3F000000, 0x3F000000] }
    channels :=
      [⟨[0x40400000, 0x40800000], [0x3F800000, 0x40000000], [0x3E2ECFBD, 0x3F900000], [0x3F800000, 0x40000000]⟩,
       ⟨[0, 0], [0, 0], [0, 0], [0, 0]⟩] }

theorem witness_DryOnlyOutputIsDelayedInput :
    dryOnly.wf = true ∧ 0 < dryOnly.cfg.c ∧ 1 < dryOnly.cfg.n ∧ (∃ t, exec (.procBlock 0 dryOnly.cfg.n) dryOnly = .next t)
      ∧ F32.isZero (elem dryOnly.frame.mix 0) = true ∧ F32.isZero (elem dryOnly.frame.mix 1) = true
      ∧ F32.isFinite (elem (olaInv dryOnly.cfg (channelAt dryOnly 0).tail
          (cycleCoeffs dryOnly.cfg dryOnly.frame dryOnly.draws (channelAt dryOnly 0))) 1) = true
      ∧ F32.isNaN (elem (channelAt dryOnly 0).dry 1) = false :=
  ⟨by decide +kernel, by decide +kernel, by decide +kernel, ⟨_, rfl⟩, by decide +kernel, by decide +kernel, by decide +kernel,
    by decide +kernel⟩

/-- The contract's limits: controls of 1 and `-0.0`, a mix of 0 and of 1, a drive of 0 and the largest gain. -/
def silentAtLimits : State :=
  { silent with
    frame :=
      { drive := [0, 0x7F7FFFFF], crunch := [0, 0x3F800000], crush := [0, 0x80000000], mix := [0, 0x3F800000],
        gain := [0x7F7FFFFF, 0] } }

theorem witness_ZeroInputStaysSilent :
    silentAtLimits.wf = true ∧ 1 < silentAtLimits.cfg.c ∧ AllZero (channelAt silentAtLimits 1).io
      ∧ AllZero (channelAt silentAtLimits 1).hist ∧ AllZero (channelAt silentAtLimits 1).tail
      ∧ AllZero (channelAt silentAtLimits 1).dry
      ∧ frameInContract silentAtLimits.cfg silentAtLimits.frame = true ∧ AllFinite silentAtLimits.cfg.w :=
  ⟨by decide +kernel, by decide +kernel, allZero_of_all (by decide +kernel), allZero_of_all (by decide +kernel),
    allZero_of_all (by decide +kernel), allZero_of_all (by decide +kernel), by decide +kernel,
    allFinite_of_all (by decide +kernel)⟩

theorem witness_CycleComposedFromPieces :
    mono.wf = true ∧ 0 < mono.cfg.c ∧ [F32.one, 0].length = mono.cfg.n
      ∧ ∀ i < mono.cfg.n, elem [F32.one, 0] i
          = F32.mul mono.cfg.nanOut (elem (channelAt mono 0).io i) (elem mono.frame.drive i) := by decide +kernel

theorem witness_NopOnlyClearsCode :
    (0x00000100#32 : Word).toNat % 256 = 0 ∧ (0x00000100#32 : Word).toNat / 256 ≠ 0 := by decide

theorem witness_ResetRestoresConstructionState : silent.wf = true ∧ 1 < silent.cfg.c := by decide +kernel

theorem witness_CommandsWriteOnlyTheirState : ∃ t, exec (.imdct 0 2) silent = .next t := ⟨_, rfl⟩

/-- An address of `VEC` under a command that leaves it, of `IO[0]` and of `IO[1]` under one that writes the other. -/
theorem witness_CommandsKeepUnwrittenWords :
    (∃ t, exec (.imdct 0 2) silent = .next t) ∧ (0x6000#16 : WordAddr) ≠ 0x0002#16
      ∧ writesVec (.imdct 0 2) = false ∧ writesIo 1 (.imdct 0 2) = false ∧ writesIo 0 (.imdct 1 2) = false
      ∧ (0x6000#16 : WordAddr).toNat / 4096 = 6 ∧ (0x8000#16 : WordAddr).toNat / 4096 = 8
      ∧ (0x9000#16 : WordAddr).toNat / 4096 = 9 := ⟨⟨_, rfl⟩, by decide⟩

theorem witness_ConfigurationNeverChanges : ∃ t, step (silent.withFetchWord 32 0x8) = .next t := ⟨_, rfl⟩

theorem witness_StepKeepsWellFormed :
    (silent.withFetchWord 32 0x00020209).wf = true ∧ ∃ t, step (silent.withFetchWord 32 0x00020209) = .next t :=
  ⟨by decide +kernel, _, rfl⟩

theorem witness_BlockResetWellFormed : (Config.standard 2 1 sampleCurves).wf = true ∧ (Config.standard 64 2 sampleCurves).wf = true := by
  decide +kernel

theorem witness_BlockResetValues : 0 < Config.reference.c ∧ 1 < Config.reference.c := by decide +kernel

end Sys2Proof.Tests
end

section
/-! PROOFS. What every step keeps, and the step at a pending `CMD` write. -/

namespace Sys2Proof.Machine

/-! ### The kinds of change a step is made of -/

/-- `P` is kept by the parts of a step: taking the access off the port, answering a read, storing a word, reporting an
illegal word and running a command. -/
structure KeptByParts (P : State → Prop) : Prop where
  take : ∀ {s}, P s → ∀ rest, P { s with pending := rest }
  read : ∀ {s}, P s → ∀ a, P (hostRead a s)
  reply : ∀ {s}, P s → ∀ a, P (adapterReply a s)
  store : ∀ {s}, P s → ∀ a v, P (portStore a v s)
  raise : ∀ {s}, P s → ∀ e, P (raise e s)
  exec : ∀ {s}, P s → ∀ {i t}, exec i s = .next t → P t

theorem KeptByParts.runCommand {P : State → Prop} (hP : KeptByParts P) {w : Word} {s t : State} (hs : P s)
    (h : runCommand w s = .next t) : P t := by
  unfold Machine.runCommand at h
  split at h
  · exact hP.exec hs h
  · cases h; exact hP.raise hs _

theorem KeptByParts.perform {P : State → Prop} (hP : KeptByParts P) {op : PortOp} {s t : State} (hs : P s)
    (h : perform op s = .next t) : P t := by
  cases op with
  | read a => cases h; exact hP.read hs a
  | write a v =>
    simp only [Machine.perform, hostWrite] at h
    split at h
    · exact hP.runCommand (hP.store hs _ _) h
    · cases h; exact hP.store hs _ _

/-- What the parts of a step keep, every step keeps. -/
theorem KeptByParts.step {P : State → Prop} (hP : KeptByParts P) {s t : State} (hs : P s)
    (h : step s = .next t) : P t := by
  cases hp : s.pending with
  | nil =>
    simp only [Machine.step, takeAccess_eq_none.mpr hp] at h
    cases h; exact hs
  | cons x rest =>
    simp only [Machine.step, takeAccess_cons hp] at h
    have hs' := hP.take hs rest
    rcases performAccess_cases x { s with pending := rest } with ⟨op, e⟩ | ⟨a, e⟩ | ⟨e, -⟩ <;> rw [e] at h
    · exact hP.perform hs' h
    · cases h; exact hP.reply hs' a
    · cases h

/-- No command changes the build parameters (00_scope.md R9). -/
theorem exec_cfg {i : Instr} {s t : State} (h : exec i s = .next t) : t.cfg = s.cfg := by
  obtain ⟨t', ht, hend⟩ := exec_cases i s
  obtain rfl : t' = t := by rw [ht] at h; cases h; rfl
  rcases hend with ⟨e, -⟩ | ⟨e, -⟩ <;> rw [e]

theorem keptByParts_cfg (cfg : Config) : KeptByParts fun s => s.cfg = cfg where
  take h _ := h
  read h _ := h
  reply h _ := h
  store h a v := (portStore_cfg a v _).trans h
  raise h _ := h
  exec h _ _ he := (exec_cfg he).trans h

/-- Settles O56: no part of a step touches the configuration. -/
theorem configurationNeverChanges : Obligations.ConfigurationNeverChanges :=
  fun s _ h => (keptByParts_cfg s.cfg).step rfl h

/-! ### The shape of the state under the commands -/

/-- A new vector of `M` elements keeps the shape. -/
theorem State.wf_setVec {s : State} (h : s.wf = true) {v : List Word} (hv : v.length = s.cfg.m) :
    ({ s with vec := v } : State).wf = true := by
  have := State.wf_vec h
  simp only [State.wf, hv, this] at h ⊢
  exact h

/-- A checked command keeps the shape when its body does where the check passes. -/
theorem checked_wf {o : Option StatusCode} {body : State → State} {s : State} (h : s.wf = true)
    (hb : o = none → (body s).wf = true) : (checked o body s).wf = true := by
  cases o with
  | some e => exact h
  | none => exact hb rfl

theorem mdctBody_wf {s : State} (h : s.wf = true) {c : Nat} (hc : c < s.cfg.c) : (mdctBody c s).wf = true := by
  have hk := Channel.wf_lengths (channelAt_wf h hc)
  exact setChannel_wf (State.wf_setVec h (length_fwdM _ _)) c (by simp [Channel.wf, hk])

theorem imdctBody_wf {s : State} (h : s.wf = true) {c : Nat} (hc : c < s.cfg.c) : (imdctBody c s).wf = true := by
  have hk := Channel.wf_lengths (channelAt_wf h hc)
  exact setChannel_wf h c (by simp [Channel.wf, hk, State.wf_window h])

theorem channelCycle_wf {s : State} (h : s.wf = true) {c : Nat} (hc : c < s.cfg.c) : (channelCycle c s).wf = true :=
  setChannel_wf (s := { s with draws := _ }) h c (cycle_wf h _ (channelAt_wf h hc))

/-- Cycles on any existing channels, one after the other. -/
theorem foldl_channelCycle_wf (l : List Nat) {s : State} (h : s.wf = true) (hl : ∀ c ∈ l, c < s.cfg.c) :
    (l.foldl (fun t c => channelCycle c t) s).wf = true := by
  induction l generalizing s with
  | nil => exact h
  | cons c l ih => exact ih (channelCycle_wf h (hl c (by simp))) fun d hd => hl d (by simp [hd])

theorem allCycles_wf {s : State} (h : s.wf = true) : (allCycles s).wf = true :=
  foldl_channelCycle_wf _ h fun _ => List.mem_range.mp

/-- Clearing the Channel State of every channel keeps the shape (44_system.md R252). -/
theorem clearChannels_wf {s : State} (h : s.wf = true) :
    ({ s with channels := s.channels.map (clearChannel s.cfg) } : State).wf = true := by
  simp only [State.wf, Bool.and_eq_true, List.all_eq_true, List.length_map] at h ⊢
  refine ⟨h.1, fun k hk => ?_⟩
  obtain ⟨k', hk', rfl⟩ := List.mem_map.mp hk
  have hlen := Channel.wf_lengths (h.2 k' hk')
  simp [Channel.wf, clearChannel, hlen]

/-- Every command keeps the shape of the state. -/
theorem exec_wf {i : Instr} {s t : State} (h : exec i s = .next t) (hs : s.wf = true) : t.wf = true := by
  have hvec := State.wf_vec hs
  cases i with
  | nop => cases h; exact hs
  | dctFwd => cases h; exact State.wf_setVec hs (length_fwdM _ _)
  | dctInv => cases h; exact State.wf_setVec hs (length_invM _ _)
  | mdct c l => cases h; exact checked_wf hs fun hn => mdctBody_wf hs (blockError_eq_none.mp hn).1
  | imdct c l => cases h; exact checked_wf hs fun hn => imdctBody_wf hs (blockError_eq_none.mp hn).1
  | crunch => cases h; exact State.wf_setVec hs (by simpa using hvec)
  | crush => cases h; exact State.wf_setVec hs (by simpa using hvec)
  | distort => cases h; exact State.wf_setVec hs (by simpa using hvec)
  | procBlock c l => cases h; exact checked_wf hs fun hn => channelCycle_wf hs (blockError_eq_none.mp hn).1
  | procAll n l => cases h; exact checked_wf hs fun _ => allCycles_wf hs
  | reset => cases h; exact clearChannels_wf hs

theorem keptByParts_wf : KeptByParts fun s => s.wf = true where
  take h _ := h
  read h _ := h
  reply h _ := h
  store h a v := portStore_wf h a v
  raise h _ := h
  exec h _ _ he := exec_wf he h

/-- Settles O57: every part of a step keeps the shape, a store by `portStore_wf` and a command by `exec_wf`. -/
theorem stepKeepsWellFormed : Obligations.StepKeepsWellFormed :=
  fun _ _ hs h => keptByParts_wf.step hs h

/-! ### A pending command word -/

/-- A step at a pending write of a legal word to `CMD` (00_scope.md R18). -/
theorem step_of_pending_cmd {s : State} {w : Word} {i : Instr} {rest : List Access}
    (hp : s.pending = .port (.write cmdAddr w) :: rest) (hd : decode w = .ok i) :
    step s = exec i { s with pending := rest, cmd := w } := by
  have hperform := perform_write_cmd w { s with pending := rest }
  simp only [runCommand, hd] at hperform
  simp only [step, takeAccess_cons hp]
  exact hperform

theorem decode_of_decodeTableWord {w : Nat} {i : Instr} (h : decodeTableWord 32 w = some i) :
    decode (BitVec.ofNat 32 (w % 2 ^ 32)) = .ok i := by
  unfold decodeTableWord at h
  split at h
  · cases h; assumption
  · cases h

/-- Settles O6: the second clause is the first at the access `withFetchWord` puts in front. -/
theorem stepRunsDecodedCommand : Obligations.StepRunsDecodedCommand := by
  refine ⟨fun s w i rest hp hd => step_of_pending_cmd hp hd, fun s w i h => ?_⟩
  have hmod : BitVec.ofNat 32 (w % 2 ^ 32) = BitVec.ofNat 32 w :=
    BitVec.eq_of_toNat_eq (by simp)
  have hstep := step_of_pending_cmd (s := s.withFetchWord 32 w) rfl (decode_of_decodeTableWord h)
  rw [hstep, hmod]
  rfl

end Sys2Proof.Machine
end

section
/-! PROOFS. Binary32 arithmetic (00_scope.md R10, R14) over the rationals: correct rounding, special values, and
`round_half_away`. -/

namespace Sys2Proof

/-! ### The value of a word -/

theorem F32.toRat_eq_zero (w : Word) : F32.toRat w = 0 ↔ F32.isZero w = true := by
  simp [F32.toRat, F32.units_eq_zero, F32.isZero]

/-- The magnitude of a value is its code's, in units of `2^-149`. -/
theorem F32.abs_toRat (w : Word) : |F32.toRat w| = F32.codeUnits (F32.mag w) / 2 ^ 149 := by
  have h : |(F32.units w : ℚ)| = F32.codeUnits (F32.mag w) := by exact_mod_cast F32.abs_units w
  rw [F32.toRat, abs_div, h, abs_of_pos (by positivity : (0 : ℚ) < 2 ^ 149)]

theorem F32.toRat_lt_zero_iff (w : Word) : F32.toRat w < 0 ↔ F32.units w < 0 := by
  rw [F32.toRat, div_lt_iff₀ (by positivity), zero_mul, Int.cast_lt_zero]

/-- A nonzero word has its value's sign. -/
theorem F32.sign_eq_decide_toRat {w : Word} (h : F32.toRat w ≠ 0) : F32.sign w = decide (F32.toRat w < 0) := by
  have hu : F32.units w ≠ 0 := fun hu => h (by simp [F32.toRat, hu])
  simp only [F32.sign_units w hu, F32.toRat_lt_zero_iff]

/-- The exclusive or of the signs is the sign of the product. -/
theorem F32.sign_bne_sign {a b : Word} (h : F32.toRat a * F32.toRat b ≠ 0) :
    (F32.sign a != F32.sign b) = decide (F32.toRat a * F32.toRat b < 0) := by
  obtain ⟨ha, hb⟩ := mul_ne_zero_iff.mp h
  rw [F32.sign_eq_decide_toRat ha, F32.sign_eq_decide_toRat hb, Bool.eq_iff_iff]
  simp only [bne_iff_ne, ne_eq, decide_eq_decide, decide_eq_true_eq, mul_neg_iff]
  rcases lt_or_gt_of_ne ha with ha | ha <;> rcases lt_or_gt_of_ne hb with hb | hb <;>
    simp [ha, hb, ha.not_gt, hb.not_gt]

/-- A quotient rounded by `F32.roundMag`, with the sign of the number it stands for, is `rnd32` of that number. -/
theorem isRnd32_pack_roundMag {r : ℚ} (hr : r ≠ 0) {num den : Nat} (hden : 0 < den)
    (habs : |r| * 2 ^ 149 = num / den) :
    IsRnd32 (r : ℝ) (F32.pack (decide (r < 0)) (F32.roundMag num den)) := by
  refine isRnd32_of_roundsTo (by exact_mod_cast hr) ?_ fun _ => by simp
  have habsR := congrArg (Rat.cast : ℚ → ℝ) habs
  push_cast at habsR
  rw [habsR]
  exact F32.roundMag_roundsTo num den hden

/-! ### Correct rounding of the operations -/

/-- Settles O24, from the product in units of `2^-149`. -/
theorem productCorrectlyRounded : Obligations.ProductCorrectlyRounded := by
  intro nan a b ha hb
  rw [F32.mul_units ha hb]
  refine ⟨fun h => ?_, fun h => ?_, F32.sign_pack (F32.roundMag_lt _ _)⟩
  · rw [F32.sign_bne_sign h]
    refine isRnd32_pack_roundMag h (by positivity) ?_
    rw [abs_mul, F32.abs_toRat, F32.abs_toRat, Int.natAbs_mul, F32.natAbs_units, F32.natAbs_units]
    push_cast
    ring
  · have hz : F32.units a * F32.units b = 0 := by simpa [F32.toRat] using h
    simp [hz, F32.roundMag_zero, F32.isZero, F32.mag_pack]

/-- The sum of finite values, rounded, with IEEE 754's sign of an exact zero. -/
theorem F32.add_correctlyRounded (nan : Word) {a b : Word} (ha : F32.isFinite a = true) (hb : F32.isFinite b = true) :
    (F32.toRat a + F32.toRat b ≠ 0 → IsRnd32 ((F32.toRat a + F32.toRat b : ℚ) : ℝ) (F32.add nan a b))
      ∧ (F32.toRat a + F32.toRat b = 0 →
          F32.add nan a b = if F32.sign a && F32.sign b then F32.negZero else F32.posZero) := by
  have hsum : F32.toRat a + F32.toRat b = (F32.units a + F32.units b : ℤ) / 2 ^ 149 := by
    simp only [F32.toRat]; push_cast; ring
  rw [F32.add_units ha hb, hsum]
  generalize F32.units a + F32.units b = z
  have hz : ((z : ℚ) / 2 ^ 149 = 0) ↔ z = 0 := by simp
  have hneg : ((z : ℚ) / 2 ^ 149 < 0) ↔ z < 0 := by
    rw [div_lt_iff₀ (by positivity), zero_mul, Int.cast_lt_zero]
  refine ⟨fun h => ?_, fun h => if_pos (hz.mp h)⟩
  rw [if_neg (mt hz.mpr h), ← decide_eq_decide.mpr hneg]
  refine isRnd32_pack_roundMag h one_pos ?_
  rw [abs_div, abs_of_pos (by positivity : (0 : ℚ) < 2 ^ 149), Nat.cast_natAbs]
  push_cast
  field_simp

/-- Settles O25: a difference is the sum with the second operand's sign inverted. -/
theorem sumCorrectlyRounded : Obligations.SumCorrectlyRounded := by
  intro nan a b ha hb
  obtain ⟨hadd, hadd0⟩ := F32.add_correctlyRounded nan ha hb
  obtain ⟨hsub, hsub0⟩ := F32.add_correctlyRounded nan ha (b := F32.neg b) (by simpa using hb)
  rw [F32.toRat_neg, ← sub_eq_add_neg] at hsub hsub0
  rw [F32.sign_neg] at hsub0
  exact ⟨hadd, hadd0, hsub, hsub0⟩

/-- Settles O26, from the quotient in units of `2^-149`. -/
theorem quotientCorrectlyRounded : Obligations.QuotientCorrectlyRounded := by
  intro nan a b ha hb hb0
  have hb1 : F32.toRat b ≠ 0 := by simp [F32.toRat_eq_zero, hb0]
  have hpos : 0 < (F32.units b).natAbs := Int.natAbs_pos.mpr fun h => hb1 (by simp [F32.toRat, h])
  rw [F32.div_units ha hb hb0]
  refine ⟨fun h => ?_, fun h => ?_, F32.sign_pack (F32.roundMag_lt _ _)⟩
  · have hmul : F32.toRat a * F32.toRat b ≠ 0 := mul_ne_zero (div_ne_zero_iff.mp h).1 hb1
    have hsign : F32.toRat a * F32.toRat b < 0 ↔ F32.toRat a / F32.toRat b < 0 := by rw [mul_neg_iff, div_neg_iff]
    rw [F32.sign_bne_sign hmul, decide_eq_decide.mpr hsign]
    refine isRnd32_pack_roundMag h hpos ?_
    rw [abs_div, F32.abs_toRat, F32.abs_toRat, F32.natAbs_units, F32.natAbs_units,
      div_div_div_cancel_right₀ (by positivity), Nat.cast_mul, Nat.cast_pow, Nat.cast_two]
    ring
  · have hz : F32.units a = 0 := by
      have ha0 := (div_eq_zero_iff.mp h).resolve_right hb1
      simpa [F32.toRat] using ha0
    simp [hz, F32.roundMag_zero _ hpos, F32.isZero, F32.mag_pack]

/-! ### Infinities, zeros and NaNs -/

theorem F32.not_isNaN_of_isInf {w : Word} (h : F32.isInf w = true) : F32.isNaN w = false := by
  simp_all [F32.isInf, F32.isNaN]

theorem F32.not_isZero_of_isInf {w : Word} (h : F32.isInf w = true) : F32.isZero w = false := by
  simp_all [F32.isInf, F32.isZero, F32.infMag]

theorem F32.isFinite_of_isZero {w : Word} (h : F32.isZero w = true) : F32.isFinite w = true := by
  simp_all [F32.isZero, F32.isFinite, F32.infMag]

@[simp] theorem F32.isInf_neg (w : Word) : F32.isInf (F32.neg w) = F32.isInf w := by simp [F32.isInf]

/-- Infinities of one sign add to themselves, of opposite signs to a NaN. -/
theorem F32.add_of_isInf {nan a b : Word} (ha : F32.isInf a = true) (hb : F32.isInf b = true) :
    F32.add nan a b = if F32.sign a = F32.sign b then a else nan := by
  by_cases hs : F32.sign a = F32.sign b <;>
    simp [F32.add, F32.not_isNaN_of_isInf ha, F32.not_isNaN_of_isInf hb, ha, hb, hs]

theorem F32.add_of_isInf_left {nan a b : Word} (ha : F32.isInf a = true) (hb : F32.isFinite b = true) :
    F32.add nan a b = a := by
  simp [F32.add, F32.not_isNaN_of_isInf ha, F32.not_isNaN_of_isFinite hb, F32.not_isInf_of_isFinite hb, ha]

theorem F32.add_of_isInf_right {nan a b : Word} (ha : F32.isFinite a = true) (hb : F32.isInf b = true) :
    F32.add nan a b = b := by
  simp [F32.add, F32.not_isNaN_of_isInf hb, F32.not_isNaN_of_isFinite ha, F32.not_isInf_of_isFinite ha, hb]

/-- An infinity times a value that is not NaN. -/
theorem F32.mul_of_isInf_left {nan a b : Word} (ha : F32.isInf a = true) (hb : F32.isNaN b = false) :
    F32.mul nan a b = if F32.isZero b then nan else F32.pack (F32.sign a != F32.sign b) F32.infMag := by
  simp [F32.mul, F32.not_isNaN_of_isInf ha, F32.not_isZero_of_isInf ha, ha, hb]

theorem F32.mul_comm (nan a b : Word) : F32.mul nan a b = F32.mul nan b a := by
  simp only [F32.mul, Bool.or_comm, bne_comm, Nat.mul_comm]

/-- An infinity divided by a value that is not NaN. -/
theorem F32.div_of_isInf_left {nan a b : Word} (ha : F32.isInf a = true) (hb : F32.isNaN b = false) :
    F32.div nan a b = if F32.isInf b then nan else F32.pack (F32.sign a != F32.sign b) F32.infMag := by
  simp [F32.div, F32.not_isNaN_of_isInf ha, ha, hb]

theorem F32.div_of_isInf_right {nan a b : Word} (ha : F32.isFinite a = true) (hb : F32.isInf b = true) :
    F32.div nan a b = F32.pack (F32.sign a != F32.sign b) 0 := by
  simp [F32.div, F32.not_isNaN_of_isInf hb, F32.not_isNaN_of_isFinite ha, F32.not_isInf_of_isFinite ha, hb]

theorem F32.div_of_isZero {nan a b : Word} (ha : F32.isFinite a = true) (hb : F32.isZero b = true) :
    F32.div nan a b = if F32.isZero a then nan else F32.pack (F32.sign a != F32.sign b) F32.infMag := by
  have hbf := F32.isFinite_of_isZero hb
  simp [F32.div, F32.not_isNaN_of_isFinite ha, F32.not_isInf_of_isFinite ha, F32.not_isNaN_of_isFinite hbf,
    F32.not_isInf_of_isFinite hbf, hb]

/-- A NaN operand gives `NAN_OUT` in every operation. -/
theorem F32.operations_of_isNaN {nan a b : Word} (h : F32.isNaN a = true ∨ F32.isNaN b = true) :
    F32.add nan a b = nan ∧ F32.sub nan a b = nan ∧ F32.mul nan a b = nan ∧ F32.div nan a b = nan := by
  have hor : (F32.isNaN a || F32.isNaN b) = true := by simpa using h
  simp only [F32.sub, F32.add, F32.mul, F32.div, F32.isNaN_neg, hor, if_true, and_self]

/-- Settles O27: one lemma per operation and operand class; a difference is a sum. -/
theorem arithmeticSpecialValues : Obligations.ArithmeticSpecialValues := by
  intro nan a b
  refine ⟨F32.operations_of_isNaN, fun ha hb => ⟨F32.add_of_isInf ha hb, ?_, ?_, ?_⟩,
    fun ha hb => ⟨F32.add_of_isInf_left ha hb, F32.add_of_isInf_right hb ha, ?_, ?_, ?_, ?_, ?_, ?_⟩,
    F32.div_of_isZero⟩
  · rw [F32.sub, F32.add_of_isInf ha (by simpa using hb), F32.sign_neg]
    cases F32.sign a <;> cases F32.sign b <;> rfl
  · simp [F32.div_of_isInf_left ha (F32.not_isNaN_of_isInf hb), hb]
  · simp [F32.mul_of_isInf_left ha (F32.not_isNaN_of_isInf hb), F32.not_isZero_of_isInf hb]
  · exact F32.add_of_isInf_left ha (by simpa using hb)
  · exact F32.add_of_isInf_right hb (by simpa using ha)
  · exact F32.mul_of_isInf_left ha (F32.not_isNaN_of_isFinite hb)
  · exact (F32.mul_comm nan b a).trans (F32.mul_of_isInf_left ha (F32.not_isNaN_of_isFinite hb))
  · simp [F32.div_of_isInf_left ha (F32.not_isNaN_of_isFinite hb), F32.not_isInf_of_isFinite hb]
  · rw [F32.div_of_isInf_right hb ha, bne_comm]

/-! ### `round_half_away` -/

/-- Below the code of `2^23` are the finite values of smaller magnitude. -/
theorem F32.mag_lt_iff_abs_toRat_lt (t : Word) : F32.mag t < 0x4B000000 ↔ |F32.toRat t| < 2 ^ 23 := by
  have hcode : F32.codeUnits 0x4B000000 = 2 ^ 23 * 2 ^ 149 := by decide
  rw [F32.abs_toRat, div_lt_iff₀ (by positivity), ← F32.codeUnits_strictMono.lt_iff_lt, hcode]
  norm_cast

/-- The factor a sign bit stands for. -/
def F32.signFactor (neg : Bool) : ℤ := if neg then -1 else 1

@[simp] theorem F32.abs_signFactor (neg : Bool) : |(F32.signFactor neg : ℚ)| = 1 := by
  cases neg <;> simp [F32.signFactor]

/-- The value of a word is its magnitude under its sign. -/
theorem F32.toRat_eq_signFactor_mul (w : Word) :
    F32.toRat w = F32.signFactor (F32.sign w) * (F32.codeUnits (F32.mag w) / 2 ^ 149) := by
  rw [F32.toRat, F32.units, F32.signFactor]
  cases F32.sign w <;> simp [neg_div]

/-- The integer nearest `u / 2^149`, the larger of two equally near. -/
def F32.nearestInt (u : Nat) : Nat := (2 * u + 2 ^ 149) / 2 ^ 150

/-- A magnitude and its nearest integer differ by at most one half, and by one half only upwards. -/
theorem F32.nearestInt_spec (u : Nat) :
    |(u : ℚ) / 2 ^ 149 - F32.nearestInt u| ≤ 1 / 2
      ∧ (|(u : ℚ) / 2 ^ 149 - F32.nearestInt u| = 1 / 2 → (u : ℚ) / 2 ^ 149 < F32.nearestInt u) := by
  have hnat : F32.nearestInt u * 2 ^ 150 ≤ 2 * u + 2 ^ 149
      ∧ 2 * u + 2 ^ 149 < (F32.nearestInt u + 1) * 2 ^ 150 := by
    unfold F32.nearestInt; omega
  generalize F32.nearestInt u = k at hnat ⊢
  obtain ⟨hlo, hhi⟩ : (k : ℚ) * 2 ^ 150 ≤ 2 * u + 2 ^ 149 ∧ (2 : ℚ) * u + 2 ^ 149 < (k + 1) * 2 ^ 150 := by
    exact_mod_cast hnat
  have hu : (u : ℚ) / 2 ^ 149 * 2 ^ 149 = u := div_mul_cancel₀ _ (by positivity)
  generalize (u : ℚ) / 2 ^ 149 = x at hu ⊢
  have hge : -(1 / 2) ≤ x - k := by linarith
  have hlt : x - k < 1 / 2 := by linarith
  refine ⟨abs_le.mpr ⟨hge, hlt.le⟩, fun htie => ?_⟩
  rcases eq_or_eq_neg_of_abs_eq htie with h | h <;> linarith

/-- Below `2^23`, `round_half_away` is the nearest integer under the operand's sign. -/
theorem F32.roundHalfAway_of_mag_lt {t : Word} (h : F32.mag t < 0x4B000000) :
    F32.toRat (F32.roundHalfAway t)
        = F32.signFactor (F32.sign t) * (F32.nearestInt (F32.codeUnits (F32.mag t)) : ℚ)
      ∧ F32.sign (F32.roundHalfAway t) = F32.sign t := by
  have hu : F32.codeUnits (F32.mag t) < 2 ^ 23 * 2 ^ 149 := F32.codeUnits_strictMono h
  have hk : F32.nearestInt (F32.codeUnits (F32.mag t)) ≤ 2 ^ 24 := by unfold F32.nearestInt; omega
  have hdef : F32.roundHalfAway t = F32.pack (F32.sign t)
      (F32.roundMag (F32.nearestInt (F32.codeUnits (F32.mag t)) * 2 ^ 149) 1) := if_pos h
  generalize F32.nearestInt (F32.codeUnits (F32.mag t)) = k at hk hdef ⊢
  -- the integer is representable, so packing it rounds nothing
  obtain ⟨c, hc, hfin⟩ := F32.exists_code_of_nat hk
  have hc31 : c < 2 ^ 31 := hfin.trans (by decide)
  rw [hdef, ← hc, F32.roundMag_codeUnits hfin.le, F32.toRat_eq_signFactor_mul, F32.sign_pack hc31,
    F32.mag_pack hc31, hc, Nat.cast_mul, Nat.cast_pow, Nat.cast_two, mul_div_cancel_right₀ _ (by positivity)]
  exact ⟨rfl, rfl⟩

/-- Settles O28: the integer is the nearest one to the magnitude, under the operand's sign. -/
theorem roundHalfAwayNearest : Obligations.RoundHalfAwayNearest := by
  intro t
  refine ⟨fun _ hlt => ?_, fun h => if_neg ?_⟩
  · obtain ⟨hval, hsign⟩ := F32.roundHalfAway_of_mag_lt ((F32.mag_lt_iff_abs_toRat_lt t).mpr hlt)
    obtain ⟨hle, htie⟩ := F32.nearestInt_spec (F32.codeUnits (F32.mag t))
    refine ⟨F32.signFactor (F32.sign t) * F32.nearestInt (F32.codeUnits (F32.mag t)), by simpa using hval, ?_, ?_,
      hsign⟩
    all_goals
      push_cast
      rw [F32.toRat_eq_signFactor_mul, ← mul_sub, abs_mul, F32.abs_signFactor, one_mul]
    · exact hle
    · simpa [abs_mul, abs_div] using htie
  · rcases h with h | h
    · rw [← Bool.not_eq_true, F32.isFinite_iff, F32.infMag] at h
      omega
    · rw [F32.mag_lt_iff_abs_toRat_lt]
      exact not_lt.mpr h

end Sys2Proof
end

section
/-! PROOFS. What a command writes and reads (10_state.md R34, R39, R49): the frame of every command, read off the two ways
it can end and off its own meaning. -/

namespace Sys2Proof.Machine

/-! ### The frame of a command -/

/-- The next state of a command ended in one of the two ways of `exec_cases`. -/
theorem exec_ends {i : Instr} {s t : State} (h : exec i s = .next t) : EndsWithError i s t ∨ Completes i s t := by
  obtain ⟨t', ht, hend⟩ := exec_cases i s
  obtain rfl : t' = t := by rw [ht] at h; cases h; rfl
  exact hend

/-- `t` differs from `s` at most in `STATUS`, `VEC`, the channels' arrays and the draw counter. -/
structure ChangesOnlyResults (s t : State) : Prop where
  cfg : t.cfg = s.cfg
  cmd : t.cmd = s.cmd
  crunchVal : t.crunchVal = s.crunchVal
  crushVal : t.crushVal = s.crushVal
  frame : t.frame = s.frame
  pending : t.pending = s.pending
  replies : t.replies = s.replies
  length_channels : t.channels.length = s.channels.length

/-- No command writes a register other than `STATUS`, the Parameter Frame or the host's side of the port. -/
theorem exec_changesOnlyResults {i : Instr} {s t : State} (h : exec i s = .next t) : ChangesOnlyResults s t := by
  rcases exec_ends h with ⟨ht, -⟩ | ⟨ht, hlen, -⟩
  · rw [ht]; exact ⟨rfl, rfl, rfl, rfl, rfl, rfl, rfl, rfl⟩
  · rw [ht]; exact ⟨rfl, rfl, rfl, rfl, rfl, rfl, rfl, hlen⟩

/-- Settles O22: an error sets `STICKY`, and a command that completes keeps it unless it is `RESET`. -/
theorem stickyRecordsErrors : Obligations.StickyRecordsErrors := by
  intro i s
  obtain ⟨t, ht, hend⟩ := exec_cases i s
  refine ⟨t, ht, ?_⟩
  rcases hend with ⟨heq, hcode, hi⟩ | ⟨heq, -, hsticky⟩
  · have hset : t.sticky = true := by rw [heq]
    simp [hset, hcode, hi]
  · have hcode : t.code = .normal := by rw [heq]
    simp [hsticky, hcode]

/-! ### The arrays a command writes -/

/-- The read/write table of 10_state.md R49 for one channel: `k'` keeps every array of `k` for which `i` has no W. -/
structure KeepsUnwritten (i : Instr) (c : Nat) (k k' : Channel) : Prop where
  io : writesIo c i = false → k'.io = k.io
  hist : writesHist c i = false → k'.hist = k.hist
  tail : writesTail c i = false → k'.tail = k.tail
  dry : writesDry c i = false → k'.dry = k.dry

theorem KeepsUnwritten.refl (i : Instr) (c : Nat) (k : Channel) : KeepsUnwritten i c k k :=
  ⟨fun _ => rfl, fun _ => rfl, fun _ => rfl, fun _ => rfl⟩

/-- Replacing one channel by one that keeps the table keeps it for every channel. -/
theorem KeepsUnwritten.setChannel {i : Instr} {ch : Nat} {k : Channel} {s : State}
    (h : KeepsUnwritten i ch (channelAt s ch) k) (c : Nat) :
    KeepsUnwritten i c (channelAt s c) (channelAt (Machine.setChannel ch k s) c) := by
  rw [channelAt_setChannel]
  split_ifs with hc
  · rw [hc.1]; exact h
  · exact .refl ..

/-- A checked command keeps the table when its body does: an error writes no channel. -/
theorem KeepsUnwritten.checked {i : Instr} {c : Nat} {body : State → State} {s : State}
    (h : KeepsUnwritten i c (channelAt s c) (channelAt (body s) c)) (o : Option StatusCode) :
    KeepsUnwritten i c (channelAt s c) (channelAt (Machine.checked o body s) c) := by
  cases o with
  | some e => exact .refl ..
  | none => exact h

/-- States whose lists of blocks agree have the same block in every channel. -/
theorem channelAt_io_congr {s s' : State} (h : s'.channels.map Channel.io = s.channels.map Channel.io) (c : Nat) :
    (channelAt s' c).io = (channelAt s c).io := by
  have hio (l : List Channel) : (l.getD c Channel.absent).io = (l.map Channel.io).getD c [] := (List.getD_map ..).symm
  simp only [channelAt, hio, h]

/-- Every command keeps the channel arrays for which R49's table has no W. -/
theorem exec_keepsUnwritten {i : Instr} {s t : State} (h : exec i s = .next t) (c : Nat) :
    KeepsUnwritten i c (channelAt s c) (channelAt t c) := by
  cases i with
  | mdct ch len =>
    cases h
    refine .checked (body := mdctBody ch) (s := s) (KeepsUnwritten.setChannel (s := { s with vec := _ }) ?_ c) _
    exact ⟨fun _ => rfl, by simp [writesHist], fun _ => rfl, fun _ => rfl⟩
  | imdct ch len =>
    cases h
    refine .checked (body := imdctBody ch) (s := s) (KeepsUnwritten.setChannel ?_ c) _
    exact ⟨by simp [writesIo], fun _ => rfl, by simp [writesTail], fun _ => rfl⟩
  | procBlock ch len =>
    cases h
    refine .checked (body := channelCycle ch) (s := s) (KeepsUnwritten.setChannel (s := { s with draws := _ }) ?_ c) _
    exact ⟨by simp [writesIo], by simp [writesHist], by simp [writesTail], by simp [writesDry]⟩
  | procAll count len => exact ⟨nofun, nofun, nofun, nofun⟩
  | reset =>
    cases h
    exact ⟨fun _ => channelAt_io_congr (by simp [clearChannel]) c, nofun, nofun, nofun⟩
  | _ => cases h; exact .refl ..

/-- A checked command keeps `VEC` when its body does. -/
theorem checked_vec {body : State → State} {s : State} (h : (body s).vec = s.vec) (o : Option StatusCode) :
    (checked o body s).vec = s.vec := by
  cases o with
  | some e => rfl
  | none => exact h

theorem allCycles_vec (s : State) : (allCycles s).vec = s.vec := by
  obtain ⟨l, d, -, h⟩ := allCycles_frame s
  rw [h]

/-- A command for which R49's table has no W at `VEC` keeps it. -/
theorem exec_vec {i : Instr} {s t : State} (h : exec i s = .next t) (hi : writesVec i = false) : t.vec = s.vec := by
  cases i with
  | nop | reset => cases h; rfl
  | imdct ch len | procBlock ch len => cases h; exact checked_vec rfl _
  | procAll count len => cases h; exact checked_vec (allCycles_vec s) _
  | dctFwd | dctInv | mdct | crunch | crush | distort => cases hi

/-- Settles O54: the registers and the frame by `exec_changesOnlyResults`, the arrays by R49's table. -/
theorem commandsWriteOnlyTheirState : Obligations.CommandsWriteOnlyTheirState := by
  intro i s t h
  obtain ⟨hcfg, hcmd, hcrunch, hcrush, hframe, hpending, hreplies, hlen⟩ := exec_changesOnlyResults h
  refine ⟨hcfg, hcmd, hcrunch, hcrush, hframe, hpending, hreplies, hlen, exec_vec h, fun c => ?_⟩
  obtain ⟨hio, hhist, htail, hdry⟩ := exec_keepsUnwritten h c
  exact ⟨hio, hhist, htail, hdry⟩

/-! ### The frame of a command, seen at the port -/

/-- The region of the address map a target lies in (20_memory.md R72). -/
def Target.region : Target → Nat
  | .frame .drive _ => 1
  | .frame .crunch _ => 2
  | .frame .crush _ => 3
  | .frame .mix _ => 4
  | .frame .gain _ => 5
  | .vec _ => 6
  | .io c _ => 8 + c
  | _ => 0

/-- A mapped address lies in the region of what it selects. -/
theorem region_locate {cfg : Config} {a : WordAddr} (h : locate cfg a ≠ .unmapped) :
    (locate cfg a).region = a.toNat / 4096 := by
  revert h
  unfold locate Target.within
  dsimp only
  split <;> (try split) <;> (try split) <;> simp_all [Target.region] <;> omega

/-- Settles O55, by what the address selects. -/
theorem commandsKeepUnwrittenWords : Obligations.CommandsKeepUnwrittenWords := by
  intro i s t a h hstatus hvec hio0 hio1
  have hres := exec_changesOnlyResults h
  have hin := locate_inside s.cfg a
  have hregion := region_locate (cfg := s.cfg) (a := a)
  simp only [portRead, hres.cfg]
  cases hl : locate s.cfg a with
  | cfg | unmapped => rfl
  | cmd => exact hres.cmd
  | crunchVal => exact hres.crunchVal
  | crushVal => exact hres.crushVal
  | status => exact absurd (locate_inj (b := 0x0002#16) hl (by simp [hl])) hstatus
  | frame k j => simp only [hres.frame]
  | vec j =>
    rw [hl] at hregion
    simp only [exec_vec h (hvec (hregion nofun).symm)]
  | io c j =>
    rw [hl] at hregion hin
    have hio : writesIo c i = false := by
      obtain ⟨-, rfl | ⟨rfl, -⟩⟩ := hin
      · exact hio0 (hregion nofun).symm
      · exact hio1 (hregion nofun).symm
    simp only [(exec_keepsUnwritten h c).io hio]

/-! ### The representative elements -/

/-- `s` with other lists in `CRUNCH` and `CRUSH`. -/
def withControls (cr cs : List Word) (s : State) : State :=
  { s with frame := { s.frame with crunch := cr, crush := cs } }

/-- The lists agree with the frame of `s` in element `REP`. -/
def AgreeAtRep (cr cs : List Word) (s : State) : Prop :=
  elem cr s.cfg.rep = elem s.frame.crunch s.cfg.rep ∧ elem cs s.cfg.rep = elem s.frame.crush s.cfg.rep

/-- A cycle reads of `CRUNCH` and `CRUSH` only the representative values (43_channel_pipeline.md R221). -/
theorem channelCycle_withControls {cr cs : List Word} {s : State} (h : AgreeAtRep cr cs s) (c : Nat) :
    channelCycle c (withControls cr cs s) = withControls cr cs (channelCycle c s) := by
  have hcr : (withControls cr cs s).frame.cr (withControls cr cs s).cfg = s.frame.cr s.cfg := h.1
  have hcs : (withControls cr cs s).frame.cs (withControls cr cs s).cfg = s.frame.cs s.cfg := h.2
  simp only [channelCycle, cycle, cycleCoeffs, hcr, hcs]
  rfl

/-- The same of one cycle on every channel. -/
theorem foldl_channelCycle_withControls (r : List Nat) {cr cs : List Word} {s : State} (h : AgreeAtRep cr cs s) :
    r.foldl (fun t c => channelCycle c t) (withControls cr cs s)
      = withControls cr cs (r.foldl (fun t c => channelCycle c t) s) := by
  induction r generalizing s with
  | nil => rfl
  | cons c r ih =>
    have hc : AgreeAtRep cr cs (channelCycle c s) := h
    rw [List.foldl_cons, List.foldl_cons, channelCycle_withControls h, ih hc]

theorem checked_withControls {cr cs : List Word} {body : State → State} {s : State}
    (h : body (withControls cr cs s) = withControls cr cs (body s)) (o : Option StatusCode) :
    checked o body (withControls cr cs s) = withControls cr cs (checked o body s) := by
  cases o with
  | some e => rfl
  | none => exact congrArg complete h

/-- Settles O47: only the cycles read `CRUNCH` and `CRUSH`, and they read element `REP`. -/
theorem onlyRepresentativeElementsRead : Obligations.OnlyRepresentativeElementsRead := by
  intro i s t cr cs hcr hcs h
  have hrep : AgreeAtRep cr cs s := ⟨hcr, hcs⟩
  change exec i (withControls cr cs s) = .next (withControls cr cs t)
  cases i with
  | mdct ch len | imdct ch len =>
    cases h
    refine congrArg Host.Outcome.next (checked_withControls ?_ _)
    rfl
  | procBlock ch len =>
    cases h
    exact congrArg Host.Outcome.next (checked_withControls (channelCycle_withControls hrep ch) _)
  | procAll count len =>
    cases h
    exact congrArg Host.Outcome.next (checked_withControls (foldl_channelCycle_withControls _ hrep) _)
  | _ => cases h; rfl

end Sys2Proof.Machine
end

section
/-! PROOFS. The registers at the host port (10_state.md R31 to R37), and that the port does not reach Channel State (R42). -/

namespace Sys2Proof.Machine

/-! ### What one port access can do -/

/-- A command word, legal or not, gives a next state (60_exceptions.md R280). -/
theorem runCommand_completes (w : Word) (s : State) : ∃ t, runCommand w s = .next t := by
  cases hd : decode w with
  | error e => exact ⟨raise .errIllegalCmd s, by simp only [runCommand, hd]⟩
  | ok i =>
    obtain ⟨t, ht, -⟩ := exec_cases i s
    exact ⟨t, by simp only [runCommand, hd, ht]⟩

/-- A command word, legal or not, has the frame of a command. -/
theorem runCommand_changesOnlyResults {w : Word} {s t : State} (h : runCommand w s = .next t) :
    ChangesOnlyResults s t := by
  unfold runCommand at h
  split at h
  · exact exec_changesOnlyResults h
  · cases h; exact ⟨rfl, rfl, rfl, rfl, rfl, rfl, rfl, rfl⟩

/-- A write to any address but `CMD` is a store. -/
theorem perform_write_of_ne {a : WordAddr} (h : a ≠ cmdAddr) (v : Word) (s : State) :
    perform (.write a v) s = .next (portStore a v s) := if_neg h

/-- All a port access can do: answer a read, store a word, or run the word written to `CMD`. -/
theorem perform_cases {op : PortOp} {s t : State} (h : perform op s = .next t) :
    (∃ a, op = .read a ∧ t = hostRead a s)
      ∨ (∃ a v, op = .write a v ∧ a ≠ cmdAddr ∧ t = portStore a v s)
      ∨ (∃ w, op = .write cmdAddr w ∧ runCommand w { s with cmd := w } = .next t) := by
  cases op with
  | read a => cases h; exact .inl ⟨a, rfl, rfl⟩
  | write a v =>
    by_cases ha : a = cmdAddr
    · subst ha
      exact .inr (.inr ⟨v, rfl, h⟩)
    · rw [perform_write_of_ne ha] at h
      cases h
      exact .inr (.inl ⟨a, v, rfl, ha, rfl⟩)

/-- A store changes `CMD`, `CRUNCH_VAL` and `CRUSH_VAL` only at the register's own address (20_memory.md R72). -/
theorem portStore_registers (a : WordAddr) (v : Word) (s : State) :
    (a ≠ cmdAddr → (portStore a v s).cmd = s.cmd)
      ∧ (a ≠ 0x0003#16 → (portStore a v s).crunchVal = s.crunchVal)
      ∧ (a ≠ 0x0004#16 → (portStore a v s).crushVal = s.crushVal) := by
  cases hl : locate s.cfg a with
  | cmd =>
    simp only [portStore, hl]
    exact ⟨fun ha => absurd (locate_eq_cmd.mp hl) ha, fun _ => trivial, fun _ => trivial⟩
  | crunchVal =>
    simp only [portStore, hl]
    exact ⟨fun _ => trivial, fun ha => absurd (locate_inj hl (by simp [hl])) ha, fun _ => trivial⟩
  | crushVal =>
    simp only [portStore, hl]
    exact ⟨fun _ => trivial, fun _ => trivial, fun ha => absurd (locate_inj hl (by simp [hl])) ha⟩
  | _ => simp [portStore, hl, writeStatus_eq]

/-! ### `CRUNCH_VAL`, `CRUSH_VAL` and `CMD` -/

/-- Settles O11: a store reaches a control register at its own address only, and no command writes one. -/
theorem controlRegistersHoldLastWrite : Obligations.ControlRegistersHoldLastWrite := by
  refine ⟨fun s v => ⟨rfl, rfl, rfl, rfl⟩, fun op s t h => ?_⟩
  rcases perform_cases h with ⟨a, rfl, rfl⟩ | ⟨a, v, rfl, -, rfl⟩ | ⟨w, rfl, hrun⟩
  · exact ⟨fun _ => rfl, fun _ => rfl⟩
  · obtain ⟨-, hcrunch, hcrush⟩ := portStore_registers a v s
    exact ⟨fun hop => hcrunch fun ha => hop v (by rw [ha]), fun hop => hcrush fun ha => hop v (by rw [ha])⟩
  · have hres := runCommand_changesOnlyResults hrun
    exact ⟨fun _ => hres.crunchVal, fun _ => hres.crushVal⟩

/-- Settles O16: a write of `CMD` is `runCommand` in the state that holds the word, and no other access stores there. -/
theorem commandRegisterStoresThenRuns : Obligations.CommandRegisterStoresThenRuns := by
  refine ⟨fun s w => ⟨fun i hi => ?_, ?_⟩, fun s => rfl, fun op s t hop h => ?_, fun cfg => rfl⟩
  · rw [perform_write_cmd]
    simp only [runCommand, hi]
  · obtain ⟨t, ht⟩ := runCommand_completes w { s with cmd := w }
    exact ⟨t, ht, (runCommand_changesOnlyResults ht).cmd⟩
  · rcases perform_cases h with ⟨a, rfl, rfl⟩ | ⟨a, v, rfl, ha, rfl⟩ | ⟨w, rfl, -⟩
    · rfl
    · exact (portStore_registers a v s).1 ha
    · exact absurd rfl (hop w)

/-! ### `CFG` and `STATUS` -/

/-- The number `CFG` reads when `N` and `C` fit their fields (10_state.md R31). -/
theorem toNat_cfgWord {cfg : Config} (hn : cfg.n < 65536) (hc : cfg.c < 16) :
    (cfgWord cfg).toNat = cfg.c * 65536 + cfg.n := by
  rw [cfgWord, BitVec.toNat_ofNat]
  omega

/-- `N` and `C` of a legal configuration fit the fields of `CFG` (00_scope.md R8). -/
theorem Config.wf_bounds {cfg : Config} (h : cfg.wf = true) : cfg.n < 65536 ∧ cfg.c < 16 := by
  obtain ⟨hn, hc, -⟩ := Config.wf_parts h
  simp only [List.mem_cons, List.not_mem_nil, or_false] at hn
  omega

/-- Settles O13: the fields of the number `C * 2^16 + N`. -/
theorem configRegisterReadsParameters : Obligations.ConfigRegisterReadsParameters := by
  refine ⟨fun s v h => ?_, rfl⟩
  obtain ⟨hn, hc⟩ := Config.wf_bounds (State.wf_cfg h)
  have hword : (portRead s 0x0000#16).toNat = s.cfg.c * 65536 + s.cfg.n := toNat_cfgWord hn hc
  refine ⟨?_, ?_, ?_, rfl⟩
  · rw [BitVec.extractLsb'_toNat, hword, Nat.shiftRight_zero]
    omega
  · rw [BitVec.extractLsb'_toNat, hword, Nat.shiftRight_eq_div_pow]
    omega
  · apply BitVec.eq_of_toNat_eq
    rw [BitVec.extractLsb'_toNat, hword, Nat.shiftRight_eq_div_pow]
    change _ = 0
    omega

/-- Settles O14: each of the twelve words `STATUS` can read has its fields. -/
theorem statusRegisterFields : Obligations.StatusRegisterFields := by
  intro s
  have hword : portRead s 0x0002#16 = BitVec.ofNat 32 ((if s.sticky then 2 ^ 8 else 0) + s.code.toNat) := rfl
  rw [hword]
  generalize s.sticky = sticky
  cases s.code <;> cases sticky <;> decide

/-- Settles O15: `writeStatus_eq` for the write; `RESET` and block reset give `STICKY` as a constant. -/
theorem statusWriteOneClearsSticky : Obligations.StatusWriteOneClearsSticky := by
  refine ⟨fun s v => ?_, fun s t h => ?_, fun cfg => rfl⟩
  · exact congrArg Host.Outcome.next (writeStatus_eq v s)
  · cases h; rfl

/-! ### Channel State behind the port -/

/-- A read depends on the channels through their blocks only (20_memory.md R71). -/
theorem portRead_withChannels {s : State} {l : List Channel} (h : l.map Channel.io = s.channels.map Channel.io)
    (a : WordAddr) : portRead { s with channels := l } a = portRead s a := by
  have hio (c : Nat) : (channelAt { s with channels := l } c).io = (channelAt s c).io := channelAt_io_congr h c
  simp only [portRead]
  cases locate s.cfg a with
  | io c j => simp only [hio]
  | _ => rfl

/-- Settles O19: a store keeps Channel State by `portStore_frame`, and no read looks at it. -/
theorem channelStateHiddenFromPort : Obligations.ChannelStateHiddenFromPort := by
  refine ⟨fun s t op hop h c => ?_, fun s l a h => portRead_withChannels h a⟩
  rcases perform_cases h with ⟨a, rfl, rfl⟩ | ⟨a, v, rfl, -, rfl⟩ | ⟨w, rfl, -⟩
  · rfl
  · obtain ⟨-, -, -, -, -, hhidden⟩ := portStore_frame a v s
    exact hhidden c
  · exact absurd rfl (hop w)

end Sys2Proof.Machine
end

section
/-! PROOFS. The state after block reset (10_state.md R51, 70_reset_and_hazards.md R290). -/

namespace Sys2Proof.Machine

/-- A build with R8's defaults is legal when `N`, `C` and the curves are. -/
theorem Config.standard_wf {n c : Nat} {curves : Curves} (hn : n ∈ [2, 4, 8, 16, 32, 64, 128, 256, 512, 1024, 2048])
    (hc : c = 1 ∨ c = 2) (hcurves : curvesConform curves = true) : (Config.standard n c curves).wf = true := by
  have hrep : n / 2 < n := by
    simp only [List.mem_cons, List.not_mem_nil, or_false] at hn
    omega
  have hdefaults : F32.le F32.posZero 0x3F59999A#32 = true ∧ F32.le 0x3F59999A#32 F32.one = true
      ∧ F32.isQuietNaN 0x7FC00000#32 = true := by decide
  simp only [Config.wf, Config.standard, Config.m, Window.wDoc, TransformKind.keepsZeros, Bool.and_eq_true,
    Bool.or_eq_true, beq_iff_eq, decide_eq_true_eq, List.length_map, List.length_range,
    hn, hc, hrep, hdefaults, hcurves, and_self]

/-- Every array of a channel has `N` elements after block reset. -/
theorem Channel.reset_wf (cfg : Config) (c : Nat) : Channel.wf cfg (Channel.reset cfg c) = true := by
  simp [Channel.wf, Channel.reset]

/-- Block reset gives every build its shape. -/
theorem State.resetOf_wf {cfg : Config} (h : cfg.wf = true) : (State.resetOf cfg).wf = true := by
  simp [State.wf, State.resetOf, Frame.wf, h, Channel.reset_wf]

/-- Settles O58: the default build is legal, and block reset gives every legal build its shape. -/
theorem blockResetWellFormed : Obligations.BlockResetWellFormed :=
  ⟨State.resetOf_wf (Config.standard_wf (by decide) (.inr rfl) curvesConform_openCurves), fun _ => State.resetOf_wf⟩

theorem channelAt_resetOf {cfg : Config} {c : Nat} (h : c < cfg.c) :
    channelAt (State.resetOf cfg) c = Channel.reset cfg c := by
  simp [channelAt, State.resetOf, h]

/-- Settles O59: the registers are constants, and every existing channel is `Channel.reset`. -/
theorem blockResetValues : Obligations.BlockResetValues := by
  intro cfg c hc
  rw [channelAt_resetOf hc]
  exact ⟨rfl, rfl, rfl, rfl, rfl, rfl⟩

end Sys2Proof.Machine
end

section
/-! PROOFS. The address map of the host port, the byte adapter and the order of the host's accesses (20_memory.md). -/

namespace Sys2Proof.Machine

/-! ### The next access -/

/-- Settles O7: `takeAccess_cons`, and a port access is an arm of `performAccess`. -/
theorem stepPerformsNextAccess : Obligations.StepPerformsNextAccess := by
  refine ⟨fun s x rest h => ?_, fun s op => rfl⟩
  simp only [step, takeAccess_cons h]

/-! ### Unmapped addresses, pure reads and repeated writes -/

/-- An unmapped address reads 0 (20_memory.md R73). -/
theorem portRead_unmapped {s : State} {a : WordAddr} (h : locate s.cfg a = .unmapped) : portRead s a = 0#32 := by
  simp only [portRead, h]

/-- An unmapped address ignores a write (20_memory.md R73). -/
theorem portStore_unmapped {s : State} {a : WordAddr} (h : locate s.cfg a = .unmapped) (v : Word) :
    portStore a v s = s := by
  simp only [portStore, h]

/-- Settles O12: such an address selects nothing, so it is not that of `CMD` and the write is a store to nothing. -/
theorem unmappedReadsZeroIgnoresWrites : Obligations.UnmappedReadsZeroIgnoresWrites := by
  intro s a v harray h5
  have hl : locate s.cfg a = .unmapped := (locate_eq_unmapped s.cfg a).mpr ⟨harray, h5⟩
  have hcmd : a ≠ cmdAddr := by
    rintro rfl
    cases hl
  constructor
  · rw [← portRead_unmapped hl]
    rfl
  · rw [perform_write_of_ne hcmd, portStore_unmapped hl]

/-- Settles O17: a read is `hostRead`, and outside `CMD` a write is a store, which `portStore_portStore` repeats. -/
theorem readsArePureWritesIdempotent : Obligations.ReadsArePureWritesIdempotent := by
  refine ⟨fun s a => rfl, fun s t a v ha h => ?_⟩
  rw [perform_write_of_ne ha] at h ⊢
  cases h
  rw [portStore_portStore]

/-! ### The byte adapter -/

/-- The lanes of `v` written at byte address `4·a` are a port write of `v` at word `a` (20_memory.md R75). -/
theorem performAccess_adapterWrite_toLanes (a : WordAddr) (v : Word) (s : State) :
    performAccess (.adapterWrite (BitVec.ofNat 18 (4 * a.toNat)) (toLanes v)) s = perform (.write a v) s := by
  simp only [performAccess, length_toLanes, adapterWord_word, ofLanes_toLanes]
  rfl

/-- Four bytes read at byte address `4·a` are the lanes of word `a` (20_memory.md R75). -/
theorem performAccess_adapterRead_word (a : WordAddr) (s : State) :
    performAccess (.adapterRead (BitVec.ofNat 18 (4 * a.toNat)) 4) s = .next (adapterReply a s) := by
  simp only [performAccess, adapterWord_word]

/-- Settles O18: `toLanes` is the one list of a word's lanes, and `adapterWord` refuses everything but a whole aligned
word. -/
theorem byteAdapterPresentsWholeWords : Obligations.ByteAdapterPresentsWholeWords := by
  refine ⟨fun s a v bytes hlen hlanes => ?_, fun s a => ?_, fun s b bytes h => ?_, fun s b n h => ?_⟩
  · rw [eq_toLanes hlen hlanes, performAccess_adapterWrite_toLanes]
  · exact ⟨toLanes (portRead s a), length_toLanes _, fun _ => getD_toLanes _, performAccess_adapterRead_word a s⟩
  · simp only [performAccess, adapterWord_eq_none.mpr h]
  · simp only [performAccess, adapterWord_eq_none.mpr h]

/-! ### The elements of the arrays -/

/-- The block length of a legal configuration (00_scope.md R8). -/
theorem State.wf_n_le {s : State} (h : s.wf = true) : s.cfg.n ≤ 2048 := by
  have hn := (Config.wf_parts (State.wf_cfg h)).1
  simp only [List.mem_cons, List.not_mem_nil, or_false] at hn
  omega

/-- The array addresses are the addresses R72 gives the elements inside their arrays. -/
theorem arrayAddr_iff {cfg : Config} (hn : cfg.n ≤ 2048) (a : WordAddr) :
    arrayAddr cfg a = true ↔ ∃ t : Target, t.Inside cfg ∧ t.isArray = true ∧ a.toNat = t.addr := by
  rw [arrayAddr_eq]
  constructor
  · intro h
    have hu : locate cfg a ≠ .unmapped := fun hu => by simp [hu, Target.isArray] at h
    exact ⟨locate cfg a, locate_inside cfg a, h, (addr_locate cfg a hu).symm⟩
  · rintro ⟨t, hin, harray, haddr⟩
    have hu : t ≠ .unmapped := by rintro rfl; cases harray
    have hl : locate cfg a = t := by rw [← locate_addr hn hin hu, ← haddr, BitVec.ofNat_toNat, BitVec.setWidth_eq]
    rw [hl, harray]

/-- A write to an array address is a store. -/
theorem perform_write_array {s : State} {a : WordAddr} (h : arrayAddr s.cfg a = true) (v : Word) :
    perform (.write a v) s = .next (portStore a v s) := by
  refine perform_write_of_ne ?_ v s
  rintro rfl
  rw [arrayAddr_eq] at h
  cases h

/-- A store to an array address changes the arrays only (20_memory.md R74). -/
theorem portStore_changesOnlyArrays {s : State} {a : WordAddr} (h : arrayAddr s.cfg a = true) (v : Word) :
    portStore a v s = { s with
      frame := (portStore a v s).frame, vec := (portStore a v s).vec, channels := (portStore a v s).channels } := by
  rw [arrayAddr_eq] at h
  cases hl : locate s.cfg a with
  | frame k i => simp only [portStore, hl]
  | vec j => simp only [portStore, hl]
  | io c i => simp only [portStore, hl, setChannel]
  | _ => rw [hl] at h; cases h

section Elements

variable {s : State} (h : s.wf = true)
include h

/-- The address R72 gives an element inside its array selects it. -/
theorem locate_element {t : Target} (hin : t.Inside s.cfg) (harray : t.isArray = true) :
    locate s.cfg (BitVec.ofNat 16 t.addr) = t :=
  locate_addr (State.wf_n_le h) hin (by rintro rfl; cases harray)

/-- A write at the address of an element is a store. -/
theorem perform_write_element {t : Target} (hin : t.Inside s.cfg) (harray : t.isArray = true) (v : Word) :
    perform (.write (BitVec.ofNat 16 t.addr) v) s = .next (portStore (BitVec.ofNat 16 t.addr) v s) :=
  perform_write_array (by rw [arrayAddr_eq, locate_element h hin harray, harray]) v

theorem portRead_frameElement (k : FrameArray) {i : Nat} (hi : i < s.cfg.n) :
    portRead s (BitVec.ofNat 16 (Target.frame k i).addr) = elem (s.frame.get k) i := by
  simp only [portRead, locate_element h (t := .frame k i) hi rfl]
  rfl

theorem perform_write_frameElement (k : FrameArray) {i : Nat} (hi : i < s.cfg.n) (v : Word) :
    perform (.write (BitVec.ofNat 16 (Target.frame k i).addr) v) s
      = .next { s with frame := s.frame.put k ((s.frame.get k).set i v) } := by
  rw [perform_write_element h (t := .frame k i) hi rfl]
  simp only [portStore, locate_element h (t := .frame k i) hi rfl]

theorem portRead_vecElement {j : Nat} (hj : j < s.cfg.m) :
    portRead s (BitVec.ofNat 16 (Target.vec j).addr) = elem s.vec j := by
  simp only [portRead, locate_element h (t := .vec j) hj rfl]
  rfl

theorem perform_write_vecElement {j : Nat} (hj : j < s.cfg.m) (v : Word) :
    perform (.write (BitVec.ofNat 16 (Target.vec j).addr) v) s = .next { s with vec := s.vec.set j v } := by
  rw [perform_write_element h (t := .vec j) hj rfl]
  simp only [portStore, locate_element h (t := .vec j) hj rfl]

theorem portRead_ioElement {c i : Nat} (hin : (Target.io c i).Inside s.cfg) :
    portRead s (BitVec.ofNat 16 (Target.io c i).addr) = elem (channelAt s c).io i := by
  simp only [portRead, locate_element h hin rfl]
  rfl

theorem perform_write_ioElement {c i : Nat} (hin : (Target.io c i).Inside s.cfg) (v : Word) :
    perform (.write (BitVec.ofNat 16 (Target.io c i).addr) v) s
      = .next (setChannel c { channelAt s c with io := (channelAt s c).io.set i v } s) := by
  rw [perform_write_element h hin rfl]
  simp only [portStore, locate_element h hin rfl]

end Elements

/-- The array addresses, row by row of R72's table. -/
theorem arrayAddr_iff_rows {cfg : Config} (hn : cfg.n ≤ 2048) (a : WordAddr) :
    arrayAddr cfg a = true ↔
      (∃ i < cfg.n, a.toNat ∈ [0x1000 + i, 0x2000 + i, 0x3000 + i, 0x4000 + i, 0x5000 + i, 0x8000 + i])
        ∨ (∃ j < cfg.m, a.toNat = 0x6000 + j)
        ∨ (cfg.c = 2 ∧ ∃ i < cfg.n, a.toNat = 0x9000 + i) := by
  rw [arrayAddr_iff hn]
  constructor
  · rintro ⟨t, hin, harray, haddr⟩
    cases t with
    | frame k i => exact .inl ⟨i, hin, by rw [haddr]; cases k <;> simp [Target.addr]⟩
    | vec j => exact .inr (.inl ⟨j, hin, haddr⟩)
    | io c i =>
      obtain ⟨hi, rfl | ⟨rfl, hc⟩⟩ := hin
      · exact .inl ⟨i, hi, by rw [haddr]; simp [Target.addr]⟩
      · exact .inr (.inr ⟨hc, i, hi, haddr⟩)
    | _ => cases harray
  · rintro (⟨i, hi, ha⟩ | ⟨j, hj, ha⟩ | ⟨hc, i, hi, ha⟩)
    · simp only [List.mem_cons, List.not_mem_nil, or_false] at ha
      rcases ha with ha | ha | ha | ha | ha | ha
      · exact ⟨.frame .drive i, hi, rfl, ha⟩
      · exact ⟨.frame .crunch i, hi, rfl, ha⟩
      · exact ⟨.frame .crush i, hi, rfl, ha⟩
      · exact ⟨.frame .mix i, hi, rfl, ha⟩
      · exact ⟨.frame .gain i, hi, rfl, ha⟩
      · exact ⟨.io 0 i, ⟨hi, .inl rfl⟩, rfl, ha⟩
    · exact ⟨.vec j, hj, rfl, ha⟩
    · exact ⟨.io 1 i, ⟨hi, .inr ⟨rfl, hc⟩⟩, rfl, ha⟩

/-- A word written to an array address is stored there and nowhere else (20_memory.md R74, R78). -/
theorem perform_write_array_stores {s : State} (h : s.wf = true) {a : WordAddr} (ha : arrayAddr s.cfg a = true)
    (v : Word) :
    ∃ t, perform (.write a v) s = .next t
      ∧ perform (.read a) t = .next { t with replies := t.replies ++ [.word v] }
      ∧ (∀ b : WordAddr, b ≠ a → portRead t b = portRead s b)
      ∧ (∀ c, (channelAt t c).hidden = (channelAt s c).hidden)
      ∧ t = { s with frame := t.frame, vec := t.vec, channels := t.channels } := by
  obtain ⟨-, -, -, -, -, hhidden⟩ := portStore_frame a v s
  refine ⟨portStore a v s, perform_write_array ha v, ?_, fun b hb => portRead_portStore_of_ne hb ha v, hhidden,
    portStore_changesOnlyArrays ha v⟩
  change Host.Outcome.next (hostRead a (portStore a v s)) = _
  rw [hostRead, portRead_portStore_self h ha]

/-- Settles O10: R72's table, assembled from the lemmas about its rows and the statements about the registers. -/
theorem arrayWordStoredUnchanged : Obligations.ArrayWordStoredUnchanged := by
  intro s h
  have hio0 {i : Nat} (hi : i < s.cfg.n) : (Target.io 0 i).Inside s.cfg := ⟨hi, .inl rfl⟩
  have hio1 {i : Nat} (hi : i < s.cfg.n) (hc : s.cfg.c = 2) : (Target.io 1 i).Inside s.cfg := ⟨hi, .inr ⟨rfl, hc⟩⟩
  refine ⟨fun a v ha => perform_write_array_stores h ha v, ⟨rfl, rfl, rfl, rfl, rfl⟩, fun v => ?registers,
    fun i hi => ?reads, fun j hj => portRead_vecElement h hj, fun i hi v => ?writes,
    fun j hj v => perform_write_vecElement h hj v, arrayAddr_iff_rows (State.wf_n_le h), fun a v h5 ha => ?unmapped⟩
  case registers =>
    obtain ⟨hcmd, -⟩ := commandRegisterStoresThenRuns.1 s v
    obtain ⟨hcrunch, hcrush, -, -⟩ := controlRegistersHoldLastWrite.1 s v
    exact ⟨rfl, hcmd, statusWriteOneClearsSticky.1 s v, hcrunch, hcrush⟩
  case reads =>
    have hframe (k : FrameArray) := portRead_frameElement h k hi
    exact ⟨hframe .drive, hframe .crunch, hframe .crush, hframe .mix, hframe .gain, portRead_ioElement h (hio0 hi),
      fun hc => portRead_ioElement h (hio1 hi hc)⟩
  case writes =>
    have hframe (k : FrameArray) := perform_write_frameElement h k hi v
    exact ⟨hframe .drive, hframe .crunch, hframe .crush, hframe .mix, hframe .gain,
      perform_write_ioElement h (hio0 hi) v, fun hc => perform_write_ioElement h (hio1 hi hc) v⟩
  case unmapped =>
    obtain ⟨-, hwrite⟩ := unmappedReadsZeroIgnoresWrites s a v ha h5
    exact ⟨portRead_unmapped ((locate_eq_unmapped s.cfg a).mpr ⟨ha, h5⟩), hwrite⟩

end Sys2Proof.Machine
end

section
/-! PROOFS. The decoder and the encoder are inverse on the legal words, which are the words the match/mask rows select
(30_encoding.md R101 to R112), and what writing an illegal word does (R107). -/

namespace Sys2Proof

/-! ### The operand fields of formats CL and KL -/

theorem fits_iff {c l : Nat} : (fitsCh c && fitsLen l) = true ↔ c < 16 ∧ l < 65536 := by
  simp only [fitsCh, fitsLen, Bool.and_eq_true, decide_eq_true_eq]
  omega

/-- What a word holds in its operand fields fits them. -/
theorem fits_fields (w : Word) : (fitsCh (chField w) && fitsLen (lenField w)) = true :=
  fits_iff.mpr ⟨BitVec.isLt _, BitVec.isLt _⟩

/-- A word with `RSV` = 0 is its three other fields put together. -/
theorem encodeCL_fields {w : Word} (h : rsvField w = 0) : encodeCL (opcField w) (chField w) (lenField w) = w := by
  obtain ⟨hc, hl⟩ := fits_iff.mp (fits_fields w)
  refine BitVec.eq_of_toNat_eq ?_
  rw [toNat_encodeCL (BitVec.isLt _) hc hl]
  rw [rsvField_eq] at h
  rw [lenField_eq, chField_eq, opcField_eq]
  omega

theorem opcField_encodeCL {o c l : Nat} (ho : o < 256) (h : (fitsCh c && fitsLen l) = true) :
    opcField (encodeCL o c l) = o := by
  obtain ⟨hc, hl⟩ := fits_iff.mp h
  rw [opcField_eq, toNat_encodeCL ho hc hl]
  omega

/-- The three fields put together give the two operands back (R102, R103). -/
theorem decodeCL_encodeCL {o c l : Nat} (ho : o < 256) (h : (fitsCh c && fitsLen l) = true) (mk : Nat → Nat → Instr) :
    decodeCL (encodeCL o c l) mk = .ok (mk c l) := by
  obtain ⟨hc, hl⟩ := fits_iff.mp h
  have hrsv : (l * 65536 + c * 256 + o) / 4096 % 16 = 0 := by omega
  have hch : (l * 65536 + c * 256 + o) / 256 % 16 = c := by omega
  have hlen : (l * 65536 + c * 256 + o) / 65536 = l := by omega
  rw [decodeCL_eq, toNat_encodeCL ho hc hl, if_pos hrsv, hch, hlen]

/-- A command of format CL or KL: its opcode, its mnemonic, and how the encoder and the decoder treat it (R105). -/
structure OperandCommand (opc : Nat) (name : String) (mk : Nat → Nat → Instr) : Prop where
  opc_lt : opc < 256
  mnemonic_eq : ∀ c l, (mk c l).mnemonic = name
  wellFormed_eq : ∀ c l, (mk c l).wellFormed = (fitsCh c && fitsLen l)
  encode_eq : ∀ c l, encode (mk c l) = encodeCL opc c l
  decode_eq : ∀ w, opcField w = opc → decode w = decodeCL w mk

theorem operandCommand_mdct : OperandCommand 0x03 "MDCT" .mdct :=
  ⟨by decide, fun _ _ => rfl, fun _ _ => rfl, fun _ _ => rfl, fun w h => by simp only [decode, h]⟩

theorem operandCommand_imdct : OperandCommand 0x04 "IMDCT" .imdct :=
  ⟨by decide, fun _ _ => rfl, fun _ _ => rfl, fun _ _ => rfl, fun w h => by simp only [decode, h]⟩

theorem operandCommand_procBlock : OperandCommand 0x08 "PROC_BLOCK" .procBlock :=
  ⟨by decide, fun _ _ => rfl, fun _ _ => rfl, fun _ _ => rfl, fun w h => by simp only [decode, h]⟩

theorem operandCommand_procAll : OperandCommand 0x09 "PROC_ALL" .procAll :=
  ⟨by decide, fun _ _ => rfl, fun _ _ => rfl, fun _ _ => rfl, fun w h => by simp only [decode, h]⟩

/-! ### Decoding an encoded command -/

/-- The decoder reads the opcode and the two operands back. -/
theorem OperandCommand.decode_encode {o : Nat} {name : String} {mk : Nat → Nat → Instr}
    (hk : OperandCommand o name mk) {c l : Nat} (h : (mk c l).wellFormed = true) :
    decode (encode (mk c l)) = .ok (mk c l) := by
  rw [hk.wellFormed_eq] at h
  rw [hk.encode_eq, hk.decode_eq _ (opcField_encodeCL hk.opc_lt h), decodeCL_encodeCL hk.opc_lt h]

/-- Settles O1: a format-Z command has one word, and of the others the decoder reads the operands back. -/
theorem decodeOfEncode : Obligations.DecodeOfEncode := by
  intro i h
  cases i with
  | mdct c l => exact operandCommand_mdct.decode_encode h
  | imdct c l => exact operandCommand_imdct.decode_encode h
  | procBlock c l => exact operandCommand_procBlock.decode_encode h
  | procAll c l => exact operandCommand_procAll.decode_encode h
  | _ => rfl

/-! ### Encoding a decoded command -/

/-- A format-Z word is the number of its opcode (R101). -/
theorem encode_of_decodeZ {w : Word} {o : Nat} {i j : Instr} (ho : opcField w = o) (henc : encode i = BitVec.ofNat 32 o)
    (hwf : i.wellFormed = true) (h : decodeZ w i = .ok j) : encode j = w ∧ j.wellFormed = true := by
  rw [decodeZ_eq] at h
  split at h
  next hupper =>
    cases h
    refine ⟨?_, hwf⟩
    rw [henc, ← ho, opcField_eq, Nat.mod_eq_of_lt (by omega), BitVec.ofNat_toNat, BitVec.setWidth_eq]
  next => cases h

/-- A word of format CL or KL is the word of its opcode and operands (R102, R103). -/
theorem OperandCommand.encode_of_decodeCL {w : Word} {o : Nat} {name : String} {mk : Nat → Nat → Instr} {j : Instr}
    (hk : OperandCommand o name mk) (ho : opcField w = o) (h : decodeCL w mk = .ok j) :
    encode j = w ∧ j.wellFormed = true := by
  unfold decodeCL at h
  split at h
  next hrsv =>
    cases h
    rw [hk.encode_eq, hk.wellFormed_eq, ← ho]
    exact ⟨encodeCL_fields hrsv, fits_fields w⟩
  next => cases h

/-- Settles O2, opcode by opcode of the decoder. -/
theorem encodeOfDecode : Obligations.EncodeOfDecode := by
  intro w i h
  unfold decode at h
  split at h
  next ho => exact encode_of_decodeZ ho rfl rfl h
  next ho => exact encode_of_decodeZ ho rfl rfl h
  next ho => exact encode_of_decodeZ ho rfl rfl h
  next ho => exact operandCommand_mdct.encode_of_decodeCL ho h
  next ho => exact operandCommand_imdct.encode_of_decodeCL ho h
  next ho => exact encode_of_decodeZ ho rfl rfl h
  next ho => exact encode_of_decodeZ ho rfl rfl h
  next ho => exact encode_of_decodeZ ho rfl rfl h
  next ho => exact operandCommand_procBlock.encode_of_decodeCL ho h
  next ho => exact operandCommand_procAll.encode_of_decodeCL ho h
  next ho => exact encode_of_decodeZ ho rfl rfl h
  next => cases h

/-! ### The rows of the opcode map -/

theorem encode_selects_row (i : Instr) : Laws.EncodeSelectsRow.Statement i := by
  cases i with
  | nop => exact Laws.EncodeSelectsRow.nop
  | dctFwd => exact Laws.EncodeSelectsRow.dctFwd
  | dctInv => exact Laws.EncodeSelectsRow.dctInv
  | mdct c l => exact Laws.EncodeSelectsRow.mdct c l
  | imdct c l => exact Laws.EncodeSelectsRow.imdct c l
  | crunch => exact Laws.EncodeSelectsRow.crunch
  | crush => exact Laws.EncodeSelectsRow.crush
  | distort => exact Laws.EncodeSelectsRow.distort
  | procBlock c l => exact Laws.EncodeSelectsRow.procBlock c l
  | procAll c l => exact Laws.EncodeSelectsRow.procAll c l
  | reset => exact Laws.EncodeSelectsRow.reset

/-- Every command has a row, and its word is selected by it. -/
theorem exists_row_of_decode {w : Word} {i : Instr} (h : decode w = .ok i) :
    ∃ r ∈ opcodeTable, r.mnemonic = i.mnemonic ∧ w &&& r.mask = r.matchBits := by
  obtain ⟨rfl, hwf⟩ := encodeOfDecode w i h
  simpa only [OpcodeRow.selects, beq_iff_eq] using encode_selects_row i hwf

/-- A word that format Z's row for `i` selects is the word of `i`. -/
theorem decode_of_fullMask {w m : Word} {i : Instr} (henc : encode i = m) (hwf : i.wellFormed = true)
    (h : w &&& 0xFFFFFFFF#32 = m) : ∃ j, decode w = .ok j ∧ j.mnemonic = i.mnemonic := by
  rw [and_fullMask] at h
  rw [h, ← henc]
  exact ⟨i, decodeOfEncode i hwf, rfl⟩

/-- A word that a row of formats CL and KL selects has the row's opcode, and `RSV` = 0. -/
theorem fields_of_operandMask {w : Word} {o : Nat} (ho : o < 256) (h : w &&& 0x0000F0FF#32 = BitVec.ofNat 32 o) :
    opcField w = o ∧ rsvField w = 0 := by
  rw [and_operandMask, ← BitVec.toNat_inj, BitVec.toNat_ofNat, BitVec.toNat_ofNat] at h
  rw [opcField_eq, rsvField_eq]
  omega

/-- A word that a row of formats CL and KL selects is the word of the row's command with its operand fields. -/
theorem OperandCommand.decode_of_operandMask {w : Word} {o : Nat} {name : String} {mk : Nat → Nat → Instr}
    (hk : OperandCommand o name mk) (h : w &&& 0x0000F0FF#32 = BitVec.ofNat 32 o) :
    ∃ j, decode w = .ok j ∧ j.mnemonic = name := by
  obtain ⟨hopc, hrsv⟩ := fields_of_operandMask hk.opc_lt h
  refine ⟨mk (chField w) (lenField w), ?_, hk.mnemonic_eq _ _⟩
  rw [hk.decode_eq w hopc, decodeCL, if_pos hrsv]

/-- A word that a row selects decodes to the row's command. -/
theorem decode_of_row (w : Word) :
    ∀ r ∈ opcodeTable, w &&& r.mask = r.matchBits → ∃ i, decode w = .ok i ∧ i.mnemonic = r.mnemonic := by
  simp only [opcodeTable, List.forall_mem_cons, List.not_mem_nil, false_imp_iff, implies_true, and_true]
  exact ⟨decode_of_fullMask (i := .nop) rfl rfl,
    decode_of_fullMask (i := .dctFwd) rfl rfl,
    decode_of_fullMask (i := .dctInv) rfl rfl,
    operandCommand_mdct.decode_of_operandMask,
    operandCommand_imdct.decode_of_operandMask,
    decode_of_fullMask (i := .crunch) rfl rfl,
    decode_of_fullMask (i := .crush) rfl rfl,
    decode_of_fullMask (i := .distort) rfl rfl,
    operandCommand_procBlock.decode_of_operandMask,
    operandCommand_procAll.decode_of_operandMask,
    decode_of_fullMask (i := .reset) rfl rfl⟩

/-- Every row fixes `OPC` (R106). -/
theorem opcode_of_row {w : Word} {r : OpcodeRow} (hr : r ∈ opcodeTable) (h : w &&& r.mask = r.matchBits) :
    w &&& 0xFF#32 = r.matchBits &&& 0xFF#32 := by
  have hmask : ∀ r ∈ opcodeTable, r.mask &&& 0xFF#32 = 0xFF#32 := by decide
  rw [← h, BitVec.and_assoc, hmask r hr]

/-- The rows fix `OPC` to different values (R106). -/
theorem opcodeTable_opcodes_distinct :
    opcodeTable.Pairwise fun r r' => r.matchBits &&& 0xFF#32 ≠ r'.matchBits &&& 0xFF#32 := by decide

theorem opcodeTable_mnemonic_injOn : ∀ r ∈ opcodeTable, ∀ r' ∈ opcodeTable, r.mnemonic = r'.mnemonic → r = r' := by
  decide

/-- Settles O3: a decoded word is selected by its command's row, the only row of that mnemonic, and the opcodes of the rows
are different. -/
theorem opcodeRowsSelectCommands : Obligations.OpcodeRowsSelectCommands := by
  refine ⟨fun w r hr => ⟨decode_of_row w r hr, ?_⟩, opcodeTable_opcodes_distinct.imp_of_mem ?_⟩
  · rintro ⟨i, hdecode, hname⟩
    obtain ⟨r', hr', hname', hselects⟩ := exists_row_of_decode hdecode
    rwa [opcodeTable_mnemonic_injOn r' hr' r hr (hname'.trans hname)] at hselects
  · rintro r r' hr hr' hne w ⟨h, h'⟩
    exact hne ((opcode_of_row hr h).symm.trans (opcode_of_row hr' h'))

/-! ### The illegal words -/

/-- A word is illegal exactly when no row selects it (R107). -/
theorem decode_error_iff_no_row (w : Word) :
    (∃ e, decode w = .error e) ↔ ∀ r ∈ opcodeTable, w &&& r.mask ≠ r.matchBits := by
  constructor
  · rintro ⟨e, he⟩ r hr hselects
    obtain ⟨i, hi, -⟩ := decode_of_row w r hr hselects
    rw [he] at hi
    cases hi
  · intro hnone
    cases hdecode : decode w with
    | error e => exact ⟨e, rfl⟩
    | ok i =>
      obtain ⟨r, hr, -, hselects⟩ := exists_row_of_decode hdecode
      exact absurd hselects (hnone r hr)

theorem decodeZ_error_iff (w : Word) (i : Instr) : (∃ e, decodeZ w i = .error e) ↔ w.toNat / 256 ≠ 0 := by
  rw [decodeZ_eq]
  split <;> simp [*]

theorem decodeCL_error_iff (w : Word) (mk : Nat → Nat → Instr) :
    (∃ e, decodeCL w mk = .error e) ↔ w.toNat / 4096 % 16 ≠ 0 := by
  rw [decodeCL_eq]
  split <;> simp [*]

/-- The three kinds of illegal word (R107). -/
theorem decode_error_iff_kinds (w : Word) :
    (∃ e, decode w = .error e) ↔
      ((0x0A ≤ w.toNat % 256 ∧ w.toNat % 256 ≤ 0x0E) ∨ 0x10 ≤ w.toNat % 256
        ∨ (w.toNat % 256 ∈ [0, 1, 2, 5, 6, 7, 15] ∧ w.toNat / 256 ≠ 0)
        ∨ (w.toNat % 256 ∈ [3, 4, 8, 9] ∧ w.toNat / 4096 % 16 ≠ 0)) := by
  unfold decode
  rw [opcField_eq]
  generalize w.toNat % 256 = o
  split
  -- The decoder's last arm: no command has the opcode.
  case h_12 =>
    refine iff_of_true ⟨_, rfl⟩ ?_
    simp only [imp_false] at *
    omega
  all_goals simp [decodeZ_error_iff, decodeCL_error_iff]

end Sys2Proof

namespace Sys2Proof.Machine

/-- Writing an illegal word (R107). -/
theorem perform_write_illegal {w : Word} {e : Illegal} (h : decode w = .error e) (s : State) :
    perform (.write 0x0001#16 w) s = .next { s with cmd := w, code := .errIllegalCmd, sticky := true } := by
  rw [perform_write_cmd]
  simp only [runCommand, h, raise]

/-- Settles O4: the rows, the three kinds and the write each have their lemma. -/
theorem illegalWordsOnlyReport : Obligations.IllegalWordsOnlyReport := fun w s =>
  ⟨decode_error_iff_no_row w, decode_error_iff_kinds w, fun ⟨_, h⟩ => perform_write_illegal h s⟩

/-- Settles O5: the decoder evaluated on the nine words. -/
theorem encodingExamples : Obligations.EncodingExamples :=
  ⟨rfl, rfl, rfl, rfl, rfl, rfl, ⟨_, rfl⟩, ⟨_, rfl⟩, ⟨_, rfl⟩⟩

end Sys2Proof.Machine
end

section
/-! PROOFS. The transform engine (40_transform.md): the commands as functions of the configuration and `VEC`, `REF_CR` against
the real sums of R130 and R131, zero vectors, and what a non-finite element does to a transform and to a cycle. -/

namespace Sys2Proof

/-! ### NaN operands -/

theorem F32.add_of_isNaN_left {nan a : Word} (h : F32.isNaN a = true) (b : Word) : F32.add nan a b = nan :=
  (F32.operations_of_isNaN (.inl h)).1

theorem F32.mul_of_isNaN_left {nan a : Word} (h : F32.isNaN a = true) (b : Word) : F32.mul nan a b = nan :=
  (F32.operations_of_isNaN (.inl h)).2.2.1

theorem F32.div_of_isNaN_left {nan a : Word} (h : F32.isNaN a = true) (b : Word) : F32.div nan a b = nan :=
  (F32.operations_of_isNaN (.inl h)).2.2.2

theorem F32.not_isFinite_of_isNaN {w : Word} (h : F32.isNaN w = true) : F32.isFinite w = false :=
  Bool.eq_false_iff.mpr fun hf => by simp [F32.not_isNaN_of_isFinite hf] at h

theorem F32.isNaN_iff (w : Word) : F32.isNaN w = true ↔ F32.infMag < F32.mag w := by simp [F32.isNaN]

/-- `NAN_OUT` is a NaN (00_scope.md R8). -/
theorem F32.isNaN_of_isQuietNaN {w : Word} (h : F32.isQuietNaN w = true) : F32.isNaN w = true := by
  simp only [F32.isQuietNaN, Bool.and_eq_true, beq_iff_eq, decide_eq_true_eq] at h
  simp only [F32.expo, F32.frac, F32.mag] at h
  rw [F32.isNaN_iff, F32.infMag, F32.mag]
  omega

theorem F32.roundHalfAway_of_isNaN {w : Word} (h : F32.isNaN w = true) : F32.roundHalfAway w = w := by
  rw [F32.isNaN_iff, F32.infMag] at h
  exact if_neg (by omega)

/-- `rnd32(0)` is `+0.0` (00_scope.md R14). -/
theorem isRnd32_zero_iff (w : Word) : IsRnd32 0 w ↔ w = F32.posZero := by simp [IsRnd32]

theorem AllZero.allFinite {l : List Word} (h : AllZero l) : AllFinite l := fun w hw => F32.isFinite_of_isZero (h w hw)

end Sys2Proof

namespace Sys2Proof.Machine

/-! ### Elements of a list -/

theorem elem_mem {l : List Word} {i : Nat} (h : i < l.length) : elem l i ∈ l := by simp [elem, h]

theorem elem_replicate {n i : Nat} (a : Word) (h : i < n) : elem (List.replicate n a) i = a := by simp [elem, h]

/-- Every element of a list of zeros is a zero, and so is what stands past its end. -/
theorem toRat_elem_of_allZero {l : List Word} (h : AllZero l) (i : Nat) : F32.toRat (elem l i) = 0 := by
  rw [F32.toRat_eq_zero]
  by_cases hi : i < l.length
  · exact h _ (elem_mem hi)
  · rw [elem, List.getD_eq_default _ _ (not_lt.mp hi)]; rfl

/-- The value of an element, from the list of the values in units of `2^-149`. -/
theorem cast_toRat_elem (l : List Word) (i : Nat) :
    ((F32.toRat (elem l i) : ℚ) : ℝ) = ((l.map F32.units).getD i 0 : ℤ) / 2 ^ 149 := by
  have h : (l.map F32.units).getD i 0 = F32.units (elem l i) := List.getD_map l F32.posZero F32.units
  rw [F32.cast_toRat, h]

/-! ### The commands -/

theorem exec_dctFwd (s : State) : exec .dctFwd s = .next { s with vec := fwdM s.cfg s.vec, code := .normal } := rfl

theorem exec_dctInv (s : State) : exec .dctInv s = .next { s with vec := invM s.cfg s.vec, code := .normal } := rfl

/-- Settles O33: the commands are `FWD_M` and `INV_M` on `VEC`, and a legal pair other than `REF_CR` round trips. -/
theorem transformReadsOnlyVector : Obligations.TransformReadsOnlyVector := by
  refine ⟨fun s s' hcfg hvec => ?_, fun s hwf hlegal href hfin => ?_⟩
  · rw [exec_dctFwd, exec_dctFwd, exec_dctInv, exec_dctInv, ← hcfg, ← hvec]
    exact ⟨⟨_, length_fwdM _ _, rfl, rfl⟩, ⟨_, length_invM _ _, rfl, rfl⟩⟩
  · have hm := State.wf_vec hwf
    refine ⟨_, _, exec_dctFwd s, exec_dctInv _, by simp [hm], fun i hi => ?_⟩
    exact hlegal.2 href s.vec hm hfin i (hm ▸ hi)

/-! ### `REF_CR` on finite input -/

section RefCr
variable {cfg : Config} (href : cfg.transform = .refCr)
include href

theorem elem_fwdM_refCr {xs : List Word} (hfin : AllFinite xs) {k : Nat} (hk : k < cfg.m) :
    elem (fwdM cfg xs) k = rnd32Combination (Cosine.table (Nat.log2 cfg.m)) (Nat.log2 cfg.m) 1
      (Config.underflowSign .forward xs k) (fwdCoeffs cfg.m k (xs.map F32.units)) := by
  have hall : xs.all F32.isFinite = true := List.all_eq_true.mpr hfin
  simp [fwdM, transform, href, refCr, hall, elem, hk]

theorem elem_invM_refCr {xs : List Word} (hfin : AllFinite xs) {n : Nat} (hn : n < cfg.m) :
    elem (invM cfg xs) n = rnd32Combination (Cosine.table (Nat.log2 cfg.m)) (Nat.log2 cfg.m) cfg.m
      (Config.underflowSign .inverse xs n) (invCoeffs cfg.m n (xs.map F32.units)) := by
  have hall : xs.all F32.isFinite = true := List.all_eq_true.mpr hfin
  simp [invM, transform, href, refCr, hall, elem, hn]

/-- Under `REF_CR` one element that is not finite makes every output `NAN_OUT` (R133). -/
theorem transform_of_nonFinite {xs : List Word} (hbad : ∃ w ∈ xs, F32.isFinite w = false) (dir : TransformDir) :
    transform cfg dir xs = List.replicate cfg.m cfg.nanOut := by
  have hall : ¬ xs.all F32.isFinite = true := by simpa using hbad
  simp only [transform, href, refCr, if_neg hall]

end RefCr

/-- The sum of R130 in units of `2^-149`. -/
theorem sum_forward (m k : Nat) (xs : List Word) :
    ∑ n ∈ Finset.range m, ((F32.toRat (elem xs n) : ℚ) : ℝ) * Real.cos (Real.pi * k * (2 * n + 1) / (2 * m))
      = (∑ n ∈ Finset.range m, (((xs.map F32.units).getD n 0 : ℤ) : ℝ) * cosAt m (k * (2 * n + 1))) / 2 ^ 149 := by
  rw [Finset.sum_div]
  refine Finset.sum_congr rfl fun n _ => ?_
  rw [cast_toRat_elem, cosAt]
  push_cast
  ring_nf

/-- The sum of R131 in units of `2^-149` and multiplied by `M`: the term of `X[0]` counts once and its cosine is 1, the
others count twice. -/
theorem sum_inverse {m : Nat} (hm : 0 < m) (n : Nat) (xs : List Word) :
    1 / m * ((F32.toRat (elem xs 0) : ℚ) : ℝ) + 2 / m * ∑ k ∈ Finset.Ico 1 m,
        ((F32.toRat (elem xs k) : ℚ) : ℝ) * Real.cos (Real.pi * k * (2 * n + 1) / (2 * m))
      = (∑ k ∈ Finset.range m, ((if k = 0 then (xs.map F32.units).getD k 0 else 2 * (xs.map F32.units).getD k 0 : ℤ) : ℝ)
          * cosAt m (k * (2 * n + 1))) / m / 2 ^ 149 := by
  have hterm : ∀ k ∈ Finset.Ico 1 m,
      ((if k = 0 then (xs.map F32.units).getD k 0 else 2 * (xs.map F32.units).getD k 0 : ℤ) : ℝ)
          * cosAt m (k * (2 * n + 1))
        = 2 * 2 ^ 149 * (((F32.toRat (elem xs k) : ℚ) : ℝ) * Real.cos (Real.pi * k * (2 * n + 1) / (2 * m))) := by
    intro k hk
    rw [if_neg (by have := Finset.mem_Ico.mp hk; omega), cast_toRat_elem, cosAt]
    push_cast
    ring_nf
  have hcos : cosAt m (0 * (2 * n + 1)) = 1 := by simp [cosAt]
  rw [Finset.range_eq_Ico, Finset.sum_eq_sum_Ico_succ_bot hm, Finset.sum_congr rfl hterm, ← Finset.mul_sum, hcos,
    if_pos rfl, cast_toRat_elem]
  ring

/-- Under `REF_CR` every element of `FWD_M` is the type-II sum rounded once (R130, R133). -/
theorem isForwardElement_fwdM {s : State} (h : s.wf = true) (href : s.cfg.transform = .refCr) {xs : List Word}
    (hlen : xs.length = s.cfg.m) (hfin : AllFinite xs) {k : Nat} (hk : k < s.cfg.m) :
    IsForwardElement s.cfg.m xs k (elem (fwdM s.cfg xs) k) := by
  obtain ⟨hpow, hpos⟩ := State.wf_m h
  obtain ⟨hsum, hcoeffs⟩ := lin_fwdCoeffs s.cfg.m k hpos (xs.map F32.units)
  have hrnd := isRnd32_rnd32Combination (Nat.log2 s.cfg.m) 1 one_pos (Config.underflowSign .forward xs k)
    (fwdCoeffs s.cfg.m k (xs.map F32.units)) (hcoeffs.trans hpow)
  rw [← hpow, hsum, List.length_map, hlen, Nat.cast_one, div_one, ← elem_fwdM_refCr href hfin hk] at hrnd
  rwa [IsForwardElement, sum_forward]

/-- Under `REF_CR` every element of `INV_M` is the type-III sum rounded once (R131, R133). -/
theorem isInverseElement_invM {s : State} (h : s.wf = true) (href : s.cfg.transform = .refCr) {xs : List Word}
    (hlen : xs.length = s.cfg.m) (hfin : AllFinite xs) {n : Nat} (hn : n < s.cfg.m) :
    IsInverseElement s.cfg.m xs n (elem (invM s.cfg xs) n) := by
  obtain ⟨hpow, hpos⟩ := State.wf_m h
  obtain ⟨hsum, hcoeffs⟩ := lin_invCoeffs s.cfg.m n hpos (xs.map F32.units)
  have hrnd := isRnd32_rnd32Combination (Nat.log2 s.cfg.m) s.cfg.m hpos (Config.underflowSign .inverse xs n)
    (invCoeffs s.cfg.m n (xs.map F32.units)) (hcoeffs.trans hpow)
  rw [← hpow, hsum, List.length_map, hlen, ← elem_invM_refCr href hfin hn] at hrnd
  rwa [IsInverseElement, sum_inverse hpos]

/-- Settles O29: `VEC` becomes `FWD_M` of it, element by element the sum of R130 rounded once. -/
theorem forwardTransformCorrectlyRounded : Obligations.ForwardTransformCorrectlyRounded := fun s h href hfin =>
  ⟨_, exec_dctFwd s, rfl, length_fwdM _ _, fun _ hk => isForwardElement_fwdM h href (State.wf_vec h) hfin hk⟩

/-- Settles O30: `VEC` becomes `INV_M` of it, element by element the sum of R131 rounded once. -/
theorem inverseTransformCorrectlyRounded : Obligations.InverseTransformCorrectlyRounded := fun s h href hfin =>
  ⟨_, exec_dctInv s, rfl, length_invM _ _, fun _ hn => isInverseElement_invM h href (State.wf_vec h) hfin hn⟩

/-! ### Zero vectors -/

/-- The exact sums of a list of zeros are 0, and `rnd32(0)` is `+0.0` (R135). -/
theorem transform_refCr_of_allZero {s : State} (h : s.wf = true) (href : s.cfg.transform = .refCr) {xs : List Word}
    (hlen : xs.length = s.cfg.m) (hzero : AllZero xs) (dir : TransformDir) :
    transform s.cfg dir xs = List.replicate s.cfg.m F32.posZero := by
  refine ext_elem (by simp [length_transform]) fun k hk => ?_
  rw [length_transform] at hk
  rw [elem_replicate _ hk]
  cases dir with
  | forward =>
    have hrnd := isForwardElement_fwdM h href hlen hzero.allFinite hk
    simpa [fwdM, IsForwardElement, toRat_elem_of_allZero hzero, isRnd32_zero_iff] using hrnd
  | inverse =>
    have hrnd := isInverseElement_invM h href hlen hzero.allFinite hk
    simpa [invM, IsInverseElement, toRat_elem_of_allZero hzero, isRnd32_zero_iff] using hrnd

theorem allZero_replicate_posZero (n : Nat) : AllZero (List.replicate n F32.posZero) := by
  intro w hw
  rw [List.eq_of_mem_replicate hw]
  rfl

/-- Every configured transform maps zeros to zeros (R134, property 3). -/
theorem transform_allZero {s : State} (h : s.wf = true) {xs : List Word} (hlen : xs.length = s.cfg.m)
    (hzero : AllZero xs) (dir : TransformDir) : AllZero (transform s.cfg dir xs) := by
  cases ht : s.cfg.transform with
  | refCr =>
    rw [transform_refCr_of_allZero h ht hlen hzero]
    exact allZero_replicate_posZero _
  | table fwd inv =>
    have hkeep := (Config.wf_parts (State.wf_cfg h)).2.2.2.2.2.2
    simp only [ht, TransformKind.keepsZeros, Bool.and_eq_true] at hkeep
    simp only [transform, ht]
    cases dir with
    | forward => exact tableTransform_allZero hkeep.1 hzero
    | inverse => exact tableTransform_allZero hkeep.2 hzero

/-- Settles O32: a list transform keeps zeros by its legality, `REF_CR` because the sums are 0. -/
theorem zeroVectorTransformsToZero : Obligations.ZeroVectorTransformsToZero := fun s h hzero =>
  have hlen := State.wf_vec h
  ⟨_, _, exec_dctFwd s, exec_dctInv s, rfl, rfl, length_fwdM _ _, length_invM _ _, transform_allZero h hlen hzero .forward,
    transform_allZero h hlen hzero .inverse, fun href =>
      ⟨transform_refCr_of_allZero h href hlen hzero .forward, transform_refCr_of_allZero h href hlen hzero .inverse⟩⟩

/-! ### NaNs through the stages of a cycle -/

theorem State.wf_isNaN_nanOut {s : State} (h : s.wf = true) : F32.isNaN s.cfg.nanOut = true :=
  F32.isNaN_of_isQuietNaN (Config.wf_parts (State.wf_cfg h)).2.2.2.2.1

/-- A value that absorbs whatever it meets on the right absorbs a list. -/
theorem zipWith_replicate_of_absorbs {f : Word → Word → Word} {a : Word} (h : ∀ b, f a b = a) {n : Nat} {l : List Word}
    (hl : n ≤ l.length) : List.zipWith f (List.replicate n a) l = List.replicate n a :=
  List.ext_getElem (by simpa using hl) (by simp [h])

/-- The clamp of a NaN is the NaN, and its product with the gain is `NAN_OUT` (42_distortion.md R181). -/
theorem crunchStage_isNaN {cfg : Config} (hnan : F32.isNaN cfg.nanOut = true) (cr : Word) (d : Nat) {xs : List Word}
    (h : ∀ x ∈ xs, F32.isNaN x = true) : ∀ x ∈ crunchStage cfg cr d xs, F32.isNaN x = true := by
  unfold crunchStage crunchWith
  split
  · exact h
  · refine List.forall_mem_map.mpr fun x hx => ?_
    have hclamp (lo hi : Word) : clamp x lo hi = x := by simp [clamp, F32.lt, h x hx]
    rw [hclamp, F32.mul_of_isNaN_left (h x hx), hnan]

/-- Quantizing a NaN is arithmetic on it throughout (42_distortion.md R184). -/
theorem quantize_of_isNaN {nan x : Word} (hnan : F32.isNaN nan = true) (hx : F32.isNaN x = true) (q : Word) :
    quantize nan q x = nan := by
  rw [quantize, F32.mul_of_isNaN_left hx, F32.roundHalfAway_of_isNaN hnan, F32.div_of_isNaN_left hnan]

theorem crushStage_isNaN {cfg : Config} (hnan : F32.isNaN cfg.nanOut = true) (cs : Word) (d : Nat) {xs : List Word}
    (h : ∀ x ∈ xs, F32.isNaN x = true) : ∀ x ∈ crushStage cfg cs d xs, F32.isNaN x = true := by
  have hquant (q : Word) : ∀ y ∈ xs.map (quantize cfg.nanOut q), F32.isNaN y = true :=
    List.forall_mem_map.mpr fun x hx => by rw [quantize_of_isNaN hnan (h x hx), hnan]
  unfold crushStage
  dsimp only
  split_ifs
  · exact h
  · exact List.forall_mem_map.mpr fun y hy => by rw [F32.mul_of_isNaN_left (hquant _ y hy), hnan]
  · exact hquant _

/-- Whatever the control values, distorting NaNs gives NaNs. -/
theorem distortStage_isNaN {cfg : Config} (hnan : F32.isNaN cfg.nanOut = true) (cr cs : Word) (d : Nat) {xs : List Word}
    (h : ∀ x ∈ xs, F32.isNaN x = true) : ∀ x ∈ distortStage cfg cr cs d xs, F32.isNaN x = true :=
  crushStage_isNaN hnan cs _ (crunchStage_isNaN hnan cr d h)

/-- The channel a cycle leaves when its history or driven block is not finite: `IO` and `TAIL` of `NAN_OUT`, the driven block
in `HIST` and the undriven one in `DRY` (43_channel_pipeline.md R224). -/
def nanChannel (s : State) (k : Channel) : Channel where
  io := List.replicate s.cfg.n s.cfg.nanOut
  hist := driven s.cfg s.frame k.io
  tail := List.replicate s.cfg.n s.cfg.nanOut
  dry := k.io

section NanCycle
variable {s : State} (h : s.wf = true) (href : s.cfg.transform = .refCr)
include h href

/-- Windowing an inverse transform of a vector that is not finite. -/
theorem windowed_of_nonFinite {xs : List Word} (hbad : ∃ w ∈ xs, F32.isFinite w = false) :
    windowed s.cfg xs = List.replicate s.cfg.m s.cfg.nanOut := by
  rw [windowed, invM, transform_of_nonFinite href hbad,
    zipWith_replicate_of_absorbs (F32.mul_of_isNaN_left (State.wf_isNaN_nanOut h)) (State.wf_window h).ge]

theorem olaInv_of_nonFinite {xs : List Word} (hbad : ∃ w ∈ xs, F32.isFinite w = false) {tail : List Word}
    (htail : tail.length = s.cfg.n) : olaInv s.cfg tail xs = List.replicate s.cfg.n s.cfg.nanOut := by
  have hmin : min s.cfg.n s.cfg.m = s.cfg.n := by rw [Config.m]; omega
  rw [olaInv, windowed_of_nonFinite h href hbad, List.take_replicate, hmin,
    zipWith_replicate_of_absorbs (F32.add_of_isNaN_left (State.wf_isNaN_nanOut h)) htail.ge]

theorem olaTail_of_nonFinite {xs : List Word} (hbad : ∃ w ∈ xs, F32.isFinite w = false) :
    olaTail s.cfg xs = List.replicate s.cfg.n s.cfg.nanOut := by
  have hsub : s.cfg.m - s.cfg.n = s.cfg.n := by rw [Config.m]; omega
  rw [olaTail, windowed_of_nonFinite h href hbad, List.drop_replicate, hsub,
    zipWith_replicate_of_absorbs (F32.mul_of_isNaN_left (State.wf_isNaN_nanOut h))
      (by rw [List.length_drop, State.wf_window h, hsub])]

omit href in
/-- The crossfade and the gain keep a wet block of `NAN_OUT` (43_channel_pipeline.md R225). -/
theorem gained_crossfade_nanOut {prev : List Word} (hprev : prev.length = s.cfg.n) :
    gained s.cfg s.frame (crossfade s.cfg s.frame (List.replicate s.cfg.n s.cfg.nanOut) prev)
      = List.replicate s.cfg.n s.cfg.nanOut := by
  have hnan := State.wf_isNaN_nanOut h
  obtain ⟨-, hmix, hgain⟩ := State.wf_frame h
  rw [gained, crossfade, zipWith_replicate_of_absorbs (F32.mul_of_isNaN_left hnan) hmix.ge,
    zipWith_replicate_of_absorbs (F32.add_of_isNaN_left hnan) (by simp [hprev, hmix]),
    zipWith_replicate_of_absorbs (F32.mul_of_isNaN_left hnan) hgain.ge]

/-- The coefficients of a cycle whose transform input is not finite are NaNs, so some is not finite. -/
theorem cycleCoeffs_nonFinite (d : Nat) {k : Channel}
    (hbad : ∃ w ∈ k.hist ++ driven s.cfg s.frame k.io, F32.isFinite w = false) :
    ∃ w ∈ cycleCoeffs s.cfg s.frame d k, F32.isFinite w = false := by
  have hnan := State.wf_isNaN_nanOut h
  have hall : ∀ x ∈ cycleCoeffs s.cfg s.frame d k, F32.isNaN x = true := by
    refine distortStage_isNaN hnan _ _ _ fun x hx => ?_
    rw [olaFwd, fwdM, transform_of_nonFinite href hbad] at hx
    rw [List.eq_of_mem_replicate hx, hnan]
  have hlen : 0 < (cycleCoeffs s.cfg s.frame d k).length := by
    simpa [cycleCoeffs, olaFwd] using (State.wf_m h).2
  exact ⟨_, List.getElem_mem hlen, F32.not_isFinite_of_isNaN (hall _ (List.getElem_mem hlen))⟩

/-- A cycle whose history or driven block is not finite (R133, 43_channel_pipeline.md R224). -/
theorem cycle_of_nonFinite (d : Nat) {k : Channel} (hk : Channel.wf s.cfg k = true)
    (hbad : ∃ w ∈ k.hist ++ driven s.cfg s.frame k.io, F32.isFinite w = false) :
    cycle s.cfg s.frame d k = nanChannel s k := by
  obtain ⟨-, -, htail, hdry⟩ := Channel.wf_lengths hk
  have hcoeffs := cycleCoeffs_nonFinite h href d hbad
  rw [cycle, olaInv_of_nonFinite h href hcoeffs htail, olaTail_of_nonFinite h href hcoeffs,
    gained_crossfade_nanOut h hdry, nanChannel]

end NanCycle

theorem length_driven {s : State} (h : s.wf = true) {k : Channel} (hk : Channel.wf s.cfg k = true) :
    (driven s.cfg s.frame k.io).length = s.cfg.n := by
  simp [driven, (Channel.wf_lengths hk).1, (State.wf_frame h).1]

/-- `d[i] = fl(x[i] * DRIVE[i])` (43_channel_pipeline.md R226). -/
theorem elem_driven {s : State} (h : s.wf = true) {k : Channel} (hk : Channel.wf s.cfg k = true) {i : Nat}
    (hi : i < s.cfg.n) :
    elem (driven s.cfg s.frame k.io) i = F32.mul s.cfg.nanOut (elem k.io i) (elem s.frame.drive i) :=
  elem_zipWith _ _ _ _ (by rwa [(Channel.wf_lengths hk).1]) (by rwa [(State.wf_frame h).1])

/-- `PROC_BLOCK` with legal operands runs the cycle on its channel and ends with `NORMAL`
(43_channel_pipeline.md R226, R230). -/
theorem exec_procBlock_of_legal {s : State} (h : s.wf = true) {ch : Nat} (hch : ch < s.cfg.c) :
    ∃ t, exec (.procBlock ch s.cfg.n) s = .next t ∧ t.code = .normal
      ∧ channelAt t ch = cycle s.cfg s.frame s.draws (channelAt s ch) := by
  have hlt : ch < s.channels.length := by rwa [State.wf_channels h]
  refine ⟨{ channelCycle ch s with code := .normal }, ?_, rfl, ?_⟩
  · exact congrArg _ (checked_none (blockError_eq_none.mpr ⟨hch, rfl⟩))
  · exact (channelAt_channelCycle ch ch hlt).trans (if_pos rfl)

/-- `PROC_BLOCK` on a channel whose history or driven block holds an infinity or a NaN (43_channel_pipeline.md R224). -/
theorem exec_procBlock_of_nonFinite {s : State} {ch : Nat} (h : s.wf = true) (href : s.cfg.transform = .refCr)
    (hch : ch < s.cfg.c) (hbad : ∃ i < s.cfg.n, F32.isFinite (elem (channelAt s ch).hist i) = false
      ∨ F32.isFinite (F32.mul s.cfg.nanOut (elem (channelAt s ch).io i) (elem s.frame.drive i)) = false) :
    ∃ t, exec (.procBlock ch s.cfg.n) s = .next t ∧ t.code = .normal
      ∧ channelAt t ch = nanChannel s (channelAt s ch) := by
  obtain ⟨t, ht, hcode, hcycle⟩ := exec_procBlock_of_legal h hch
  have hk := channelAt_wf h hch
  refine ⟨t, ht, hcode, hcycle.trans (cycle_of_nonFinite h href _ hk ?_)⟩
  obtain ⟨i, hi, hhist | hdriven⟩ := hbad
  · exact ⟨_, List.mem_append_left _ (elem_mem (by rwa [(Channel.wf_lengths hk).2.1])), hhist⟩
  · refine ⟨_, List.mem_append_right _ (elem_mem (i := i) (by rwa [length_driven h hk])), ?_⟩
    rwa [elem_driven h hk hi]

/-- `RESET` clears the Channel State of every channel (44_system.md R252). -/
theorem exec_reset_channelAt {s : State} {ch : Nat} (hch : ch < s.channels.length) :
    ∃ u, exec .reset s = .next u ∧ channelAt u ch = clearChannel s.cfg (channelAt s ch) :=
  ⟨_, rfl, by simp [channelAt, complete, hch]⟩

/-- Settles O31: a transform by `transform_of_nonFinite`, a cycle by `cycle_of_nonFinite`, and a block of NaNs drives to
`NAN_OUT`, so its cycle is one of these. -/
theorem nonFiniteInputGivesNanOut : Obligations.NonFiniteInputGivesNanOut := by
  refine ⟨fun s href hbad => ?_, fun s ch h href hch hbad => ?_, fun s ch h href hch hnan => ?_⟩
  · rw [exec_dctFwd, exec_dctInv, fwdM, invM, transform_of_nonFinite href hbad, transform_of_nonFinite href hbad]
    exact ⟨rfl, rfl⟩
  · obtain ⟨t, ht, hcode, hcycle⟩ := exec_procBlock_of_nonFinite h href hch hbad
    have hk := channelAt_wf h hch
    refine ⟨t, ht, hcode, ?_⟩
    rw [hcycle]
    exact ⟨rfl, rfl, rfl, length_driven h hk, fun i hi => elem_driven h hk hi⟩
  · have hout := State.wf_isNaN_nanOut h
    have hn : 0 < s.cfg.n := by have := (State.wf_m h).2; rw [Config.m] at this; omega
    obtain ⟨t, ht, -, hcycle⟩ := exec_procBlock_of_nonFinite h href hch
      ⟨0, hn, .inr (by rw [F32.mul_of_isNaN_left (hnan 0 hn), F32.not_isFinite_of_isNaN hout])⟩
    have hcfg := exec_cfg ht
    obtain ⟨u, hu, hclear⟩ := exec_reset_channelAt (s := t) (ch := ch)
      (by rwa [State.wf_channels (exec_wf ht h), hcfg])
    refine ⟨t, u, ht, hu, fun i hi => ?_, ?_⟩
    · rw [hcycle]
      exact ⟨by rw [nanChannel, elem_replicate _ hi, hout], by rw [nanChannel, elem_replicate _ hi, hout]⟩
    · rw [hclear, hcfg]
      rfl

end Sys2Proof.Machine
end

section
/-! PROOFS. The overlap-add wrapper (41_overlap_add.md): the default window against the sine square, and the commands `MDCT` and
`IMDCT` on legal operands. -/

namespace Sys2Proof

/-! ### A check of the rounding without a logarithm -/

/-- A real within half a step of the significand `k` of binade `q` rounds to that code. -/
theorem F32.roundsTo_of_cell {x : ℝ} {q k : Nat} (hk : 2 ^ 23 < k) (hk' : k < 2 ^ 24)
    (hlo : 2 * k * 2 ^ q < 2 * x + 2 ^ q) (hhi : 2 * x < 2 * k * 2 ^ q + 2 ^ q) :
    F32.RoundsTo x (min F32.infMag (q * 2 ^ 23 + k)) := by
  obtain ⟨j, rfl⟩ := Nat.exists_eq_add_one_of_ne_zero (n := k) (by omega)
  have hcode (i : Nat) (hi : i ≤ 2) : F32.codeUnits (q * 2 ^ 23 + (j + i)) = (j + i) * 2 ^ q :=
    F32.codeUnits_binade (by omega) (by omega)
  have hstep : (0 : ℝ) < 2 ^ q := by positivity
  push_cast at hlo hhi
  rcases lt_or_ge x ((j + 1) * 2 ^ q) with hx | hx
  · refine ⟨q * 2 ^ 23 + (j + 0), ?_⟩
    rw [Nat.add_assoc (q * 2 ^ 23), Nat.add_assoc j, hcode 0 (by omega), hcode 1 (by omega)]
    push_cast
    refine ⟨by linarith, by linarith, ?_⟩
    rw [if_neg (by rintro (h | ⟨h, -⟩) <;> linarith)]
  · refine ⟨q * 2 ^ 23 + (j + 1), ?_⟩
    rw [Nat.add_assoc (q * 2 ^ 23), Nat.add_assoc j, hcode 1 (by omega), hcode 2 (by omega)]
    push_cast
    exact ⟨by linarith, by linarith, by rw [if_pos (.inl (by linarith))]⟩

/-- A square in units of `2^-256` within half a step of significand `k` of binade `q` rounds to that code. -/
theorem Window.roundMag_square {t q k : Nat} (hk : 2 ^ 23 < k) (hk' : k < 2 ^ 24)
    (hlo : 2 * k * 2 ^ (107 + q) < 2 * (t * t) + 2 ^ (107 + q)) (hhi : 2 * (t * t) < 2 * k * 2 ^ (107 + q) + 2 ^ (107 + q)) :
    F32.roundMag (t * t * 2 ^ 149) (2 ^ 256) = min F32.infMag (q * 2 ^ 23 + k) := by
  have hunits : ((t * t * 2 ^ 149 : ℕ) : ℝ) / (2 ^ 256 : ℕ) = t * t / 2 ^ 107 := by
    push_cast
    ring
  rify [pow_add] at hlo hhi
  refine (F32.roundMag_roundsTo _ _ (by positivity)).unique (F32.roundsTo_of_cell hk hk' ?_ ?_) <;>
    rw [hunits] <;> linarith

/-- The largest `q` below the bound with `2^(130+q) ≤ y`: the binade of a square `y` in units of `2^-256`. -/
def Window.binade (y : Nat) : Nat → Nat
  | 0 => 0
  | q + 1 => if 2 ^ (130 + q) ≤ y then q else Window.binade y q

/-- Whether `(s - 64)²` and `(s + 64)²` lie within half a step of one significand `k` of one binade `q`. -/
def Window.inCell (s q k : Nat) : Bool :=
  decide (2 ^ 23 < k) && decide (k < 2 ^ 24)
    && decide (2 * k * 2 ^ (107 + q) < 2 * ((s - 64) * (s - 64)) + 2 ^ (107 + q))
    && decide (2 * ((s + 64) * (s + 64)) < 2 * k * 2 ^ (107 + q) + 2 ^ (107 + q))

/-- `Window.inCell` for the cell of `s²`. -/
def Window.inOwnCell (s : Nat) : Bool :=
  let q := Window.binade (s * s) 128
  Window.inCell s q ((s * s / 2 ^ (106 + q) + 1) / 2)

theorem Window.settled_of_inCell {m i q k : Nat} (h : Window.inCell (Window.sinFix i (2 * m + 1)) q k = true) :
    Window.settled m i = true := by
  simp only [Window.inCell, Bool.and_eq_true, decide_eq_true_eq] at h
  obtain ⟨⟨⟨hk, hk'⟩, hlo⟩, hhi⟩ := h
  have hle := Nat.mul_self_le_mul_self (show Window.sinFix i (2 * m + 1) - 64 ≤ Window.sinFix i (2 * m + 1) + 64 by omega)
  rw [Window.settled, Window.roundMag_square hk hk' hlo (by omega), Window.roundMag_square hk hk' (by omega) hhi,
    beq_self_eq_true]

/-! ### The check, evaluated for every legal block length -/

/-- The sum of the sine series with its positive terms gathered in `p` and its negative ones in `n`, two terms at a time: the
kernel evaluates naturals faster than `Window.sinTail`'s integers. -/
def Window.sinGather (x2 : Nat) : (fuel k t p n : Nat) → Nat
  | 0, _, _, p, n => p - n
  | fuel + 1, k, t, p, n =>
    let u := t * x2 / 2 ^ 256 / ((2 * k + 2) * (2 * k + 3))
    Window.sinGather x2 fuel (k + 2) (u * x2 / 2 ^ 256 / ((2 * (k + 1) + 2) * (2 * (k + 1) + 3))) (p + t) (n + u)

theorem Window.sinGather_eq (x2 fuel k t p n : Nat) :
    Window.sinGather x2 fuel k t p n = (p - n + Window.sinTail x2 (2 * fuel) k t).toNat := by
  induction fuel generalizing k t p n with
  | zero => simp [Window.sinGather, Window.sinTail]
  | succ fuel ih =>
    rw [Window.sinGather, ih, show 2 * (fuel + 1) = 2 * fuel + 1 + 1 from rfl, Window.sinTail, Window.sinTail]
    push_cast
    congr 1
    ring

theorem Window.sinFix_eq_sinGather (i d : Nat) :
    Window.sinFix i d = Window.sinGather ((Window.pi128 * i / d) * (Window.pi128 * i / d)) 12 0 (Window.pi128 * i / d) 0 0 := by
  simp [Window.sinGather_eq, Window.sinFix]

/-- No element of a default window but the exact zero lies near a rounding boundary (log entry 9), by evaluation. -/
theorem Window.all_inOwnCell : ∀ n ∈ [2, 4, 8, 16, 32, 64, 128, 256, 512, 1024, 2048],
    (List.range (2 * n)).all (fun i => i == 0 || Window.inOwnCell (Window.sinFix i (2 * (2 * n) + 1))) = true := by
  simp only [Window.sinFix_eq_sinGather]
  decide +kernel

/-! ### The default window -/

theorem Window.elem_wDoc {m i : Nat} (hi : i < m) : elem (Window.wDoc m) i = Window.wDocElem m i := by
  simp [elem, Window.wDoc, hi]

theorem Window.wDocElem_zero (m : Nat) : Window.wDocElem m 0 = F32.posZero := by
  rw [Window.wDocElem, Window.sinFix, Nat.mul_zero, Nat.zero_div]
  decide +kernel

theorem Window.isRnd32_wDocElem {n : Nat} (hn : n ∈ [2, 4, 8, 16, 32, 64, 128, 256, 512, 1024, 2048]) {i : Nat}
    (hi : i < 2 * n) : IsRnd32 (Real.sin (Real.pi * i / (2 * (2 * n : ℕ) + 1)) ^ 2) (Window.wDocElem (2 * n) i) := by
  rcases Nat.eq_zero_or_pos i with rfl | hpos
  · simp [Window.wDocElem_zero, isRnd32_zero_iff]
  · have hcheck := List.all_eq_true.mp (Window.all_inOwnCell n hn) i (List.mem_range.mpr hi)
    rw [Bool.or_eq_true, beq_iff_eq] at hcheck
    exact Window.isRnd32_of_settled _ _ hi hpos (Window.settled_of_inCell (hcheck.resolve_left hpos.ne'))

/-- Settles O34: the zeroth element is the exact zero, and for every other one the two ends of the error bound of the fixed-point
sine round alike. -/
theorem defaultWindowCorrectlyRounded : Obligations.DefaultWindowCorrectlyRounded := fun n hn curves => by
  refine ⟨by simp [Config.standard, Window.wDoc], fun i hi => ?_⟩
  rw [Config.standard, Window.elem_wDoc hi]
  simpa using Window.isRnd32_wDocElem hn hi

end Sys2Proof

namespace Sys2Proof.Machine

/-! ### The commands on legal operands -/

section LegalOperands

variable {s : State} {ch : Nat}

theorem exec_mdct_of_legal (hch : ch < s.cfg.c) :
    exec (.mdct ch s.cfg.n) s = .next { mdctBody ch s with code := .normal } :=
  congrArg _ (checked_none (blockError_eq_none.mpr ⟨hch, rfl⟩))

theorem exec_imdct_of_legal (hch : ch < s.cfg.c) :
    exec (.imdct ch s.cfg.n) s = .next { imdctBody ch s with code := .normal } :=
  congrArg _ (checked_none (blockError_eq_none.mpr ⟨hch, rfl⟩))

/-- `MDCT` replaces channel `ch` and touches no other (41_overlap_add.md R170). -/
theorem channelAt_mdctBody (hlt : ch < s.channels.length) (c : Nat) :
    channelAt (mdctBody ch s) c
      = if c = ch then { channelAt s ch with hist := (channelAt s ch).io } else channelAt s c := by
  rw [mdctBody, channelAt_setChannel]
  simp [hlt, channelAt]

/-- `IMDCT` replaces channel `ch` and touches no other (41_overlap_add.md R171). -/
theorem channelAt_imdctBody (hlt : ch < s.channels.length) (c : Nat) :
    channelAt (imdctBody ch s) c
      = if c = ch then
          { channelAt s ch with io := olaInv s.cfg (channelAt s ch).tail s.vec, tail := olaTail s.cfg s.vec }
        else channelAt s c := by
  rw [imdctBody, channelAt_setChannel]
  simp [hlt]

end LegalOperands

/-- Settles O35: the check passes, so `MDCT` is its body, which replaces `VEC` and one channel. -/
theorem mdctTransformsHistoryAndBlock : Obligations.MdctTransformsHistoryAndBlock := by
  rintro s ch _ h hch rfl
  have hlt : ch < s.channels.length := by rwa [State.wf_channels h]
  refine ⟨_, exec_mdct_of_legal hch, rfl, ?_, fun c hc => ?_, by simp [mdctBody], rfl⟩
  · exact (channelAt_mdctBody hlt ch).trans (if_pos rfl)
  · exact (channelAt_mdctBody hlt c).trans (if_neg hc)

/-- Settles O36: the check passes, so `IMDCT` is its body, which replaces one channel; its block and its tail are R158's element
by element. -/
theorem imdctWindowsAndOverlaps : Obligations.ImdctWindowsAndOverlaps := by
  rintro s ch _ h hch rfl
  have hlt : ch < s.channels.length := by rwa [State.wf_channels h]
  obtain ⟨-, -, htail, -⟩ := Channel.wf_lengths (channelAt_wf h hch)
  have hself : channelAt { imdctBody ch s with code := .normal } ch = _ := (channelAt_imdctBody hlt ch).trans (if_pos rfl)
  refine ⟨_, exec_imdct_of_legal hch, ?_⟩
  rw [hself]
  refine ⟨by simp [State.wf_window h, htail], by simp [State.wf_window h], fun i hi => ?_, rfl, rfl, fun c hc => ?_,
    by simp [imdctBody], rfl⟩
  · exact ⟨elem_olaInv h _ _ htail i hi, elem_olaTail h _ i hi⟩
  · exact (channelAt_imdctBody hlt c).trans (if_neg hc)

end Sys2Proof.Machine
end

section
/-! PROOFS. The distortion stage (42_distortion.md): the order and the rounding of binary32 values it rests on, the clamp, the
curves of a legal build, and the commands `CRUNCH`, `CRUSH` and `DISTORT`. -/

namespace Sys2Proof

/-! ### The order of binary32 values -/

theorem F32.le_iff {a b : Word} :
    F32.le a b = true ↔ F32.isNaN a = false ∧ F32.isNaN b = false ∧ F32.key a ≤ F32.key b := by
  simp [F32.le, and_assoc]

theorem F32.lt_iff {a b : Word} :
    F32.lt a b = true ↔ F32.isNaN a = false ∧ F32.isNaN b = false ∧ F32.key a < F32.key b := by
  simp [F32.lt, and_assoc]

/-- Where neither operand is a NaN, one of the two comparisons holds. -/
theorem F32.le_of_not_lt {a b : Word} (ha : F32.isNaN a = false) (hb : F32.isNaN b = false)
    (h : ¬ F32.lt a b = true) : F32.le b a = true := by
  rw [F32.lt_iff] at h
  exact F32.le_iff.mpr ⟨hb, ha, not_lt.mp fun hlt => h ⟨ha, hb, hlt⟩⟩

theorem F32.not_lt_of_le {a b : Word} (h : F32.le a b = true) : ¬ F32.lt b a = true := fun hlt =>
  (F32.lt_iff.mp hlt).2.2.not_ge (F32.le_iff.mp h).2.2

theorem F32.key_of_isZero {w : Word} (h : F32.isZero w = true) : F32.key w = 0 := by
  simp_all [F32.isZero, F32.key]

theorem F32.abs_key (w : Word) : |F32.key w| = F32.mag w := by
  unfold F32.key
  split <;> simp

/-- The values above `+0.0` have a clear sign bit and a nonzero magnitude. -/
theorem F32.posZero_lt_iff {w : Word} :
    F32.lt F32.posZero w = true ↔ F32.isNaN w = false ∧ F32.sign w = false ∧ F32.isZero w = false := by
  have hnan : F32.isNaN F32.posZero = false := by decide
  rw [F32.lt_iff, F32.key_of_isZero (w := F32.posZero) (by decide), F32.key, F32.isZero]
  cases F32.sign w <;> simp [hnan, Nat.pos_iff_ne_zero]

/-- A control value in `(0, 1]` is no zero, so a stage evaluates its curves there. -/
theorem F32.not_eq_posZero_of_inUnit {x : Word} (h : F32.inUnit x = true) : F32.eq x F32.posZero = false := by
  simp only [F32.inUnit, Bool.and_eq_true, F32.lt_iff] at h
  simp [F32.eq, h.1.2.2.ne']

/-! ### Values and their signs -/

theorem F32.isFinite_iff_abs_toRat_lt (w : Word) : F32.isFinite w = true ↔ |F32.toRat w| < 2 ^ 128 := by
  have hcode : F32.codeUnits F32.infMag = 2 ^ 128 * 2 ^ 149 := by decide
  rw [F32.isFinite_iff, F32.abs_toRat, div_lt_iff₀ (by positivity), ← F32.codeUnits_strictMono.lt_iff_lt, hcode]
  norm_cast

/-- A word is its sign and its value's magnitude. -/
theorem F32.ext_sign_toRat {a b : Word} (hs : F32.sign a = F32.sign b) (h : F32.toRat a = F32.toRat b) : a = b := by
  have habs := congrArg abs h
  rw [F32.abs_toRat, F32.abs_toRat, div_left_inj' (by positivity), Nat.cast_inj, F32.codeUnits_inj] at habs
  rw [← F32.pack_sign_mag a, hs, habs, F32.pack_sign_mag]

/-- A nonzero finite value is its own rounding. -/
theorem isRnd32_toRat {w : Word} (hf : F32.isFinite w = true) (hz : F32.isZero w = false) :
    IsRnd32 ((F32.toRat w : ℚ) : ℝ) w := by
  have hne : F32.toRat w ≠ 0 := by simp [F32.toRat_eq_zero, hz]
  have hrnd := isRnd32_pack_roundMag hne one_pos (num := F32.codeUnits (F32.mag w))
    (by rw [F32.abs_toRat, div_mul_cancel₀ _ (by positivity), Nat.cast_one, div_one])
  rwa [F32.roundMag_codeUnits ((F32.isFinite_iff w).mp hf).le, ← F32.sign_eq_decide_toRat hne, F32.pack_sign_mag] at hrnd

/-- A product that is not a NaN has the exclusive or of the signs. -/
theorem F32.sign_mul {nan a b : Word} (hnan : F32.isNaN nan = true) (h : F32.isNaN (F32.mul nan a b) = false) :
    F32.sign (F32.mul nan a b) = (F32.sign a != F32.sign b) := by
  unfold F32.mul at h ⊢
  dsimp only at h ⊢
  split_ifs at h ⊢
  · simp [hnan] at h
  · simp [hnan] at h
  · exact F32.sign_pack (by decide)
  · exact F32.sign_pack (F32.roundMag_lt _ _)

/-- A zero divided by a nonzero finite value. -/
theorem F32.div_of_isZero_left {nan a b : Word} (ha : F32.isZero a = true) (hb : F32.isFinite b = true)
    (hb0 : F32.isZero b = false) : F32.div nan a b = F32.pack (F32.sign a != F32.sign b) 0 := by
  have hb1 : F32.units b ≠ 0 := by simpa [F32.units_eq_zero, F32.isZero] using hb0
  have ha0 : F32.units a = 0 := by simpa [F32.units_eq_zero, F32.isZero] using ha
  rw [F32.div_units (F32.isFinite_of_isZero ha) hb hb0, ha0, Int.natAbs_zero, Nat.zero_mul,
    F32.roundMag_zero _ (Int.natAbs_pos.mpr hb1)]

/-! ### Products under a bound -/

theorem F32.roundMag_mono {n m d : Nat} (hd : 0 < d) (h : n ≤ m) : F32.roundMag n d ≤ F32.roundMag m d :=
  (F32.roundMag_roundsTo n d hd).mono (F32.roundMag_roundsTo m d hd) (by gcongr)

theorem F32.mag_abs (w : Word) : F32.mag (w &&& 0x7FFFFFFF#32) = F32.mag w := by
  have h : (0x7FFFFFFF#32).toNat = 2 ^ 31 - 1 := rfl
  rw [F32.mag, BitVec.toNat_and, h, Nat.and_two_pow_sub_one_eq_mod, Nat.mod_mod, F32.mag]

theorem F32.sign_abs (w : Word) : F32.sign (w &&& 0x7FFFFFFF#32) = false := by
  rw [F32.sign, BitVec.toNat_and, Nat.testBit_and, show (0x7FFFFFFF#32).toNat.testBit 31 = false by decide, Bool.and_false]

theorem F32.mag_mul {nan a b : Word} (ha : F32.isFinite a = true) (hb : F32.isFinite b = true) :
    F32.mag (F32.mul nan a b) = F32.roundMag (F32.codeUnits (F32.mag a) * F32.codeUnits (F32.mag b)) (2 ^ 149) := by
  rw [F32.mul_units ha hb, F32.mag_pack (F32.roundMag_lt _ _), Int.natAbs_mul, F32.natAbs_units, F32.natAbs_units]

/-- Multiplication is monotonic: a smaller magnitude times `g` is no larger than the larger one times `g`
(42_distortion.md R183). -/
theorem F32.abs_mul_le {nan c b g : Word} (hb : F32.isFinite b = true) (hg : F32.isFinite g = true)
    (hcb : F32.mag c ≤ F32.mag b) (hs : F32.sign b = F32.sign g) :
    F32.le (F32.mul nan c g &&& 0x7FFFFFFF#32) (F32.mul nan b g) = true := by
  have hc : F32.isFinite c = true := by rw [F32.isFinite_iff] at hb ⊢; omega
  have hsign : F32.sign (F32.mul nan b g) = false := by
    rw [F32.mul_units hb hg, F32.sign_pack (F32.roundMag_lt _ _), hs, bne_self_eq_false]
  have hmag : F32.mag (F32.mul nan c g) ≤ F32.mag (F32.mul nan b g) := by
    rw [F32.mag_mul hc hg, F32.mag_mul hb hg]
    exact F32.roundMag_mono (by positivity) (Nat.mul_le_mul_right _ (F32.codeUnits_strictMono.monotone hcb))
  have hinf : F32.mag (F32.mul nan b g) ≤ F32.infMag := by
    rw [F32.mag_mul hb hg]; exact F32.roundMag_le _ _
  rw [F32.le_iff, F32.isNaN_eq_false_iff, F32.isNaN_eq_false_iff, F32.key, F32.key, F32.sign_abs, hsign, F32.mag_abs]
  exact ⟨hmag.trans hinf, hinf, by simpa using hmag⟩

/-! ### `round_half_away` at the ends of its range -/

/-- A value below one half rounds to a zero of its sign. -/
theorem F32.roundHalfAway_of_abs_lt_half {t : Word} (h : |F32.toRat t| < 1 / 2) :
    F32.roundHalfAway t = F32.pack (F32.sign t) 0 := by
  have hmag := (F32.mag_lt_iff_abs_toRat_lt t).mpr (h.trans (by norm_num))
  have hunits : F32.codeUnits (F32.mag t) < 2 ^ 148 := by
    rw [F32.abs_toRat, div_lt_iff₀ (by positivity)] at h
    have h' : (F32.codeUnits (F32.mag t) : ℚ) < 2 ^ 148 := by linarith
    exact_mod_cast h'
  have hint : (2 * F32.codeUnits (F32.mag t) + 2 ^ 149) / 2 ^ 150 = 0 := by omega
  rw [F32.roundHalfAway, if_pos hmag, hint, Nat.zero_mul, F32.roundMag_zero 1 one_pos]

/-- Below `2^23` the result is a finite integer of magnitude at most `2^23`. -/
theorem F32.exists_int_roundHalfAway {t : Word} (hf : F32.isFinite t = true) (h : |F32.toRat t| < 2 ^ 23) :
    ∃ n : ℤ, |n| ≤ 2 ^ 23 ∧ F32.toRat (F32.roundHalfAway t) = n ∧ F32.isFinite (F32.roundHalfAway t) = true := by
  obtain ⟨n, hn, hdist, -⟩ := (roundHalfAwayNearest t).1 hf h
  have hlt : |(n : ℚ)| < 2 ^ 23 + 1 := by
    have htri := abs_sub_abs_le_abs_sub (n : ℚ) (F32.toRat t)
    rw [abs_sub_comm] at htri
    linarith
  have hle : |n| ≤ 2 ^ 23 := Int.lt_add_one_iff.mp (by exact_mod_cast hlt)
  exact ⟨n, hle, hn, (F32.isFinite_iff_abs_toRat_lt _).mpr (by rw [hn]; linarith)⟩

end Sys2Proof

namespace Sys2Proof.Machine

/-! ### The clamp (R181) -/

theorem clamp_of_lt {c lo : Word} (h : F32.lt c lo = true) (hi : Word) : clamp c lo hi = lo := if_pos h

/-- A coefficient that neither comparison selects is returned. -/
theorem clamp_of_not_lt {c lo hi : Word} (hlo : ¬ F32.lt c lo = true) (hhi : ¬ F32.lt hi c = true) :
    clamp c lo hi = c := by
  rw [clamp, if_neg hlo, if_neg hhi]

theorem clamp_of_isNaN {c : Word} (h : F32.isNaN c = true) (lo hi : Word) : clamp c lo hi = c :=
  clamp_of_not_lt (by simp [F32.lt, h]) (by simp [F32.lt, h])

theorem clamp_of_isNaN_bound (c : Word) {b : Word} (h : F32.isNaN b = true) : clamp c (F32.neg b) b = c :=
  clamp_of_not_lt (by simp [F32.lt, h]) (by simp [F32.lt, h])

theorem clamp_of_le {c lo hi : Word} (hlo : F32.le lo c = true) (hhi : F32.le c hi = true) : clamp c lo hi = c :=
  clamp_of_not_lt (F32.not_lt_of_le hlo) (F32.not_lt_of_le hhi)

theorem clamp_eq_operand (c lo hi : Word) : clamp c lo hi = c ∨ clamp c lo hi = lo ∨ clamp c lo hi = hi := by
  unfold clamp
  split_ifs <;> simp

/-- A coefficient that is not a NaN is clamped between ordered bounds. -/
theorem le_clamp_and_clamp_le {c lo hi : Word} (hc : F32.isNaN c = false) (h : F32.le lo hi = true) :
    F32.le lo (clamp c lo hi) = true ∧ F32.le (clamp c lo hi) hi = true := by
  obtain ⟨hlo, hhi, -⟩ := F32.le_iff.mp h
  unfold clamp
  split_ifs with h1 h2
  · exact ⟨F32.le_iff.mpr ⟨hlo, hlo, le_rfl⟩, h⟩
  · exact ⟨h, F32.le_iff.mpr ⟨hhi, hhi, le_rfl⟩⟩
  · exact ⟨F32.le_of_not_lt hc hlo h1, F32.le_of_not_lt hhi hc h2⟩

/-- A bound that is not negative orders `-b` and `b`. -/
theorem neg_le_self_of_key_nonneg {b : Word} (hb : F32.isNaN b = false) (h : 0 ≤ F32.key b) :
    F32.le (F32.neg b) b = true :=
  F32.le_iff.mpr ⟨by rwa [F32.isNaN_neg], hb, by rw [F32.key_neg]; omega⟩

/-- A value in `[-b, b]` has at most `b`'s magnitude. -/
theorem mag_le_of_neg_le_of_le {c b : Word} (hlo : F32.le (F32.neg b) c = true) (hhi : F32.le c b = true) :
    F32.mag c ≤ F32.mag b := by
  have hlo := (F32.le_iff.mp hlo).2.2
  rw [F32.key_neg] at hlo
  have habs := (abs_le.mpr ⟨hlo, (F32.le_iff.mp hhi).2.2⟩).trans (le_abs_self (F32.key b))
  rw [F32.abs_key, F32.abs_key] at habs
  exact_mod_cast habs

/-- Settles O39: the comparisons with a NaN are false, and a zero is neither below nor above bounds around it. -/
theorem clampReturnsAnOperand : Obligations.ClampReturnsAnOperand := by
  refine fun c b => ⟨clamp_eq_operand .., fun h => clamp_of_isNaN h .., clamp_of_isNaN_bound c, fun h => clamp_of_lt h _,
    fun hb hc => ?_⟩
  have hcnan := F32.not_isNaN_of_isFinite (F32.isFinite_of_isZero hc)
  have hckey := F32.key_of_isZero hc
  obtain ⟨-, hbnan, hbkey⟩ := F32.le_iff.mp hb
  rw [F32.key_of_isZero (w := F32.posZero) (by decide)] at hbkey
  refine clamp_of_le (F32.le_iff.mpr ⟨by rwa [F32.isNaN_neg], hcnan, ?_⟩) (F32.le_iff.mpr ⟨hcnan, hbnan, ?_⟩)
  · rw [F32.key_neg, hckey]; omega
  · rwa [hckey]

/-! ### The curves of a legal build (R182, R185, R186) -/

/-- The value of any curve is above `+0.0`: `G`'s because it is at least 1. -/
theorem posZero_lt_of_curveConforms {k : Curve} {v : Word} (h : curveConforms k v = true) :
    F32.lt F32.posZero v = true := by
  cases k with
  | b | q | gz => exact (Bool.and_eq_true_iff.mp h).2
  | g =>
    obtain ⟨-, hnan, hkey⟩ := F32.le_iff.mp (Bool.and_eq_true_iff.mp h).2
    exact F32.lt_iff.mpr ⟨by decide, hnan, lt_of_lt_of_le (by decide) hkey⟩

theorem curveIn_isFinite {cfg : Config} (h : cfg.wf = true) (k : Curve) {x : Word} (hx : F32.inUnit x = true) :
    F32.isFinite (curveIn cfg k x) = true :=
  curveConforms_finite (curveConforms_curveIn h k hx)

theorem posZero_lt_curveIn {cfg : Config} (h : cfg.wf = true) (k : Curve) {x : Word} (hx : F32.inUnit x = true) :
    F32.lt F32.posZero (curveIn cfg k x) = true :=
  posZero_lt_of_curveConforms (curveConforms_curveIn h k hx)

theorem one_le_curveIn_g {cfg : Config} (h : cfg.wf = true) {x : Word} (hx : F32.inUnit x = true) :
    F32.le F32.one (curveIn cfg .g x) = true :=
  (Bool.and_eq_true_iff.mp (curveConforms_curveIn h .g hx)).2

/-- `Q_MIN` is the least value of `Q` (R186, item 4). -/
theorem qMin_le_curveIn {cfg : Config} (h : cfg.wf = true) {x : Word} (hx : F32.inUnit x = true) :
    F32.le (qMin cfg) (curveIn cfg .q x) = true :=
  curveOrder_curveIn h .q (by decide) (Bool.and_eq_true_iff.mp hx).2

/-- The control values in `(0, 1]` denote different reals. -/
theorem injOn_toRat_inUnit : Set.InjOn (fun x : Word => ((F32.toRat x : ℚ) : ℝ)) {x | F32.inUnit x = true} := by
  intro x hx y hy hxy
  have hsign (z : Word) (hz : F32.inUnit z = true) : F32.sign z = false :=
    (F32.posZero_lt_iff.mp (Bool.and_eq_true_iff.mp hz).1).2.1
  exact F32.ext_sign_toRat ((hsign x hx).trans (hsign y hy).symm) (Rat.cast_injective hxy)

/-- Through finitely many points runs a polynomial, so any values at the controls in `(0, 1]` are those of a continuous
function (R182 item 5, R186 item 3, log entry 3). -/
theorem exists_continuous_eq_on_inUnit (r : Word → ℝ) :
    ∃ f : ℝ → ℝ, Continuous f ∧ ∀ x, F32.inUnit x = true → f ((F32.toRat x : ℚ) : ℝ) = r x := by
  have hfin : {x : Word | F32.inUnit x = true}.Finite := Set.toFinite _
  refine ⟨fun t => (Lagrange.interpolate hfin.toFinset (fun x : Word => ((F32.toRat x : ℚ) : ℝ)) r).eval t,
    Polynomial.continuous _, fun x hx => ?_⟩
  have hinj : Set.InjOn (fun x : Word => ((F32.toRat x : ℚ) : ℝ)) hfin.toFinset := by
    rw [hfin.coe_toFinset]; exact injOn_toRat_inUnit
  exact Lagrange.eval_interpolate_at_node r hinj (hfin.mem_toFinset.mpr hx)

/-- Settles O60: limits and order from the legality of the pieces, and each curve by the polynomial through its values. -/
theorem curvesKeepTheirRules : Obligations.CurvesKeepTheirRules := by
  refine fun cfg h => ⟨fun x hx => ⟨⟨curveIn_isFinite h .b hx, posZero_lt_curveIn h .b hx⟩,
      ⟨curveIn_isFinite h .g hx, one_le_curveIn_g h hx⟩, ⟨curveIn_isFinite h .q hx, posZero_lt_curveIn h .q hx⟩,
      curveIn_isFinite h .gz hx, posZero_lt_curveIn h .gz hx⟩,
    fun x y _ hy hxy => ⟨curveOrder_curveIn h .b hy hxy, curveOrder_curveIn h .g hy hxy, curveOrder_curveIn h .q hy hxy⟩,
    fun x hx => qMin_le_curveIn h hx, fun k _ => ?_⟩
  obtain ⟨f, hcont, hf⟩ := exists_continuous_eq_on_inUnit fun x => ((F32.toRat (curveIn cfg k x) : ℚ) : ℝ)
  refine ⟨f, hcont.continuousOn, fun x hx => ?_⟩
  rw [hf x hx]
  exact isRnd32_toRat (curveIn_isFinite h k hx) (F32.posZero_lt_iff.mp (posZero_lt_curveIn h k hx)).2.2

/-! ### The stages and the commands -/

theorem curveAt_of_inUnit {x : Word} (h : F32.inUnit x = true) (cfg : Config) (k : Curve) (d : Nat) :
    curveAt cfg k x d = curveIn cfg k x := if_pos h

theorem stageDraws_of_eq_zero {x : Word} (h : F32.eq x F32.posZero = true) (d : Nat) : stageDraws x d = d := by
  simp [stageDraws, h]

theorem stageDraws_of_not_eq_zero {x : Word} (h : F32.eq x F32.posZero = false) (d : Nat) :
    stageDraws x d = if F32.inUnit x then d else d + 1 := by
  simp [stageDraws, h]

theorem crunchStage_of_eq_zero {cr : Word} (h : F32.eq cr F32.posZero = true) (cfg : Config) (d : Nat) (xs : List Word) :
    crunchStage cfg cr d xs = xs := if_pos h

theorem crunchStage_of_not_eq_zero {cr : Word} (h : F32.eq cr F32.posZero = false) (cfg : Config) (d : Nat)
    (xs : List Word) :
    crunchStage cfg cr d xs = crunchWith cfg.nanOut (curveAt cfg .b cr d) (curveAt cfg .g cr d) xs :=
  if_neg (by simp [h])

theorem crushStage_of_eq_zero {cs : Word} (h : F32.eq cs F32.posZero = true) (cfg : Config) (d : Nat) (xs : List Word) :
    crushStage cfg cs d xs = xs := if_pos h

/-- Element by element: quantization, then the compensation gain where it is enabled and the control exceeds `TZ`. -/
theorem crushStage_of_not_eq_zero {cs : Word} (h : F32.eq cs F32.posZero = false) (cfg : Config) (d : Nat)
    (xs : List Word) :
    crushStage cfg cs d xs = xs.map fun x =>
      let y := quantize cfg.nanOut (curveAt cfg .q cs d) x
      if cfg.crushCompEn = true ∧ F32.lt cfg.tz cs = true then F32.mul cfg.nanOut y (curveAt cfg .gz cs d) else y := by
  simp only [crushStage, h, Bool.false_eq_true, if_false, Bool.and_eq_true, List.map_map]
  split <;> rfl

theorem exec_crunch (s : State) : exec .crunch s = .next
    { s with
      vec := crunchStage s.cfg s.crunchVal s.draws s.vec
      code := .normal
      draws := stageDraws s.crunchVal s.draws } := rfl

theorem exec_crush (s : State) : exec .crush s = .next
    { s with
      vec := crushStage s.cfg s.crushVal s.draws s.vec
      code := .normal
      draws := stageDraws s.crushVal s.draws } := rfl

theorem exec_crunch_of_eq_zero {s : State} (h : F32.eq s.crunchVal F32.posZero = true) :
    exec .crunch s = .next { s with code := .normal } := by
  rw [exec_crunch, crunchStage_of_eq_zero h, stageDraws_of_eq_zero h]

theorem exec_crush_of_eq_zero {s : State} (h : F32.eq s.crushVal F32.posZero = true) :
    exec .crush s = .next { s with code := .normal } := by
  rw [exec_crush, crushStage_of_eq_zero h, stageDraws_of_eq_zero h]

/-- Settles O37: the bound and the gain are the curves' values at the control. -/
theorem crunchClampsAndScales : Obligations.CrunchClampsAndScales := by
  refine fun s => ⟨exec_crunch_of_eq_zero, fun h => ⟨curveAt s.cfg .b s.crunchVal s.draws,
    curveAt s.cfg .g s.crunchVal s.draws, fun hin => ⟨curveAt_of_inUnit hin .., curveAt_of_inUnit hin ..⟩, ?_⟩⟩
  rw [exec_crunch, crunchStage_of_not_eq_zero h, stageDraws_of_not_eq_zero h]
  rfl

/-- Settles O40: the step count and the gain are the curves' values at the control. -/
theorem crushQuantizes : Obligations.CrushQuantizes := by
  refine fun s => ⟨exec_crush_of_eq_zero, fun h => ⟨curveAt s.cfg .q s.crushVal s.draws,
    curveAt s.cfg .gz s.crushVal s.draws, fun hin => ⟨curveAt_of_inUnit hin .., curveAt_of_inUnit hin ..⟩, ?_⟩⟩
  rw [exec_crush, crushStage_of_not_eq_zero h, stageDraws_of_not_eq_zero h]
  rfl

/-- Settles O42: neither stage writes the other's control, and `DISTORT` is their composition (R188). -/
theorem distortIsCrunchThenCrush : Obligations.DistortIsCrunchThenCrush := fun s =>
  ⟨_, _, exec_crunch s, exec_crush _, rfl⟩

/-! ### `CRUNCH` with a control in `(0, 1]` (R183) -/

theorem exec_crunch_of_inUnit {s : State} (h : F32.inUnit s.crunchVal = true) : exec .crunch s = .next
    { s with
      vec := crunchWith s.cfg.nanOut (curveIn s.cfg .b s.crunchVal) (curveIn s.cfg .g s.crunchVal) s.vec
      code := .normal } := by
  have hz := F32.not_eq_posZero_of_inUnit h
  rw [exec_crunch, crunchStage_of_not_eq_zero hz, stageDraws_of_not_eq_zero hz, if_pos h, curveAt_of_inUnit h,
    curveAt_of_inUnit h]

/-- Settles O38: the clamp ends between its bounds, and multiplication by the gain is monotonic. -/
theorem crunchBoundsCoefficients : Obligations.CrunchBoundsCoefficients := by
  refine fun s hs => ⟨exec_crunch_of_eq_zero, fun hin => ⟨_, exec_crunch_of_inUnit hin, by simp [crunchWith], ?_⟩⟩
  have hcfg := State.wf_cfg hs
  have hbfin := curveIn_isFinite hcfg .b hin
  have hbpos := posZero_lt_curveIn hcfg .b hin
  have hgfin := curveIn_isFinite hcfg .g hin
  obtain ⟨hbnan, hbsign, -⟩ := F32.posZero_lt_iff.mp hbpos
  obtain ⟨-, hgsign, -⟩ := F32.posZero_lt_iff.mp (posZero_lt_curveIn hcfg .g hin)
  refine ⟨⟨hbfin, hbpos⟩, ⟨hgfin, one_le_curveIn_g hcfg hin⟩, fun j hj hx => ?_⟩
  have hbounds := neg_le_self_of_key_nonneg hbnan (by simp [F32.key, hbsign])
  obtain ⟨hlo, hhi⟩ := le_clamp_and_clamp_le hx hbounds
  dsimp only
  rw [crunchWith, elem_map _ _ _ hj]
  exact ⟨rfl, hlo, hhi, F32.abs_mul_le hbfin hgfin (mag_le_of_neg_le_of_le hlo hhi) (hbsign.trans hgsign.symm),
    fun h1 h2 => by rw [clamp_of_le h1 h2]⟩

/-! ### `CRUSH` with a control in `(0, 1]` and no compensation (R187) -/

theorem exec_crush_of_inUnit {s : State} (h : F32.inUnit s.crushVal = true) (hcomp : s.cfg.crushCompEn = false) :
    exec .crush s = .next
      { s with
        vec := s.vec.map (quantize s.cfg.nanOut (curveIn s.cfg .q s.crushVal))
        code := .normal } := by
  have hz := F32.not_eq_posZero_of_inUnit h
  rw [exec_crush, crushStage_of_not_eq_zero hz, stageDraws_of_not_eq_zero hz, if_pos h, curveAt_of_inUnit h]
  simp [hcomp]

section StepCount
variable {nan q : Word} (hq : F32.isFinite q = true) (hpos : F32.lt F32.posZero q = true) (x : Word)
include hq hpos

/-- A product below `2^23` is rounded to an integer and divided back: a level of the grid. -/
theorem quantize_level (hf : F32.isFinite (F32.mul nan x q) = true) (hlt : |F32.toRat (F32.mul nan x q)| < 2 ^ 23) :
    ∃ n : ℤ, |n| ≤ 2 ^ 23 ∧ F32.toRat (F32.roundHalfAway (F32.mul nan x q)) = n
      ∧ (n ≠ 0 → IsRnd32 (((n : ℚ) / F32.toRat q : ℚ) : ℝ) (quantize nan q x)) := by
  obtain ⟨-, -, hz⟩ := F32.posZero_lt_iff.mp hpos
  obtain ⟨n, hle, hn, hfin⟩ := F32.exists_int_roundHalfAway hf hlt
  refine ⟨n, hle, hn, fun hne => ?_⟩
  have hquot := (quotientCorrectlyRounded nan _ q hfin hq hz).1
  rw [hn] at hquot
  exact hquot (div_ne_zero (by exact_mod_cast hne) (by simp [F32.toRat_eq_zero, hz]))

variable (hnan : F32.isNaN nan = true)
include hnan

omit hq in
/-- The step count is positive, so the product has the coefficient's sign. -/
theorem sign_product (h : F32.isNaN (F32.mul nan x q) = false) : F32.sign (F32.mul nan x q) = F32.sign x := by
  obtain ⟨-, hsign, -⟩ := F32.posZero_lt_iff.mp hpos
  rw [F32.sign_mul hnan h, hsign, Bool.bne_false]

/-- A product below one half collapses to a zero of the coefficient's sign. -/
theorem quantize_of_abs_lt_half (hf : F32.isFinite (F32.mul nan x q) = true)
    (hlt : |F32.toRat (F32.mul nan x q)| < 1 / 2) : quantize nan q x = F32.pack (F32.sign x) 0 := by
  obtain ⟨-, hsign, hz⟩ := F32.posZero_lt_iff.mp hpos
  have hzero : F32.isZero (F32.pack (F32.sign x) 0) = true := by simp [F32.isZero, F32.mag_pack]
  rw [quantize, F32.roundHalfAway_of_abs_lt_half hlt, sign_product hpos x hnan (F32.not_isNaN_of_isFinite hf),
    F32.div_of_isZero_left hzero hq hz, F32.sign_pack (by decide), hsign, Bool.bne_false]

/-- An infinite product stays infinite, with the coefficient's sign. -/
theorem quantize_of_isInf (h : F32.isInf (F32.mul nan x q) = true) :
    quantize nan q x = F32.pack (F32.sign x) F32.infMag := by
  obtain ⟨hqnan, hsign, -⟩ := F32.posZero_lt_iff.mp hpos
  have hnf : F32.isFinite (F32.mul nan x q) = false :=
    Bool.eq_false_iff.mpr fun hf => by simp [F32.not_isInf_of_isFinite hf] at h
  rw [quantize, (roundHalfAwayNearest _).2 (.inl hnf), F32.div_of_isInf_left h hqnan, F32.not_isInf_of_isFinite hq,
    sign_product hpos x hnan (F32.not_isNaN_of_isInf h), hsign, Bool.bne_false]
  rfl

end StepCount

/-- Settles O41: by the range the product lies in. -/
theorem crushLevelsOfTheGrid : Obligations.CrushLevelsOfTheGrid := by
  refine fun s hs => ⟨exec_crush_of_eq_zero, fun hin hcomp => ⟨_, exec_crush_of_inUnit hin hcomp, by simp, ?_⟩⟩
  have hcfg := State.wf_cfg hs
  have hnan := State.wf_isNaN_nanOut hs
  have hq := curveIn_isFinite hcfg .q hin
  have hpos := posZero_lt_curveIn hcfg .q hin
  refine ⟨hq, hpos, qMin_le_curveIn hcfg hin, fun hone => by rw [hone, qMin], fun j hj => ?_⟩
  dsimp only
  rw [elem_map _ _ _ hj]
  exact ⟨rfl, quantize_level hq hpos _, fun h => by rw [quantize, (roundHalfAwayNearest _).2 h],
    quantize_of_abs_lt_half hq hpos _ hnan, quantize_of_isInf hq hpos _ hnan⟩

end Sys2Proof.Machine
end

section
/-! PROOFS. The channel processor pipeline (43_channel_pipeline.md): `PROC_BLOCK` and `PROC_ALL` as cycles, what a cycle reads, a
mix of 0, and silence. -/

namespace Sys2Proof

/-! ### Zeros and ones as operands -/

theorem F32.units_of_isZero {w : Word} (h : F32.isZero w = true) : F32.units w = 0 := by
  simpa [F32.units_eq_zero, F32.isZero] using h

theorem F32.isInf_of_not_isFinite {w : Word} (hf : F32.isFinite w = false) (hn : F32.isNaN w = false) :
    F32.isInf w = true := by
  simp only [F32.isFinite, F32.isNaN, F32.isInf, decide_eq_false_iff_not, beq_iff_eq] at *
  omega

/-- A nonzero finite word is the rounding of its own value. -/
theorem F32.pack_units {w : Word} (hf : F32.isFinite w = true) (hz : F32.isZero w = false) :
    F32.pack (decide (F32.units w < 0)) (F32.roundMag (F32.units w).natAbs 1) = w := by
  have hu : F32.units w ≠ 0 := by simpa [F32.units_eq_zero, F32.isZero] using hz
  rw [← F32.sign_units w hu, F32.natAbs_units, F32.roundMag_codeUnits ((F32.isFinite_iff w).mp hf).le, F32.pack_sign_mag]

/-- A zero added to a nonzero value, infinite or not, gives that value. -/
theorem F32.add_of_isZero_left {nan a b : Word} (ha : F32.isZero a = true) (hb : F32.isNaN b = false)
    (hz : F32.isZero b = false) : F32.add nan a b = b := by
  have haf := F32.isFinite_of_isZero ha
  cases hf : F32.isFinite b with
  | true =>
    have hu : F32.units b ≠ 0 := by simpa [F32.units_eq_zero, F32.isZero] using hz
    rw [F32.add_units haf hf, F32.units_of_isZero ha, zero_add, if_neg hu, F32.pack_units hf hz]
  | false => exact F32.add_of_isInf_right haf (F32.isInf_of_not_isFinite hf hb)

/-- Subtracting a zero from a nonzero finite value. -/
theorem F32.sub_of_isZero_right {nan a b : Word} (ha : F32.isFinite a = true) (hz : F32.isZero a = false)
    (hb : F32.isZero b = true) : F32.sub nan a b = a := by
  have hbf : F32.isFinite (F32.neg b) = true := by simpa using F32.isFinite_of_isZero hb
  have hu : F32.units a ≠ 0 := by simpa [F32.units_eq_zero, F32.isZero] using hz
  rw [F32.sub, F32.add_units ha hbf, F32.units_neg, F32.units_of_isZero hb, neg_zero, add_zero, if_neg hu,
    F32.pack_units ha hz]

theorem F32.isZero_add {nan a b : Word} (ha : F32.isZero a = true) (hb : F32.isZero b = true) :
    F32.isZero (F32.add nan a b) = true := by
  rw [F32.add_units (F32.isFinite_of_isZero ha) (F32.isFinite_of_isZero hb), F32.units_of_isZero ha,
    F32.units_of_isZero hb, add_zero, if_pos rfl]
  split <;> decide

theorem F32.isZero_pack_zero (neg : Bool) : F32.isZero (F32.pack neg 0) = true := by
  simp [F32.isZero, F32.mag_pack]

/-- A zero times a finite value is a zero. -/
theorem F32.isZero_mul {nan a b : Word} (ha : F32.isZero a = true) (hb : F32.isFinite b = true) :
    F32.isZero (F32.mul nan a b) = true := by
  rw [F32.mul_units (F32.isFinite_of_isZero ha) hb, F32.units_of_isZero ha, zero_mul, Int.natAbs_zero,
    F32.roundMag_zero _ (by positivity)]
  exact F32.isZero_pack_zero _

theorem F32.roundMag_mul_right (a : Nat) {d : Nat} (hd : 0 < d) : F32.roundMag (a * d) d = F32.roundMag a 1 := by
  have h := F32.roundMag_roundsTo (a * d) d hd
  rw [Nat.cast_mul, mul_div_cancel_right₀ _ (by positivity)] at h
  exact h.unique (by simpa using F32.roundMag_roundsTo a 1 one_pos)

/-- `1.0` times a value, infinite or not, is that value. -/
theorem F32.mul_one {nan a : Word} (ha : F32.isNaN a = false) : F32.mul nan a F32.one = a := by
  have hone : F32.sign F32.one = false ∧ F32.isZero F32.one = false ∧ F32.isFinite F32.one = true
      ∧ (F32.units F32.one).natAbs = 2 ^ 149 := by decide
  obtain ⟨hsign, hzero, hfin, hunits⟩ := hone
  cases hf : F32.isFinite a with
  | true =>
    rw [F32.mul_units hf hfin, Int.natAbs_mul, hunits, F32.roundMag_mul_right _ (by positivity), F32.natAbs_units,
      F32.roundMag_codeUnits ((F32.isFinite_iff a).mp hf).le, hsign, Bool.bne_false, F32.pack_sign_mag]
  | false =>
    have hinf := F32.isInf_of_not_isFinite hf ha
    have hmag : F32.infMag = F32.mag a := (beq_iff_eq.mp hinf).symm
    rw [F32.mul_of_isInf_left hinf (F32.not_isNaN_of_isFinite hfin), hzero, hsign, Bool.bne_false, hmag]
    exact F32.pack_sign_mag a

/-- Zeros of either sign are equal. -/
theorem F32.eq_of_isZero {a b : Word} (ha : F32.isZero a = true) (hb : F32.isZero b = true) : F32.eq a b = true := by
  simp [F32.eq, F32.key_of_isZero ha, F32.key_of_isZero hb, F32.not_isNaN_of_isFinite (F32.isFinite_of_isZero ha),
    F32.not_isNaN_of_isFinite (F32.isFinite_of_isZero hb)]

theorem F32.eq_self {a : Word} (h : F32.isNaN a = false) : F32.eq a a = true := by simp [F32.eq, h]

/-- A zero added to a value gives an equal one: the value itself unless that is a zero. -/
theorem F32.eq_add_of_isZero_left {nan a b : Word} (ha : F32.isZero a = true) (hb : F32.isNaN b = false) :
    F32.eq (F32.add nan a b) b = true := by
  cases hz : F32.isZero b with
  | true => exact F32.eq_of_isZero (F32.isZero_add ha hz) hz
  | false =>
    rw [F32.add_of_isZero_left ha hb hz]
    exact F32.eq_self hb

theorem F32.isFinite_of_mag_le_one {w : Word} (h : F32.mag w ≤ F32.mag F32.one) : F32.isFinite w = true :=
  (F32.isFinite_iff w).mpr (h.trans_lt (by decide))

/-- The difference of two values of magnitude at most 1 is finite: its magnitude is at most 2. -/
theorem F32.isFinite_sub {nan a b : Word} (ha : F32.mag a ≤ F32.mag F32.one) (hb : F32.mag b ≤ F32.mag F32.one) :
    F32.isFinite (F32.sub nan a b) = true := by
  have hcodes : F32.codeUnits (F32.mag F32.one) = 2 ^ 149 ∧ F32.codeUnits 0x40000000 = 2 ^ 150
      ∧ 0x40000000 < F32.infMag := by decide
  obtain ⟨hunits, htwo, htwolt⟩ := hcodes
  have hle {w : Word} (h : F32.mag w ≤ F32.mag F32.one) : (F32.units w).natAbs ≤ 2 ^ 149 := by
    rw [F32.natAbs_units, ← hunits]
    exact F32.codeUnits_strictMono.monotone h
  have hsum : (F32.units a + -F32.units b).natAbs ≤ F32.codeUnits 0x40000000 := by
    have := hle ha
    have := hle hb
    omega
  have hround := F32.roundMag_mono one_pos hsum
  rw [F32.roundMag_codeUnits htwolt.le] at hround
  rw [F32.sub, F32.add_units (F32.isFinite_of_mag_le_one ha) (by simpa using F32.isFinite_of_mag_le_one hb),
    F32.units_neg]
  split
  · split <;> decide
  · rw [F32.isFinite_iff, F32.mag_pack (F32.roundMag_lt _ _)]
    exact hround.trans_lt htwolt

/-! ### Lists of zeros -/

/-- An operation that gives a zero where its left operand is a zero, element by element. -/
theorem AllZero.zipWith {f : Word → Word → Word} {P : Word → Prop} {l m : List Word} (hl : AllZero l) (hm : ∀ b ∈ m, P b)
    (hf : ∀ {a b}, F32.isZero a = true → P b → F32.isZero (f a b) = true) : AllZero (List.zipWith f l m) := by
  intro w hw
  rw [← List.map_uncurry_zip_eq_zipWith] at hw
  obtain ⟨⟨a, b⟩, hab, rfl⟩ := List.mem_map.mp hw
  obtain ⟨ha, hb⟩ := List.of_mem_zip hab
  exact hf (hl a ha) (hm b hb)

theorem AllZero.map {f : Word → Word} {l : List Word} (hl : AllZero l)
    (hf : ∀ {a}, F32.isZero a = true → F32.isZero (f a) = true) : AllZero (l.map f) :=
  List.forall_mem_map.mpr fun a ha => hf (hl a ha)

theorem AllZero.append {l m : List Word} (hl : AllZero l) (hm : AllZero m) : AllZero (l ++ m) :=
  List.forall_mem_append.mpr ⟨hl, hm⟩

theorem AllZero.take {l : List Word} (hl : AllZero l) (n : Nat) : AllZero (l.take n) := fun w hw =>
  hl w (List.mem_of_mem_take hw)

theorem AllZero.drop {l : List Word} (hl : AllZero l) (n : Nat) : AllZero (l.drop n) := fun w hw =>
  hl w (List.mem_of_mem_drop hw)

end Sys2Proof

namespace Sys2Proof.Machine

/-! ### `PROC_BLOCK` and `PROC_ALL` on legal operands (R226, R230, R234) -/

theorem exec_procBlock_eq {s : State} {ch : Nat} (hch : ch < s.cfg.c) :
    exec (.procBlock ch s.cfg.n) s = .next { channelCycle ch s with code := .normal } :=
  congrArg _ (checked_none (blockError_eq_none.mpr ⟨hch, rfl⟩))

/-- The second cycle does not read the `CODE` the first one left. -/
theorem exec_procBlock_procBlock {s : State} {c c' : Nat} (hc : c < s.cfg.c) (hc' : c' < s.cfg.c) :
    ∃ t, exec (.procBlock c s.cfg.n) s = .next t
      ∧ exec (.procBlock c' s.cfg.n) t = .next { channelCycle c' (channelCycle c s) with code := .normal } :=
  ⟨_, exec_procBlock_eq hc, exec_procBlock_eq (s := { channelCycle c s with code := .normal }) hc'⟩

theorem exec_procAll_eq {s : State} (h : s.wf = true) {count : Nat} (hcount : s.cfg.c ≤ count) :
    exec (.procAll count s.cfg.n) s = .next { allCycles s with code := .normal } := by
  have hpos : count ≠ 0 := by
    have hc := (Config.wf_parts (State.wf_cfg h)).2.1
    omega
  exact congrArg _ (checked_none (callError_eq_none.mpr ⟨hpos, hcount, rfl⟩))

theorem allCycles_of_one {s : State} (h : s.cfg.c = 1) : allCycles s = channelCycle 0 s := by
  rw [allCycles, h]
  rfl

theorem allCycles_of_two {s : State} (h : s.cfg.c = 2) : allCycles s = channelCycle 1 (channelCycle 0 s) := by
  rw [allCycles, h]
  rfl

/-- Settles O44: `PROC_ALL` folds the cycle over the channels. -/
theorem procAllRunsEveryChannel : Obligations.ProcAllRunsEveryChannel := by
  rintro s count _ h hcount rfl
  rw [exec_procAll_eq h hcount]
  refine ⟨fun hc => ?_, fun hc => ?_⟩
  · rw [allCycles_of_one hc]
    exact ⟨_, exec_procBlock_eq (by omega), rfl⟩
  · rw [allCycles_of_two hc]
    obtain ⟨t, ht, hu⟩ := exec_procBlock_procBlock (s := s) (c := 0) (c' := 1) (by omega) (by omega)
    exact ⟨t, _, ht, hu, rfl⟩

/-! ### The cycle, sample by sample (R225, R226) -/

/-- `fl(fl(fl(wet[i] * MIX[i]) + fl(prev[i] * fl(1.0 - MIX[i]))) * GAIN[i])`. -/
theorem elem_gained_crossfade {s : State} (h : s.wf = true) {wet prev : List Word} (hwet : wet.length = s.cfg.n)
    (hprev : prev.length = s.cfg.n) {i : Nat} (hi : i < s.cfg.n) :
    elem (gained s.cfg s.frame (crossfade s.cfg s.frame wet prev)) i
      = F32.mul s.cfg.nanOut
          (F32.add s.cfg.nanOut (F32.mul s.cfg.nanOut (elem wet i) (elem s.frame.mix i))
            (F32.mul s.cfg.nanOut (elem prev i) (F32.sub s.cfg.nanOut F32.one (elem s.frame.mix i))))
          (elem s.frame.gain i) := by
  obtain ⟨-, hmix, hgain⟩ := State.wf_frame h
  rw [gained, crossfade, elem_zipWith, elem_zipWith, elem_zipWith, elem_zipWith] <;> simp [hwet, hprev, hmix, hgain, hi]

/-- A sample of the block a cycle leaves, from the wet block. -/
theorem elem_cycle_io {s : State} (h : s.wf = true) (d : Nat) {k : Channel} (hk : Channel.wf s.cfg k = true) {i : Nat}
    (hi : i < s.cfg.n) :
    elem (cycle s.cfg s.frame d k).io i
      = F32.mul s.cfg.nanOut
          (F32.add s.cfg.nanOut
            (F32.mul s.cfg.nanOut (elem (olaInv s.cfg k.tail (cycleCoeffs s.cfg s.frame d k)) i) (elem s.frame.mix i))
            (F32.mul s.cfg.nanOut (elem k.dry i) (F32.sub s.cfg.nanOut F32.one (elem s.frame.mix i))))
          (elem s.frame.gain i) := by
  obtain ⟨-, -, htail, hdry⟩ := Channel.wf_lengths hk
  exact elem_gained_crossfade h (by simp [State.wf_window h, htail]) hdry hi

/-- Settles O43: the check passes, so `PROC_BLOCK` is the cycle on its channel, whose stages are R226's element by
element. -/
theorem procBlockRunsTheCycle : Obligations.ProcBlockRunsTheCycle := by
  rintro s ch _ h hch rfl
  have hlt : ch < s.channels.length := by rwa [State.wf_channels h]
  have hk := channelAt_wf h hch
  obtain ⟨-, -, htail, -⟩ := Channel.wf_lengths hk
  obtain ⟨hio', -, htail', -⟩ := Channel.wf_lengths (cycle_wf h s.draws hk)
  have hchannel (c : Nat) : channelAt { channelCycle ch s with code := .normal } c
      = if c = ch then cycle s.cfg s.frame s.draws (channelAt s ch) else channelAt s c :=
    channelAt_channelCycle ch c hlt
  refine ⟨_, driven s.cfg s.frame (channelAt s ch).io, exec_procBlock_eq hch, length_driven h hk,
    fun i hi => elem_driven h hk hi, ?_⟩
  rw [hchannel ch, if_pos rfl]
  refine ⟨rfl, rfl, hio', htail', fun i hi => ⟨?_, elem_olaTail h _ i hi⟩, fun c hc => ?_, ?_, rfl⟩
  · rw [elem_cycle_io h s.draws hk hi, elem_olaInv h _ _ htail i hi]
    rfl
  · rw [hchannel c, if_neg hc]
  · simp [channelCycle]

/-! ### What a cycle reads (R232, R235) -/

/-- With control values in the contract the number of the next free draw has no part in a cycle. -/
theorem cycle_of_inContract {cfg : Config} {f : Frame} (hcr : controlInContract (f.cr cfg) = true)
    (hcs : controlInContract (f.cs cfg) = true) (d d' : Nat) (k : Channel) : cycle cfg f d k = cycle cfg f d' k := by
  have hcoeffs : cycleCoeffs cfg f d k = cycleCoeffs cfg f d' k := by
    rw [cycleCoeffs, cycleCoeffs, distortStage, distortStage, crunchStage_of_inContract hcr d d',
      crushStage_of_inContract hcs _ (stageDraws (f.cr cfg) d')]
  rw [cycle, cycle, hcoeffs]

theorem distortDraws_of_inContract {cr cs : Word} (hcr : controlInContract cr = true)
    (hcs : controlInContract cs = true) (d : Nat) : distortDraws cr cs d = d := by
  rw [distortDraws, stageDraws_of_inContract hcr, stageDraws_of_inContract hcs]

/-- With control values in the contract a cycle only replaces its channel. -/
theorem channelCycle_of_inContract {s : State} (hcr : controlInContract (s.frame.cr s.cfg) = true)
    (hcs : controlInContract (s.frame.cs s.cfg) = true) (c : Nat) :
    channelCycle c s = setChannel c (cycle s.cfg s.frame s.draws (channelAt s c)) s := by
  rw [channelCycle, distortDraws_of_inContract hcr hcs]

/-- The cycles of two channels, in either order. -/
theorem channelCycle_comm {s : State} (hcr : controlInContract (s.frame.cr s.cfg) = true)
    (hcs : controlInContract (s.frame.cs s.cfg) = true) {c c' : Nat} (h : c ≠ c') :
    channelCycle c (channelCycle c' s) = channelCycle c' (channelCycle c s) := by
  have hboth {a b : Nat} (hab : a ≠ b) : channelCycle a (channelCycle b s)
      = setChannel a (cycle s.cfg s.frame s.draws (channelAt s a))
          (setChannel b (cycle s.cfg s.frame s.draws (channelAt s b)) s) := by
    rw [channelCycle_of_inContract hcr hcs b, channelCycle_of_inContract (s := setChannel b _ s) hcr hcs a,
      channelAt_setChannel_of_ne hab]
    rfl
  rw [hboth h, hboth h.symm, setChannel_comm h]

/-- Settles O45: the two cycles commute. -/
theorem channelOrderUnobservable : Obligations.ChannelOrderUnobservable := by
  rintro s count _ h hc hcount rfl hcr hcs
  obtain ⟨t, ht, hu⟩ := exec_procBlock_procBlock (s := s) (c := 1) (c' := 0) (by omega) (by omega)
  refine ⟨t, _, ht, hu, ?_⟩
  rw [exec_procAll_eq h (by omega), allCycles_of_two hc, channelCycle_comm hcr hcs one_ne_zero]

/-- `PROC_BLOCK` runs the cycle on its channel when its operands are legal, and otherwise leaves the channel. -/
theorem channelAt_of_exec_procBlock {s t : State} {ch len : Nat} (h : s.wf = true)
    (ht : exec (.procBlock ch len) s = .next t) :
    channelAt t ch
      = if ch < s.cfg.c ∧ len = s.cfg.n then cycle s.cfg s.frame s.draws (channelAt s ch) else channelAt s ch := by
  cases ht
  cases hcheck : blockError s.cfg ch len with
  | none =>
    have hlegal := blockError_eq_none.mp hcheck
    have hlt : ch < s.channels.length := (State.wf_channels h).symm ▸ hlegal.1
    rw [if_pos hlegal]
    exact (channelAt_channelCycle ch ch hlt).trans (if_pos rfl)
  | some e =>
    have hillegal : ¬ (ch < s.cfg.c ∧ len = s.cfg.n) := by simp [← blockError_eq_none, hcheck]
    rw [if_neg hillegal]
    rfl

/-- Settles O46: the states pass or fail the check together, and the cycle is a function of what they agree on. -/
theorem cycleReadsOnlyItsInputs : Obligations.CycleReadsOnlyItsInputs := by
  intro s s' t t' ch len h h' hcfg hframe hchannel hcr hcs ht ht'
  rw [channelAt_of_exec_procBlock h ht, channelAt_of_exec_procBlock h' ht', ← hcfg, ← hframe, ← hchannel,
    cycle_of_inContract hcr hcs s.draws s'.draws]

/-! ### A mix of 0 (R229) -/

/-- Settles O48: the mixed wet sample is a zero, and the mixed dry one is the previous dry sample. -/
theorem dryOnlyOutputIsDelayedInput : Obligations.DryOnlyOutputIsDelayedInput := by
  intro s t ch i h hch hi ht hmix hwet hdry
  have hwetPart := F32.isZero_mul (nan := s.cfg.nanOut) hmix hwet
  rw [F32.mul_comm] at hwetPart
  refine ⟨_, F32.eq_add_of_isZero_left (nan := s.cfg.nanOut) hwetPart hdry,
    F32.add_of_isZero_left hwetPart hdry, ?_⟩
  rw [channelAt_of_exec_procBlock h ht, if_pos ⟨hch, rfl⟩, elem_cycle_io h _ (channelAt_wf h hch) hi,
    F32.sub_of_isZero_right (by decide) (by decide) hmix, F32.mul_one hdry]

/-! ### Silence (R231) -/

/-- A clamped zero is a zero, and so is its product with the gain. -/
theorem crunchStage_allZero {cfg : Config} (h : cfg.wf = true) {cr : Word} (hcr : controlInContract cr = true) (d : Nat)
    {xs : List Word} (hxs : AllZero xs) : AllZero (crunchStage cfg cr d xs) := by
  rcases Bool.or_eq_true_iff.mp hcr with hzero | hin
  · rwa [crunchStage_of_eq_zero hzero]
  · rw [crunchStage_of_not_eq_zero (F32.not_eq_posZero_of_inUnit hin), curveAt_of_inUnit hin, curveAt_of_inUnit hin]
    obtain ⟨hnan0, hnan, hkey⟩ := F32.lt_iff.mp (posZero_lt_curveIn h .b hin)
    have hb : F32.le F32.posZero (curveIn cfg .b cr) = true := F32.le_iff.mpr ⟨hnan0, hnan, hkey.le⟩
    refine hxs.map fun {a} ha => ?_
    obtain ⟨-, -, -, -, hclamp⟩ := clampReturnsAnOperand a (curveIn cfg .b cr)
    rw [hclamp hb ha]
    exact F32.isZero_mul ha (curveIn_isFinite h .g hin)

theorem isZero_quantize {nan q x : Word} (hq : F32.isFinite q = true) (hq0 : F32.isZero q = false)
    (hx : F32.isZero x = true) : F32.isZero (quantize nan q x) = true := by
  have hprod : |F32.toRat (F32.mul nan x q)| < 1 / 2 := by
    rw [(F32.toRat_eq_zero _).mpr (F32.isZero_mul hx hq)]
    norm_num
  rw [quantize, F32.roundHalfAway_of_abs_lt_half hprod, F32.div_of_isZero_left (F32.isZero_pack_zero _) hq hq0]
  exact F32.isZero_pack_zero _

/-- A quantized zero is a zero, with the compensation and without. -/
theorem crushStage_allZero {cfg : Config} (h : cfg.wf = true) {cs : Word} (hcs : controlInContract cs = true) (d : Nat)
    {xs : List Word} (hxs : AllZero xs) : AllZero (crushStage cfg cs d xs) := by
  rcases Bool.or_eq_true_iff.mp hcs with hzero | hin
  · rwa [crushStage_of_eq_zero hzero]
  · rw [crushStage_of_not_eq_zero (F32.not_eq_posZero_of_inUnit hin), curveAt_of_inUnit hin, curveAt_of_inUnit hin]
    obtain ⟨-, -, hq0⟩ := F32.posZero_lt_iff.mp (posZero_lt_curveIn h .q hin)
    refine hxs.map fun {a} ha => ?_
    have hquant := isZero_quantize (nan := cfg.nanOut) (curveIn_isFinite h .q hin) hq0 ha
    dsimp only
    split_ifs
    · exact F32.isZero_mul hquant (curveIn_isFinite h .gz hin)
    · exact hquant

/-- What silence needs of R222: control values without free draws, mixes of magnitude at most 1, and finite factors. -/
theorem frameInContract_parts {cfg : Config} {f : Frame} (h : frameInContract cfg f = true) :
    (controlInContract (f.cr cfg) = true ∧ controlInContract (f.cs cfg) = true)
      ∧ (∀ x ∈ f.mix, F32.mag x ≤ F32.mag F32.one) ∧ AllFinite f.drive ∧ AllFinite f.gain := by
  simp only [frameInContract, Bool.and_eq_true, List.all_eq_true] at h
  obtain ⟨⟨⟨⟨hcr, hcs⟩, hmix⟩, hdrive⟩, hgain⟩ := h
  refine ⟨⟨hcr, hcs⟩, fun x hx => ?_, fun x hx => (hdrive x hx).1, fun x hx => (hgain x hx).1⟩
  have hlo : F32.le (F32.neg F32.one) F32.posZero = true := by decide
  exact mag_le_of_neg_le_of_le (F32.le_trans hlo (hmix x hx).1) (hmix x hx).2

section Silence
variable {s : State} (h : s.wf = true) (hframe : frameInContract s.cfg s.frame = true) (hw : AllFinite s.cfg.w)
include h

include hframe in
/-- The coefficients of a cycle on zeros, whatever the transform and the curves. -/
theorem cycleCoeffs_allZero (d : Nat) {k : Channel} (hk : Channel.wf s.cfg k = true) (hhist : AllZero k.hist)
    (hdriven : AllZero (driven s.cfg s.frame k.io)) : AllZero (cycleCoeffs s.cfg s.frame d k) := by
  obtain ⟨⟨hcr, hcs⟩, -⟩ := frameInContract_parts hframe
  have hcfg := State.wf_cfg h
  have hlen : (k.hist ++ driven s.cfg s.frame k.io).length = s.cfg.m := by
    rw [List.length_append, (Channel.wf_lengths hk).2.1, length_driven h hk, Config.m, two_mul]
  exact crushStage_allZero hcfg hcs _ (crunchStage_allZero hcfg hcr d
    (transform_allZero h hlen (hhist.append hdriven) .forward))

include hw

theorem windowed_allZero {xs : List Word} (hlen : xs.length = s.cfg.m) (hxs : AllZero xs) :
    AllZero (windowed s.cfg xs) :=
  (transform_allZero h hlen hxs .inverse).zipWith hw F32.isZero_mul

theorem olaInv_allZero {tail xs : List Word} (htail : AllZero tail) (hlen : xs.length = s.cfg.m) (hxs : AllZero xs) :
    AllZero (olaInv s.cfg tail xs) :=
  ((windowed_allZero h hw hlen hxs).take _).zipWith htail F32.isZero_add

theorem olaTail_allZero {xs : List Word} (hlen : xs.length = s.cfg.m) (hxs : AllZero xs) :
    AllZero (olaTail s.cfg xs) :=
  ((windowed_allZero h hw hlen hxs).drop _).zipWith (fun b hb => hw b (List.mem_of_mem_drop hb)) F32.isZero_mul

end Silence

/-- Driving zeros: every factor is finite. -/
theorem driven_allZero {cfg : Config} {f : Frame} (hframe : frameInContract cfg f = true) {x : List Word}
    (hx : AllZero x) : AllZero (driven cfg f x) := by
  obtain ⟨-, -, hdrive, -⟩ := frameInContract_parts hframe
  exact hx.zipWith hdrive F32.isZero_mul

/-- Crossfading zeros and applying the gain: `MIX[i]`, `1.0 - MIX[i]` and `GAIN[i]` are finite. -/
theorem gained_crossfade_allZero {cfg : Config} {f : Frame} (hframe : frameInContract cfg f = true) {wet prev : List Word}
    (hwet : AllZero wet) (hprev : AllZero prev) : AllZero (gained cfg f (crossfade cfg f wet prev)) := by
  obtain ⟨-, hmix, -, hgain⟩ := frameInContract_parts hframe
  have hwetPart := hwet.zipWith hmix fun ha hb => F32.isZero_mul (nan := cfg.nanOut) ha (F32.isFinite_of_mag_le_one hb)
  have hdryPart := hprev.zipWith hmix fun ha hb =>
    F32.isZero_mul (nan := cfg.nanOut) ha (F32.isFinite_sub (nan := cfg.nanOut) le_rfl hb)
  exact (hwetPart.zipWith hdryPart F32.isZero_add).zipWith hgain F32.isZero_mul

/-- Settles O49: every stage of the cycle maps zeros to zeros, its other factor being finite. -/
theorem zeroInputStaysSilent : Obligations.ZeroInputStaysSilent := by
  intro s ch h hch hio hhist htail hdry hframe hw
  obtain ⟨t, ht, hcode, hcycle⟩ := exec_procBlock_of_legal h hch
  have hdriven := driven_allZero hframe hio
  have hcoeffs := cycleCoeffs_allZero h hframe s.draws (channelAt_wf h hch) hhist hdriven
  have hlen : (cycleCoeffs s.cfg s.frame s.draws (channelAt s ch)).length = s.cfg.m := by simp [cycleCoeffs, olaFwd]
  have hwet := olaInv_allZero h hw htail hlen hcoeffs
  refine ⟨t, ht, hcode, ?_⟩
  rw [hcycle]
  exact ⟨gained_crossfade_allZero hframe hwet hdry, hdriven, olaTail_allZero h hw hlen hcoeffs, hio⟩

end Sys2Proof.Machine
end

section
/-! PROOFS. `NOP` (44_system.md R250): the command, its one legal word, and the words with its opcode that are illegal. -/

namespace Sys2Proof.Machine

theorem exec_nop (s : State) : exec .nop s = .next { s with code := .normal } := rfl

/-- Writing a legal word runs its command in the state whose `CMD` holds the word (10_state.md R32). -/
theorem perform_write_legal {w : Word} {i : Instr} (h : decode w = .ok i) (s : State) :
    perform (.write 0x0001#16 w) s = exec i { s with cmd := w } := by
  rw [perform_write_cmd]
  simp only [runCommand, h]

/-- A word with the opcode of `NOP` is illegal when any of bits 31:8 is set (R101, R250). -/
theorem decode_error_of_nop_operandBits {w : Word} (hopc : w.toNat % 256 = 0) (hupper : w.toNat / 256 ≠ 0) :
    ∃ e, decode w = .error e := by
  have hkind : w.toNat % 256 ∈ [0, 1, 2, 5, 6, 7, 15] := by rw [hopc]; exact List.mem_cons_self
  exact (decode_error_iff_kinds w).mpr (.inr (.inr (.inl ⟨hkind, hupper⟩)))

/-- Settles O51: the word 0 decodes to `NOP`, and its opcode with operand bits set is an illegal word, which only reports. -/
theorem nopOnlyClearsCode : Obligations.NopOnlyClearsCode := by
  refine fun s w => ⟨exec_nop s, ?_, fun hopc hupper => ?_⟩
  · have hdecode : decode 0x00000000#32 = .ok .nop := rfl
    rw [perform_write_legal hdecode, exec_nop]
  · obtain ⟨e, he⟩ := decode_error_of_nop_operandBits hopc hupper
    exact perform_write_illegal he s

end Sys2Proof.Machine
end

section
/-! PROOFS. Errors (60_exceptions.md): which check of a command fails depends on the word and the build parameters alone,
a failed check is raised and nothing else is written, and the only thing a step refuses is a partial word. -/

namespace Sys2Proof.Machine

/-! ### The check of a command and of a command word (R263) -/

/-- The first failing check of a command's operands, if one fails (R263). -/
def operandError (cfg : Config) : Instr → Option StatusCode
  | .mdct ch len | .imdct ch len | .procBlock ch len => blockError cfg ch len
  | .procAll count len => callError cfg count len
  | _ => none

/-- A command whose check fails raises it (R264). -/
theorem exec_of_operandError {i : Instr} {s : State} {e : StatusCode} (h : operandError s.cfg i = some e) :
    exec i s = .next (raise e s) := by
  cases i with
  | mdct | imdct | procBlock | procAll => exact congrArg _ (checked_some h)
  | _ => cases h

/-- A command whose check passes completes with `NORMAL` (R34). -/
theorem exec_of_operandError_eq_none {i : Instr} {s : State} (h : operandError s.cfg i = none) :
    ∃ t, exec i s = .next t ∧ t.code = .normal := by
  cases i with
  | mdct | imdct | procBlock | procAll => exact ⟨_, rfl, congrArg State.code (checked_none h)⟩
  | _ => exact ⟨_, rfl, rfl⟩

/-- The first failing check of a command word: legality, then the operands of its command (R263). -/
def wordError (cfg : Config) (w : Word) : Option StatusCode :=
  match decode w with
  | .ok i => operandError cfg i
  | .error _ => some .errIllegalCmd

theorem wordError_of_ok {w : Word} {i : Instr} (h : decode w = .ok i) (cfg : Config) :
    wordError cfg w = operandError cfg i := by
  simp only [wordError, h]

theorem wordError_of_error {w : Word} {e : Illegal} (h : decode w = .error e) (cfg : Config) :
    wordError cfg w = some .errIllegalCmd := by
  simp only [wordError, h]

/-- A word whose check fails raises it (R264). -/
theorem runCommand_of_wordError {w : Word} {s : State} {e : StatusCode} (h : wordError s.cfg w = some e) :
    runCommand w s = .next (raise e s) := by
  cases hd : decode w with
  | ok i =>
    rw [wordError_of_ok hd] at h
    simp only [runCommand, hd, exec_of_operandError h]
  | error =>
    rw [wordError_of_error hd] at h
    cases h
    simp only [runCommand, hd]

/-- A word whose check passes completes with `NORMAL` (R34). -/
theorem runCommand_of_wordError_eq_none {w : Word} {s : State} (h : wordError s.cfg w = none) :
    ∃ t, runCommand w s = .next t ∧ t.code = .normal := by
  cases hd : decode w with
  | ok i =>
    rw [wordError_of_ok hd] at h
    simpa only [runCommand, hd] using exec_of_operandError_eq_none h
  | error =>
    rw [wordError_of_error hd] at h
    cases h

/-- A word that ends with an error failed its check, and the error was raised. -/
theorem eq_raise_of_runCommand {w : Word} {s t : State} (h : runCommand w s = .next t) (hcode : t.code ≠ .normal) :
    ∃ e, wordError s.cfg w = some e ∧ t = raise e s := by
  cases hw : wordError s.cfg w with
  | some e =>
    rw [runCommand_of_wordError hw] at h
    cases h
    exact ⟨e, rfl, rfl⟩
  | none =>
    obtain ⟨t', ht', hnormal⟩ := runCommand_of_wordError_eq_none hw
    rw [ht'] at h
    cases h
    exact absurd hnormal hcode

/-! ### What an error writes (R266, R267) -/

/-- Settles O20: an error of a word was raised, and a command that completes leaves `NORMAL`. -/
theorem errorWritesOnlyStatus : Obligations.ErrorWritesOnlyStatus := by
  refine ⟨fun w s t h hcode => ?_, fun i s t h hcode => ?_⟩
  · rw [perform_write_cmd] at h
    obtain ⟨e, -, rfl⟩ := eq_raise_of_runCommand h hcode
    rfl
  · rcases exec_ends h with ⟨heq, -⟩ | ⟨heq, -⟩
    · exact heq
    · have hnormal : t.code = .normal := by rw [heq]
      exact absurd hnormal hcode

/-- Settles O23: the error leaves the build parameters, so the word fails the same check again, and raising an error
again in the state that holds the word changes nothing. -/
theorem failedCommandFailsAgain : Obligations.FailedCommandFailsAgain := by
  intro w s t h hcode
  rw [perform_write_cmd] at h ⊢
  obtain ⟨e, he, rfl⟩ := eq_raise_of_runCommand h hcode
  exact runCommand_of_wordError he

/-! ### The checks of every opcode, in their order (R263) -/

/-- The check of a format-Z word: bits 31:8 are 0 (R101). -/
theorem wordError_of_decodeZ {w : Word} {i : Instr} {cfg : Config} (h : decode w = decodeZ w i)
    (hi : operandError cfg i = none) :
    wordError cfg w = if w.toNat / 256 ≠ 0 then some .errIllegalCmd else none := by
  rw [decodeZ_eq] at h
  split at h
  next hupper => rw [wordError_of_ok h, hi, if_neg (not_not.mpr hupper)]
  next hupper => rw [wordError_of_error h, if_pos hupper]

/-- The checks of a word of format CL or KL: `RSV` = 0, then those of the operands (R102, R103). -/
theorem wordError_of_decodeCL {w : Word} {mk : Nat → Nat → Instr} (h : decode w = decodeCL w mk) (cfg : Config) :
    wordError cfg w = if w.toNat / 4096 % 16 ≠ 0 then some .errIllegalCmd
      else operandError cfg (mk (w.toNat / 256 % 16) (w.toNat / 65536)) := by
  rw [decodeCL_eq] at h
  split at h
  next hrsv => rw [wordError_of_ok h, if_neg (not_not.mpr hrsv)]
  next hrsv => rw [wordError_of_error h, if_pos hrsv]

/-- The opcodes of format Z belong to the commands without operands (R105). -/
theorem decode_of_opcodeZ {w : Word} (h : w.toNat % 256 ∈ [0, 1, 2, 5, 6, 7, 15]) (cfg : Config) :
    ∃ i, decode w = decodeZ w i ∧ operandError cfg i = none := by
  rw [← opcField_eq] at h
  simp only [List.mem_cons, List.not_mem_nil, or_false] at h
  rcases h with h | h | h | h | h | h | h
  · exact ⟨.nop, by simp only [decode, h], rfl⟩
  · exact ⟨.dctFwd, by simp only [decode, h], rfl⟩
  · exact ⟨.dctInv, by simp only [decode, h], rfl⟩
  · exact ⟨.crunch, by simp only [decode, h], rfl⟩
  · exact ⟨.crush, by simp only [decode, h], rfl⟩
  · exact ⟨.distort, by simp only [decode, h], rfl⟩
  · exact ⟨.reset, by simp only [decode, h], rfl⟩

/-- The opcodes of format CL belong to the commands on one channel (R105). -/
theorem decode_of_opcodeCL {w : Word} (h : w.toNat % 256 ∈ [3, 4, 8]) (cfg : Config) :
    ∃ mk, decode w = decodeCL w mk ∧ ∀ ch len, operandError cfg (mk ch len) = blockError cfg ch len := by
  rw [← opcField_eq] at h
  simp only [List.mem_cons, List.not_mem_nil, or_false] at h
  rcases h with h | h | h
  · exact ⟨_, operandCommand_mdct.decode_eq w h, fun _ _ => rfl⟩
  · exact ⟨_, operandCommand_imdct.decode_eq w h, fun _ _ => rfl⟩
  · exact ⟨_, operandCommand_procBlock.decode_eq w h, fun _ _ => rfl⟩

/-- No command has any other opcode (R107). -/
theorem decode_error_of_unassigned {w : Word} (hz : w.toNat % 256 ∉ [0, 1, 2, 5, 6, 7, 15])
    (hcl : w.toNat % 256 ∉ [3, 4, 8]) (hkl : w.toNat % 256 ≠ 9) : ∃ e, decode w = .error e := by
  simp only [List.mem_cons, List.not_mem_nil, or_false] at hz hcl
  rw [decode_error_iff_kinds]
  omega

/-- After a write to `CMD`, `CODE` is the first failing check of the word. -/
theorem perform_write_cmd_code (w : Word) (s : State) :
    ∃ t, perform (.write 0x0001#16 w) s = .next t ∧ t.code = (wordError s.cfg w).getD .normal := by
  rw [perform_write_cmd]
  cases hw : wordError s.cfg w with
  | some e => exact ⟨_, runCommand_of_wordError hw, rfl⟩
  | none => exact runCommand_of_wordError_eq_none hw

/-- Settles O21, by the format of the opcode; within a format the checks are those of `decodeZ`, `blockError` and
`callError`. -/
theorem checksRunInOrder : Obligations.ChecksRunInOrder := by
  intro w s
  obtain ⟨t, ht, hcode⟩ := perform_write_cmd_code w s
  refine ⟨t, ht, hcode.trans ?_⟩
  by_cases hz : w.toNat % 256 ∈ [0, 1, 2, 5, 6, 7, 15]
  · obtain ⟨i, hi, hnone⟩ := decode_of_opcodeZ hz s.cfg
    rw [if_pos hz, wordError_of_decodeZ hi hnone]
    split_ifs <;> rfl
  rw [if_neg hz]
  by_cases hcl : w.toNat % 256 ∈ [3, 4, 8]
  · obtain ⟨mk, hmk, hblock⟩ := decode_of_opcodeCL hcl s.cfg
    rw [if_pos hcl, wordError_of_decodeCL hmk, hblock, blockError]
    split_ifs <;> rfl
  rw [if_neg hcl]
  by_cases hkl : w.toNat % 256 = 9
  · have hall := operandCommand_procAll.decode_eq w ((opcField_eq w).trans hkl)
    rw [if_pos hkl, wordError_of_decodeCL hall, operandError, callError]
    split_ifs <;> rfl
  · obtain ⟨e, he⟩ := decode_error_of_unassigned hz hcl hkl
    rw [if_neg hkl, wordError_of_error he]
    rfl

/-! ### Every step and every command (R278, R280) -/

/-- Settles O53: both ways a command can end are next states. -/
theorem everyCommandCompletes : Obligations.EveryCommandCompletes := by
  intro i s
  obtain ⟨t, ht, -⟩ := exec_cases i s
  exact ⟨t, ht⟩

/-- Every port access gives a next state (20_memory.md R86). -/
theorem perform_completes (op : PortOp) (s : State) : ∃ t, perform op s = .next t := by
  cases op with
  | read a => exact ⟨_, rfl⟩
  | write a v =>
    by_cases ha : a = cmdAddr
    · subst ha
      exact runCommand_completes v { s with cmd := v }
    · exact ⟨_, perform_write_of_ne ha v s⟩

/-- Settles O8: with nothing pending no access is taken. -/
theorem idleStepKeepsState : Obligations.IdleStepKeepsState := by
  intro s h
  simp only [step, takeAccess_eq_none.mpr h]

/-- Settles O9: an idle step and a port access give a next state, and `performAccess_cases` says what is refused. -/
theorem onlyPartialWordsAreRefused : Obligations.OnlyPartialWordsAreRefused := by
  intro s
  cases hp : s.pending with
  | nil => exact .inl ⟨s, idleStepKeepsState s hp⟩
  | cons x rest =>
    rw [stepPerformsNextAccess.1 s x rest hp]
    rcases performAccess_cases x { s with pending := rest } with ⟨op, h⟩ | ⟨a, h⟩ | ⟨h, hpartial⟩
    · rw [h]
      exact .inl (perform_completes op _)
    · exact .inl ⟨_, h⟩
    · refine .inr ⟨h, ?_⟩
      rcases hpartial with ⟨b, n, rfl, hb⟩ | ⟨b, bytes, rfl, hb⟩
      · exact .inl ⟨b, n, rest, rfl, hb⟩
      · exact .inr ⟨b, bytes, rest, rfl, hb⟩

end Sys2Proof.Machine
end

section
/-! PROOFS. What `RESET` restores (44_system.md R252, 70_reset_and_hazards.md R292), and the cycle composed from `MDCT`,
`DISTORT` and `IMDCT` (70_reset_and_hazards.md R301). -/

namespace Sys2Proof.Machine

/-! ### `RESET` -/

theorem exec_reset (s : State) : exec .reset s = .next
    { s with channels := s.channels.map (clearChannel s.cfg), code := .normal, sticky := false } := rfl

/-- `RESET` clears every existing channel (44_system.md R252). -/
theorem channelAt_of_exec_reset {s t : State} (h : exec .reset s = .next t) {c : Nat} (hc : c < s.channels.length) :
    channelAt t c = clearChannel s.cfg (channelAt s c) := by
  cases h
  simp [channelAt, hc]

/-- A cleared channel has the Channel State of block reset (10_state.md R51, 44_system.md R252). -/
theorem hidden_clearChannel (cfg : Config) (k : Channel) (c : Nat) :
    (clearChannel cfg k).hidden = (Channel.reset cfg c).hidden := rfl

/-- Settles O52: `RESET` maps `clearChannel` over the channels and clears `STATUS`, and writes nothing else. -/
theorem resetRestoresConstructionState : Obligations.ResetRestoresConstructionState := by
  refine fun s h => ⟨_, exec_reset s, fun c hc => ?_, rfl, rfl, List.length_map _, rfl⟩
  have hlt : c < s.channels.length := by rwa [State.wf_channels h]
  rw [channelAt_of_exec_reset (exec_reset s) hlt, channelAt_resetOf hc]
  exact ⟨rfl, rfl, rfl, rfl, hidden_clearChannel s.cfg _ c⟩

/-! ### The cycle in pieces -/

theorem exec_distort (s : State) : exec .distort s = .next
    { s with
      vec := distortStage s.cfg s.crunchVal s.crushVal s.draws s.vec
      code := .normal
      draws := distortDraws s.crunchVal s.crushVal s.draws } := rfl

/-- The driven block is the one list of `N` elements `fl(x[i] * DRIVE[i])` (43_channel_pipeline.md R226). -/
theorem eq_driven {s : State} (h : s.wf = true) {k : Channel} (hk : Channel.wf s.cfg k = true) {d : List Word}
    (hlen : d.length = s.cfg.n)
    (hd : ∀ i < s.cfg.n, elem d i = F32.mul s.cfg.nanOut (elem k.io i) (elem s.frame.drive i)) :
    d = driven s.cfg s.frame k.io := by
  refine ext_elem (by rw [hlen, length_driven h hk]) fun i hi => ?_
  rw [hlen] at hi
  rw [hd i hi, elem_driven h hk hi]

/-- What `MDCT`, `DISTORT` and `IMDCT` leave in channel `ch` when the host first puts the block `d` in `IO[ch]` and sets the
control registers to `cr` and `cs` (70_reset_and_hazards.md R301). -/
def composedChannel (s : State) (ch : Nat) (d : List Word) (cr cs : Word) : Channel :=
  let coeffs := distortStage s.cfg cr cs s.draws (olaFwd s.cfg (channelAt s ch).hist d)
  { io := olaInv s.cfg (channelAt s ch).tail coeffs
    hist := d
    tail := olaTail s.cfg coeffs
    dry := (channelAt s ch).dry }

section Pieces

variable {s : State} {ch : Nat}

/-- `MDCT` on a block the host put in `IO[ch]`: `VEC` gets its Coefficient Vector and the block stays in `IO[ch]` and goes to
`HIST[ch]` (41_overlap_add.md R170). -/
theorem mdctBody_setChannel_io (hlt : ch < s.channels.length) (d : List Word) :
    mdctBody ch (setChannel ch { channelAt s ch with io := d } s)
      = setChannel ch { channelAt s ch with io := d, hist := d }
          { s with vec := olaFwd s.cfg (channelAt s ch).hist d } := by
  rw [mdctBody, channelAt_setChannel_self hlt]
  simp [setChannel]

/-- What `IMDCT` leaves in a channel that holds `k` (41_overlap_add.md R171). -/
theorem channelAt_imdctBody_self {k : Channel} (hlt : ch < s.channels.length) (hk : channelAt s ch = k) :
    channelAt (imdctBody ch s) ch
      = { k with io := olaInv s.cfg k.tail s.vec, tail := olaTail s.cfg s.vec } := by
  subst hk
  exact (channelAt_imdctBody hlt ch).trans (if_pos rfl)

/-- The three commands complete, and they leave `composedChannel` (70_reset_and_hazards.md R301). -/
theorem exec_mdct_distort_imdct (hch : ch < s.cfg.c) (hlt : ch < s.channels.length) (d : List Word) (cr cs : Word) :
    ∃ t1 t2 t3,
      exec (.mdct ch s.cfg.n) (setChannel ch { channelAt s ch with io := d } s) = .next t1
      ∧ exec .distort { t1 with crunchVal := cr, crushVal := cs } = .next t2
      ∧ exec (.imdct ch s.cfg.n) t2 = .next t3
      ∧ channelAt t3 ch = composedChannel s ch d cr cs := by
  have hmdct := exec_mdct_of_legal (s := setChannel ch { channelAt s ch with io := d } s) hch
  rw [mdctBody_setChannel_io hlt] at hmdct
  refine ⟨_, _, _, hmdct, exec_distort _, exec_imdct_of_legal hch, ?_⟩
  refine channelAt_imdctBody_self (k := { channelAt s ch with io := d, hist := d }) (by simpa using hlt) ?_
  exact channelAt_setChannel_self hlt _

end Pieces

/-- With the driven block and the representative controls the pieces leave the history, the tail and the wet block of a cycle
(43_channel_pipeline.md R226). -/
theorem composedChannel_driven (s : State) (ch : Nat) :
    composedChannel s ch (driven s.cfg s.frame (channelAt s ch).io) (s.frame.cr s.cfg) (s.frame.cs s.cfg)
      = { cycle s.cfg s.frame s.draws (channelAt s ch) with
          io := olaInv s.cfg (channelAt s ch).tail (cycleCoeffs s.cfg s.frame s.draws (channelAt s ch))
          dry := (channelAt s ch).dry } := rfl

/-- Settles O50: the host's block is the driven block, so the pieces leave the cycle's history, tail and wet block, from which
`elem_cycle_io` gives the cycle's output. -/
theorem cycleComposedFromPieces : Obligations.CycleComposedFromPieces := by
  intro s ch d h hch hlen hd
  have hlt : ch < s.channels.length := by rwa [State.wf_channels h]
  have hk := channelAt_wf h hch
  obtain rfl := eq_driven h hk hlen hd
  obtain ⟨t1, t2, t3, h1, h2, h3, hchannel⟩ := exec_mdct_distort_imdct hch hlt (driven s.cfg s.frame (channelAt s ch).io)
    (s.frame.cr s.cfg) (s.frame.cs s.cfg)
  rw [composedChannel_driven] at hchannel
  have hcycle : channelAt { channelCycle ch s with code := .normal } ch
      = cycle s.cfg s.frame s.draws (channelAt s ch) := (channelAt_channelCycle ch ch hlt).trans (if_pos rfl)
  refine ⟨t1, t2, t3, _, h1, h2, h3, exec_procBlock_eq hch, ?_⟩
  rw [hchannel, hcycle]
  exact ⟨rfl, rfl, rfl, fun i hi => elem_cycle_io h s.draws hk hi⟩

end Sys2Proof.Machine
end
